-- ==== Sys2Proof/Word.lean ====
section
/-! DEFINITION. The word and byte types of the block: registers are 32 bits wide (10_state.md R14), memory bytes
8 bits (20_memory.md R37). -/

namespace Sys2Proof

/-- A host register, a command word, a generator word (u32). -/
abbrev Word := BitVec 32

/-- A byte of a byte-addressed internal memory; a bit-history cell (u8). -/
abbrev Byte := BitVec 8

end Sys2Proof
end

