-- ==== Sys2Proof/Syntax.lean ====
section
/-! DEFINITION. The 27 commands of CMP-1 (30_encoding.md R57), one constructor per row of spec/opcode_table.json.
A constructor carries exactly the command-word fields the command uses (R56): the unit number, the mixer unit or
mixer stage, the immediate. Operands in ARG0..ARG2 are no part of the word. -/

namespace Sys2Proof

/-- The memory classes of `DBG_RD` (20_memory.md R51), in the order of their `IMM` values 0 to 15. -/
inductive DbgClass where
  | buf | smEntry | apmEntry | mixWeight | mixInput | mixSelection | mixCounters | bhByte
  | cmByte | cmContext | cmStateMap | rcmByte | rcmPointer | sscmEntry | sscmPointers | rngWord
deriving DecidableEq, Repr

/-- The commands of CMP-1. `unit` is the field UNIT, `mixu` the field MIXU, `rate` the field IMM as a rate,
`b` the bit IMM[0]. -/
inductive Instr where
  /-- OP 0x00, R62 -/
  | nop
  /-- OP 0x01, R63 -/
  | bitBegin (b : BitVec 1)
  /-- OP 0x02, R116 -/
  | bitEnd
  /-- OP 0x03, R64 -/
  | probRead
  /-- OP 0x04, R65 -/
  | dbgRd (cls : DbgClass) (unit mixu : BitVec 8)
  /-- OP 0x10, R73 -/
  | squash
  /-- OP 0x11, R74 -/
  | stretch
  /-- OP 0x12, R75 -/
  | ilog
  /-- OP 0x13, R76 -/
  | fsmNext (b : BitVec 1)
  /-- OP 0x14, R77 -/
  | fsmCounts
  /-- OP 0x15, R78 -/
  | fsmNextp (b : BitVec 1)
  /-- OP 0x16, R79 -/
  | rngNext
  /-- OP 0x20, R82 -/
  | smP (unit : BitVec 8)
  /-- OP 0x24, R85 -/
  | apmP (unit rate : BitVec 8)
  /-- OP 0x30, R92 -/
  | mixUpdate (unit : BitVec 8)
  /-- OP 0x31, R93 -/
  | mixAdd (unit : BitVec 8)
  /-- OP 0x32, R94 -/
  | mixSet (unit : BitVec 8)
  /-- OP 0x33, R95 -/
  | mixP (unit : BitVec 8)
  /-- OP 0x40, R98 -/
  | bhLookup (unit : BitVec 8)
  /-- OP 0x41, R99 -/
  | bhRd (unit : BitVec 8)
  /-- OP 0x42, R100 -/
  | bhWr (unit : BitVec 8)
  /-- OP 0x50, R108 -/
  | cmSet (unit : BitVec 8)
  /-- OP 0x51, R109 -/
  | cmMix (unit mixu : BitVec 8)
  /-- OP 0x58, R111 -/
  | rcmSet (unit : BitVec 8)
  /-- OP 0x59, R112 -/
  | rcmMix (unit mixu : BitVec 8)
  /-- OP 0x60, R113 -/
  | sscmSet (unit : BitVec 8)
  /-- OP 0x61, R114 -/
  | sscmMix (unit mixu rate : BitVec 8)
deriving DecidableEq, Repr

end Sys2Proof
end

