-- ==== Sys2Proof/WellFormed.lean ====
section
/-! DEFINITION. Which instruction terms stand for a command word. The types of `Instr` leave one check: `MIXU` is a
reserved field of `DBG_RD` for the classes that have no mixer stage (20_memory.md R51, 30_encoding.md R52). -/

namespace Sys2Proof

/-- The classes of `DBG_RD` whose `MIXU` field is a mixer stage: classes 3 to 6 (20_memory.md R51). -/
def DbgClass.staged : DbgClass → Bool
  | .mixWeight | .mixInput | .mixSelection | .mixCounters => true
  | .buf | .smEntry | .apmEntry | .bhByte | .cmByte | .cmContext | .cmStateMap | .rcmByte | .rcmPointer
  | .sscmEntry | .sscmPointers | .rngWord => false

/-- An instruction term that some command word encodes. -/
def Instr.wellFormed : Instr → Bool
  | .dbgRd cls _ mixu => cls.staged || mixu == 0
  | .nop | .bitBegin _ | .bitEnd | .probRead | .squash | .stretch | .ilog | .fsmNext _ | .fsmCounts | .fsmNextp _
  | .rngNext | .smP _ | .apmP _ _ | .mixUpdate _ | .mixAdd _ | .mixSet _ | .mixP _ | .bhLookup _ | .bhRd _ | .bhWr _
  | .cmSet _ | .cmMix _ _ | .rcmSet _ | .rcmMix _ _ | .sscmSet _ | .sscmMix _ _ _ => true

/-- `Instr.wellFormed` as a proposition. -/
abbrev Instr.WellFormed (i : Instr) : Prop := i.wellFormed = true

end Sys2Proof
end

