-- ==== Sys2Proof/Decode.lean ====
section
/-! DEFINITION. Decoding and encoding of the command word (30_encoding.md R52 to R58). The decoder is total; it rejects
by name, and every rejection is the error E_ILLEGAL_OP of 60_exceptions.md R119. -/

namespace Sys2Proof

/-- Why a word is no command (30_encoding.md R52, R58; 40_global_context.md R65). -/
inductive DecodeError where
  /-- OP is none of the 27 of R57 -/
  | reservedOpcode
  /-- a field the command does not use is nonzero -/
  | reservedField
  /-- `DBG_RD` with a class above 15 -/
  | reservedClass
  /-- `DBG_RD` with a nonzero MIXU in a class without a mixer stage -/
  | classHasNoStage
deriving DecidableEq, Repr

/-- Field OP, bits 31:24 (R52). -/
def opField (w : Word) : BitVec 8 := w.extractLsb' 24 8
/-- Field UNIT, bits 23:16 (R52). -/
def unitField (w : Word) : BitVec 8 := w.extractLsb' 16 8
/-- Field MIXU, bits 15:8 (R52). -/
def mixuField (w : Word) : BitVec 8 := w.extractLsb' 8 8
/-- Field IMM, bits 7:0 (R52). -/
def immField (w : Word) : BitVec 8 := w.extractLsb' 0 8

/-- The `IMM` value of a memory class (20_memory.md R51). -/
def DbgClass.code : DbgClass → BitVec 8
  | .buf => 0 | .smEntry => 1 | .apmEntry => 2 | .mixWeight => 3
  | .mixInput => 4 | .mixSelection => 5 | .mixCounters => 6 | .bhByte => 7
  | .cmByte => 8 | .cmContext => 9 | .cmStateMap => 10 | .rcmByte => 11
  | .rcmPointer => 12 | .sscmEntry => 13 | .sscmPointers => 14 | .rngWord => 15

/-- The memory class an `IMM` value selects; 16 to 255 are reserved (20_memory.md R51). -/
def DbgClass.ofCode (k : BitVec 8) : Option DbgClass :=
  match k.toNat with
  | 0 => some .buf | 1 => some .smEntry | 2 => some .apmEntry | 3 => some .mixWeight
  | 4 => some .mixInput | 5 => some .mixSelection | 6 => some .mixCounters | 7 => some .bhByte
  | 8 => some .cmByte | 9 => some .cmContext | 10 => some .cmStateMap | 11 => some .rcmByte
  | 12 => some .rcmPointer | 13 => some .sscmEntry | 14 => some .sscmPointers | 15 => some .rngWord
  | _ => none

/-- Accept `i` if the reserved fields of its format are zero (R52). -/
def requireZero (zero : Bool) (i : Instr) : Except DecodeError Instr :=
  if zero then .ok i else .error .reservedField

/-- A command that uses no field besides OP. -/
def decodeBare (w : Word) (i : Instr) : Except DecodeError Instr :=
  requireZero (unitField w == 0 && mixuField w == 0 && immField w == 0) i

/-- A command whose only field is the bit IMM[0]; IMM[7:1] is reserved (R54). -/
def decodeBit (w : Word) (f : BitVec 1 → Instr) : Except DecodeError Instr :=
  requireZero (unitField w == 0 && mixuField w == 0 && (immField w).extractLsb' 1 7 == 0)
    (f ((immField w).extractLsb' 0 1))

/-- A command whose only field is UNIT. -/
def decodeUnit (w : Word) (f : BitVec 8 → Instr) : Except DecodeError Instr :=
  requireZero (mixuField w == 0 && immField w == 0) (f (unitField w))

/-- A command that uses UNIT and MIXU. -/
def decodeUnitMixu (w : Word) (f : BitVec 8 → BitVec 8 → Instr) : Except DecodeError Instr :=
  requireZero (immField w == 0) (f (unitField w) (mixuField w))

/-- `DBG_RD`: class and stage are checked while decoding (R65, 60_exceptions.md R121 item 2). -/
def decodeDbg (w : Word) : Except DecodeError Instr :=
  match DbgClass.ofCode (immField w) with
  | none => .error .reservedClass
  | some cls =>
    if cls.staged || mixuField w == 0 then .ok (.dbgRd cls (unitField w) (mixuField w)) else .error .classHasNoStage

/-- The command a 32-bit word stands for (R57, R58). -/
def decode (w : Word) : Except DecodeError Instr :=
  match (opField w).toNat with
  | 0x00 => decodeBare w .nop
  | 0x01 => decodeBit w .bitBegin
  | 0x02 => decodeBare w .bitEnd
  | 0x03 => decodeBare w .probRead
  | 0x04 => decodeDbg w
  | 0x10 => decodeBare w .squash
  | 0x11 => decodeBare w .stretch
  | 0x12 => decodeBare w .ilog
  | 0x13 => decodeBit w .fsmNext
  | 0x14 => decodeBare w .fsmCounts
  | 0x15 => decodeBit w .fsmNextp
  | 0x16 => decodeBare w .rngNext
  | 0x20 => decodeUnit w .smP
  | 0x24 => requireZero (mixuField w == 0) (.apmP (unitField w) (immField w))
  | 0x30 => decodeUnit w .mixUpdate
  | 0x31 => decodeUnit w .mixAdd
  | 0x32 => decodeUnit w .mixSet
  | 0x33 => decodeUnit w .mixP
  | 0x40 => decodeUnit w .bhLookup
  | 0x41 => decodeUnit w .bhRd
  | 0x42 => decodeUnit w .bhWr
  | 0x50 => decodeUnit w .cmSet
  | 0x51 => decodeUnitMixu w .cmMix
  | 0x58 => decodeUnit w .rcmSet
  | 0x59 => decodeUnitMixu w .rcmMix
  | 0x60 => decodeUnit w .sscmSet
  | 0x61 => .ok (.sscmMix (unitField w) (mixuField w) (immField w))
  | _ => .error .reservedOpcode

/-- A word of format C from its four fields (R52). -/
def formatC (op unit mixu imm : BitVec 8) : Word := op ++ unit ++ mixu ++ imm

/-- The opcode of each command (R57). -/
def Instr.opcode : Instr → BitVec 8
  | .nop => 0x00 | .bitBegin _ => 0x01 | .bitEnd => 0x02 | .probRead => 0x03 | .dbgRd _ _ _ => 0x04
  | .squash => 0x10 | .stretch => 0x11 | .ilog => 0x12 | .fsmNext _ => 0x13 | .fsmCounts => 0x14
  | .fsmNextp _ => 0x15 | .rngNext => 0x16 | .smP _ => 0x20 | .apmP _ _ => 0x24
  | .mixUpdate _ => 0x30 | .mixAdd _ => 0x31 | .mixSet _ => 0x32 | .mixP _ => 0x33
  | .bhLookup _ => 0x40 | .bhRd _ => 0x41 | .bhWr _ => 0x42 | .cmSet _ => 0x50 | .cmMix _ _ => 0x51
  | .rcmSet _ => 0x58 | .rcmMix _ _ => 0x59 | .sscmSet _ => 0x60 | .sscmMix _ _ _ => 0x61

/-- The word of a command: used fields as R56 lists them, reserved fields 0. -/
def encode (i : Instr) : Word :=
  match i with
  | .nop | .bitEnd | .probRead | .squash | .stretch | .ilog | .fsmCounts | .rngNext => formatC i.opcode 0 0 0
  | .bitBegin b | .fsmNext b | .fsmNextp b => formatC i.opcode 0 0 (b.setWidth 8)
  | .dbgRd cls unit mixu => formatC i.opcode unit mixu cls.code
  | .smP u | .mixUpdate u | .mixAdd u | .mixSet u | .mixP u | .bhLookup u | .bhRd u | .bhWr u
  | .cmSet u | .rcmSet u | .sscmSet u => formatC i.opcode u 0 0
  | .apmP u rate => formatC i.opcode u 0 rate
  | .cmMix u x | .rcmMix u x => formatC i.opcode u x 0
  | .sscmMix u x rate => formatC i.opcode u x rate

/-- The host's view of the decoder: the low `nbits` bits of `w` as one command word, the bits above them 0. -/
def decodeTableWord (nbits w : Nat) : Option Instr :=
  match decode (BitVec.ofNat 32 (w % 2 ^ nbits)) with
  | .ok i => some i
  | .error _ => none

end Sys2Proof
end

