-- ==== Sys2Proof/Machine/Memory.lean ====
section
/-! DEFINITION. The internal memories of the block (20_memory.md R37) as sparse data in one canonical form: the listed
addresses rise strictly, and no listed cell equals what an unlisted address reads as. What an unlisted address reads
as is its reset value (70_reset_and_hazards.md R135), given by the argument `d` (log 11). -/

namespace Sys2Proof.Machine

/-- A memory of `w`-bit cells: the cells that differ from their reset value, by address. `Memory 8` is a list of
`Host.Cell`. -/
abbrev Memory (w : Nat) := List (Nat × BitVec w)

/-- The value of the cell at `a`; an unlisted cell holds `d a`. -/
def Memory.read {w : Nat} (d : Nat → BitVec w) : Memory w → Nat → BitVec w
  | [], a => d a
  | c :: m, a => if c.1 = a then c.2 else Memory.read d m a

/-- The memory with the cell at `a` unlisted. -/
def Memory.erase {w : Nat} (m : Memory w) (a : Nat) : Memory w := m.filter fun c => c.1 != a

/-- The memory with the cell `(a, v)` put before the first cell of a higher address. -/
def Memory.insert {w : Nat} (a : Nat) (v : BitVec w) : Memory w → Memory w
  | [] => [(a, v)]
  | c :: m => if c.1 < a then c :: Memory.insert a v m else (a, v) :: c :: m

/-- The memory after the cell at `a` is set to `v`. -/
def Memory.write {w : Nat} (d : Nat → BitVec w) (m : Memory w) (a : Nat) (v : BitVec w) : Memory w :=
  if v = d a then m.erase a else (m.erase a).insert a v

/-- The canonical form of a memory of `size` cells. -/
abbrev Memory.wf {w : Nat} (d : Nat → BitVec w) (size : Nat) (m : Memory w) : Prop :=
  m.Pairwise (fun c c' => c.1 < c'.1) ∧ ∀ c ∈ m, c.1 < size ∧ c.2 ≠ d c.1

/-- The reset contents of every byte-addressed memory: all zero (R135). -/
def zeros {w : Nat} : Nat → BitVec w := fun _ => 0

/-- `mem[a]` (00_scope.md R12) of a byte-addressed memory. -/
def byteAt (m : Memory 8) (a : Nat) : Byte := m.read zeros a

/-- `mem[a] <- v` of a byte-addressed memory. -/
def putByte (m : Memory 8) (a : Nat) (v : Byte) : Memory 8 := m.write zeros a v

/-- `MemRead(mem, a, 2)`: little-endian, the byte at `a` is bits 7:0 (R12, R38). -/
def read16 (m : Memory 8) (a : Nat) : BitVec 16 := byteAt m (a + 1) ++ byteAt m a

/-- `MemWrite(mem, a, 2, v)`: little-endian (R12, R38). -/
def write16 (m : Memory 8) (a : Nat) (v : BitVec 16) : Memory 8 :=
  putByte (putByte m a (v.extractLsb' 0 8)) (a + 1) (v.extractLsb' 8 8)

/-- The `n` bytes from `a` upwards. -/
def readBytes (m : Memory 8) (a : Nat) : Nat → List Byte
  | 0 => []
  | n + 1 => byteAt m a :: readBytes m (a + 1) n

/-- The memory after the bytes are stored from `a` upwards. -/
def writeBytes (m : Memory 8) (a : Nat) : List Byte → Memory 8
  | [] => m
  | v :: vs => writeBytes (putByte m a v) (a + 1) vs

end Sys2Proof.Machine
end

