-- ==== Sys2Proof/Config.lean ====
section
/-! DEFINITION. The configuration of an instance (00_scope.md R7): the contents of the tables and parameters, the
geometry of the units, the constraints an instance meets, and the two tables whose contents the spec leaves OPEN
without a default, as constants without a body (logs 3, 4). -/

namespace Sys2Proof

/-- BUF_LOG2 (R7): log2 of the capacity of the `buf` ring in bytes. -/
def bufLog2 : Nat := 24

/-- One row of STATE_TABLE (41_tables_fsm.md R66): `nex(s,0)`, `nex(s,1)`, `n0(s)`, `n1(s)`. -/
structure StateRow where
  nex0 : Byte
  nex1 : Byte
  n0 : Byte
  n1 : Byte
deriving DecidableEq, Repr, Inhabited

/-- The table and platform parameters of an instance (R7), as plain data. -/
structure Config where
  /-- STATE_TABLE, 256 rows (R66) -/
  stateTable : List StateRow
  /-- SQUASH, 4095 entries; entry `k` is `SQUASH[k - 2047]` (R67) -/
  squash : List (BitVec 12)
  /-- RNG_INIT, the 64 generator words after warm-up (R70) -/
  rngInit : List Word
  /-- where HASH2 differs from the default hash of R115: `a + 256*b` and the value there (log 6) -/
  hash2 : List (Nat × Word)
  /-- where HASH3 differs from the default hash of R115: `a + 256*b + 65536*c` and the value there (log 6) -/
  hash3 : List (Nat × Word)
  /-- BLOCK_BASE, the system address of the register window (20_memory.md R41) -/
  blockBase : Nat
deriving DecidableEq, Repr

/-- The successor column a bit selects. -/
def StateRow.nex (r : StateRow) (b : BitVec 1) : Byte := if b = 0 then r.nex0 else r.nex1

/-- A row a live state may have (R66 constraint 3): both successors are live and not 0. -/
def StateRow.live (r : StateRow) : Bool :=
  decide (r.nex0 ≠ 0 ∧ r.nex0.toNat ≤ 252 ∧ r.nex1 ≠ 0 ∧ r.nex1.toNat ≤ 252)

/-- The constraints of R66 on STATE_TABLE. -/
structure StateTableOk (t : List StateRow) : Prop where
  length : t.length = 256
  nex_0_0 : (t.getD 0 default).nex0 = 1
  nex_0_1 : (t.getD 0 default).nex1 = 2
  nex_1_1 : (t.getD 1 default).nex1 = 5
  nex_252_0 : (t.getD 252 default).nex0 = 140
  nex_252_1 : (t.getD 252 default).nex1 = 252
  live : ∀ s ≤ 252, (t.getD s default).live = true
  n0_0 : (t.getD 0 default).n0 = 0
  n1_0 : (t.getD 0 default).n1 = 0

/-- The constraints of R67 on SQUASH; entry `k` stands for the argument `k - 2047`. -/
structure SquashOk (t : List (BitVec 12)) : Prop where
  length : t.length = 4095
  at_zero : t.getD 2047 0 = 2048
  at_top : t.getD 4094 0 = 4095
  at_bottom : t.getD 0 0 = 0
  monotone : ∀ j k, j ≤ k → k < 4095 → t.getD j 0 ≤ t.getD k 0
  below_zero : t.getD 2046 0 < 2048
  below_top : t.getD 4093 0 < 4095
  knots : ∀ k < 31, t.getD (128 * k + 126) 0 < t.getD (128 * k + 127) 0

/-- A configuration of an instance: the table constraints of R66 and R67, 64 generator words (R28), a window base
that is a multiple of 64 (R41). -/
structure Config.Admissible (c : Config) : Prop where
  stateTable : StateTableOk c.stateTable
  squash : SquashOk c.squash
  rngInit : c.rngInit.length = 64
  blockBase : c.blockBase % 64 = 0

/-- A SQUASH that meets R67, to show that the constraints can be met: `2048 + d`, but 0 at -2047. -/
def rampSquash : List (BitVec 12) := (List.range 4095).map fun k => if k = 0 then 0 else BitVec.ofNat 12 (k + 1)

/-- A STATE_TABLE that meets R66, to show that the constraints can be met: `nex(s,0) = 1` and `nex(s,1) = 2` but for
the spot values, all counts 0 but those of state 1. -/
def spotStateTable : List StateRow :=
  [⟨1, 2, 0, 0⟩, ⟨1, 5, 3, 1⟩] ++ List.replicate 250 ⟨1, 2, 0, 1⟩ ++ [⟨140, 252, 1, 1⟩] ++ List.replicate 3 ⟨1, 2, 0, 0⟩

theorem spotStateTable_ok : StateTableOk spotStateTable where
  length := by decide +kernel
  nex_0_0 := by decide
  nex_0_1 := by decide
  nex_1_1 := by decide
  nex_252_0 := by decide +kernel
  nex_252_1 := by decide +kernel
  live := by decide +kernel
  n0_0 := by decide
  n1_0 := by decide

theorem rampSquash_getD (k : Nat) (h : k < 4095) :
    rampSquash.getD k 0 = if k = 0 then 0 else BitVec.ofNat 12 (k + 1) := by
  simp [rampSquash, h]

theorem rampSquash_toNat (k : Nat) (h : k < 4095) :
    (rampSquash.getD k 0).toNat = if k = 0 then 0 else k + 1 := by
  rw [rampSquash_getD k h]
  split
  · rfl
  · simp only [BitVec.toNat_ofNat]; omega

theorem rampSquash_ok : SquashOk rampSquash where
  length := by simp [rampSquash]
  at_zero := by rw [rampSquash_getD _ (by omega)]; rfl
  at_top := by rw [rampSquash_getD _ (by omega)]; rfl
  at_bottom := by rw [rampSquash_getD _ (by omega)]; rfl
  monotone := by
    intro j k hjk hk
    rw [BitVec.le_def, rampSquash_toNat j (by omega), rampSquash_toNat k hk]
    split <;> split <;> omega
  below_zero := by rw [rampSquash_getD _ (by omega)]; decide
  below_top := by rw [rampSquash_getD _ (by omega)]; decide
  knots := by
    intro k hk
    rw [BitVec.lt_def, rampSquash_toNat _ (by omega), rampSquash_toNat _ (by omega)]
    split <;> split <;> omega

/-- The two tables whose contents the spec leaves OPEN (R66, R67), with the constraints it puts on them. The default
values only show that such a pair exists. -/
structure OpenTables where
  stateTable : List StateRow := spotStateTable
  squash : List (BitVec 12) := rampSquash
  stateTable_ok : StateTableOk stateTable := by exact spotStateTable_ok
  squash_ok : SquashOk squash := by exact rampSquash_ok
deriving Inhabited

/-- STATE_TABLE and SQUASH of the instance of `State.reset`: some pair of tables that meets the constraints, and
nothing more is known of it. DESIGN CHOICE, safe (log 4). -/
opaque openTables : OpenTables

/-- The configured sizes of one Mixer unit, `Mixer(n, m, s, w0)` (R7). -/
structure MixerGeometry where
  n : Nat
  m : Nat
  s : Nat
  w0 : BitVec 16
deriving DecidableEq, Repr

/-- The unit counts and sizes of an instance (R7): the list lengths are N_APM, N_MIX, N_BH, N_CM, N_RCM, N_SSCM. -/
structure Geometry where
  /-- N_SM -/
  nSm : Nat
  /-- APM_ROWS -/
  apm : List Nat
  /-- MIX_n, MIX_m, MIX_s, MIX_w0 -/
  mix : List MixerGeometry
  /-- BH_B, BH_NS -/
  bh : List (Nat × Nat)
  /-- CM_C, CM_E -/
  cm : List (Nat × Nat)
  /-- RCM_NS -/
  rcm : List Nat
  /-- SSCM_NE -/
  sscm : List Nat
deriving DecidableEq, Repr

/-- `n` is a power of two. -/
abbrev IsPow2 (n : Nat) : Prop := 2 ^ Nat.log2 n = n

/-- The constraints of R7 on the counts and sizes. -/
structure Geometry.Valid (g : Geometry) : Prop where
  nSm : g.nSm ≤ 256
  nApm : 7 ≤ g.apm.length ∧ g.apm.length ≤ 256
  apm0 : g.apm[0]? = some 256
  apmStack : ∀ k, 1 ≤ k → k ≤ 6 → g.apm[k]? = some 65536
  apmRows : ∀ r ∈ g.apm, 1 ≤ r
  nMix : 1 ≤ g.mix.length ∧ g.mix.length ≤ 256
  mix : ∀ x ∈ g.mix, 1 ≤ x.n ∧ 1 ≤ x.m ∧ 1 ≤ x.s ∧ x.s ≤ 255
  nBh : g.bh.length ≤ 256
  bh : ∀ x ∈ g.bh, 3 ≤ x.1 ∧ x.1 ≤ 8 ∧ IsPow2 x.2 ∧ 8 ≤ x.2
  nCm : g.cm.length ≤ 256
  cm : ∀ x ∈ g.cm, 1 ≤ x.1 ∧ x.1 ≤ 255 ∧ IsPow2 x.2 ∧ x.2 ≤ 2 ^ 25
  nRcm : g.rcm.length ≤ 256
  rcm : ∀ x ∈ g.rcm, IsPow2 x ∧ 8 ≤ x
  nSscm : g.sscm.length ≤ 256
  sscm : ∀ x ∈ g.sscm, IsPow2 x ∧ 256 ≤ x

end Sys2Proof
end

