-- ==== Sys2Proof/Machine/Arith.lean ====
section
/-! DEFINITION. The integer operators of 00_scope.md R8 to R11. Values in the rules are mathematical integers; a shift
right is the floor of a division, a narrowing to 32 bits is two's complement. -/

namespace Sys2Proof.Machine

/-- `v >> k`: the floor of `v / 2^k`, for every integer `v` (R9). -/
def shr (v : Int) (k : Nat) : Int := v / ((2 ^ k : Nat) : Int)

/-- `wraps32(v)`: the integer in [-2^31, 2^31) that is `v` modulo 2^32 (R8). -/
def wraps32 (v : Int) : Int := (BitVec.ofInt 32 v).toInt

/-- `clamp16(v)`: saturation to the range of a signed 16-bit value (R11). -/
def clamp16 (v : Int) : Int := min 32767 (max (-32768) v)

/-- `[c]`: 1 if the condition holds, else 0 (R9). -/
def indicator (c : Bool) : Nat := if c then 1 else 0

end Sys2Proof.Machine
end

