-- ==== Sys2Proof/Machine/Tables.lean ====
section
/-! DEFINITION. The fixed tables as functions of the configuration (41_tables_fsm.md R66 to R69; 10_state.md R27 lets a
model hold them as functions), and the reset contents of the StateMap and APM tables (42_statemap_apm.md R80, R83). -/

namespace Sys2Proof.Machine

/-- Row `s` of STATE_TABLE (R66). -/
def stateRow (c : Config) (s : Byte) : StateRow := c.stateTable.getD s.toNat default

/-- `nex(s, b)` (R66). -/
def nex (c : Config) (s : Byte) (b : BitVec 1) : Byte := (stateRow c s).nex b

/-- `n0(s)` (R66). -/
def n0 (c : Config) (s : Byte) : Byte := (stateRow c s).n0

/-- `n1(s)` (R66). -/
def n1 (c : Config) (s : Byte) : Byte := (stateRow c s).n1

/-- `squash(d)`: the table on [-2047, 2047], saturated outside (R67). -/
def squash (c : Config) (d : Int) : BitVec 12 :=
  if d > 2047 then 4095 else if d < -2047 then 0 else c.squash.getD (d + 2047).toNat 0

/-- `stretch(p)`: the least `d` in [-2047, 2047] with `SQUASH[d] >= p`, or 2047 if there is none (R68). -/
def stretch (c : Config) (p : BitVec 12) : Int :=
  let k := c.squash.findIdx fun v => decide (p ≤ v)
  if k < 4095 then (k : Int) - 2047 else 2047

/-- `ilog(x)`: `16 * log2(x)` rounded to the nearest integer, and `ilog(0) = 0` (R69). The rounding is exact:
`16 * log2(x)` is half of `log2(x^32)`, so its nearest integer is `(floor(log2(x^32)) + 1) / 2` (log 13). -/
def ilog (x : Nat) : Nat := (Nat.log2 (x ^ 32) + 1) / 2

/-- The reset value of entry `s` of every StateMap (R80); the two tests run in the order of the rule. -/
def smInit (c : Config) (s : Nat) : BitVec 16 :=
  let r := c.stateTable.getD s default
  let a1 := if r.n0.toNat = 0 then r.n1.toNat * 64 else r.n1.toNat
  let a0 := if a1 = 0 then r.n0.toNat * 64 else r.n0.toNat
  BitVec.ofNat 16 (65536 * (a1 + 1) / (a0 + a1 + 2))

/-- The reset value of entry `a = 33*r + j` of every APM: `squash((j - 16) * 128) * 16` (R83). -/
def apmInit (c : Config) (a : Nat) : BitVec 16 :=
  BitVec.ofNat 16 ((squash c (((a % 33 : Nat) : Int) * 128 - 2048)).toNat * 16)

/-- The PAQ family's hash (47_predictor.md R115), missing arguments being 0xFFFFFFFF. -/
def paqHash (a b : Word) (c d e : Word := 0xFFFFFFFF) : Word :=
  let h := a * 200002979 + b * 30005491 + c * 50004239 + d * 70004807 + e * 110002499
  h ^^^ (h >>> 9) ^^^ (a >>> 2) ^^^ (b >>> 3) ^^^ (c >>> 4) ^^^ (d >>> 5) ^^^ (e >>> 6)

end Sys2Proof.Machine
end

