-- ==== Sys2Proof/Machine/Units.lean ====
section
/-! DEFINITION. The state of each part of the block (10_state.md R25 to R35) and how each part is constructed, which is
its reset state (70_reset_and_hazards.md R135). A unit carries its configured sizes; no step changes them (log 3). -/

namespace Sys2Proof.Machine

/-- The global bit context (R25), with the PR register (R20). -/
structure GlobalContext where
  y : BitVec 1
  c0 : Byte
  bpos : BitVec 3
  c4 : Word
  pos : Word
  buf : Memory 8
  pr : BitVec 12
deriving DecidableEq, Repr

/-- The global bit context after reset (R135). -/
def GlobalContext.fresh : GlobalContext :=
  { y := 0, c0 := 1, bpos := 0, c4 := 0, pos := 0, buf := [], pr := 2048 }

/-- The pseudo-random generator (R28): 64 words and the index of the last word written. -/
structure Generator where
  t : List Word
  i : BitVec 6
deriving DecidableEq, Repr

/-- The generator after reset (41_tables_fsm.md R70). -/
def Generator.fresh (c : Config) : Generator := { t := c.rngInit, i := 0 }

/-- A StateMap (R29); unlisted entries read as `smInit`. -/
structure StateMap where
  t : Memory 16
  prev : Byte
deriving DecidableEq, Repr

/-- A StateMap after reset (R80). -/
def StateMap.fresh : StateMap := { t := [], prev := 0 }

/-- An APM unit with `rows` rows (R30); unlisted entries read as `apmInit`. -/
structure Apm where
  rows : Nat
  t : Memory 16
  index : Nat
deriving DecidableEq, Repr

/-- An APM unit after reset (R83). -/
def Apm.fresh (rows : Nat) : Apm := { rows := rows, t := [], index := 0 }

/-- One mixer stage `Mixer(n, m, s, w0)` (R31); unlisted inputs read as 0, unlisted weights as `w0`. -/
structure Stage where
  n : Nat
  m : Nat
  s : Nat
  w0 : BitVec 16
  tx : Memory 16
  wx : Memory 16
  cxt : List Nat
  ncxt : Nat
  base : Nat
  nx : Nat
  pr : List (BitVec 12)
deriving DecidableEq, Repr

/-- A mixer stage after reset (R31, R135). -/
def Stage.fresh (n m s : Nat) (w0 : BitVec 16) : Stage :=
  { n := n, m := m, s := s, w0 := w0, tx := [], wx := [], cxt := List.replicate s 0, ncxt := 0, base := 0, nx := 0
    pr := List.replicate s 2048 }

/-- A Mixer unit: its own stage and, iff `S > 1`, the second-stage mixer (R31). -/
structure Mixer where
  own : Stage
  child : Option Stage
deriving DecidableEq, Repr

/-- A Mixer unit after reset; the child is `Mixer(S, 1, 1, 0x7FFF)` (R31). -/
def Mixer.fresh (x : MixerGeometry) : Mixer :=
  { own := Stage.fresh x.n x.m x.s x.w0
    child := if 1 < x.s then some (Stage.fresh x.s 1 1 0x7FFF) else none }

/-- A `BH<B>` table of `ns` slots (R32). -/
structure BhTable where
  b : Nat
  ns : Nat
  t : Memory 8
deriving DecidableEq, Repr

/-- A `BH<B>` table after reset. -/
def BhTable.fresh (b ns : Nat) : BhTable := { b := b, ns := ns, t := [] }

/-- What a ContextMap holds for one context (R33); a pointer is a byte address in `tab`, `none` is `NULL`. -/
structure CmContext where
  cxt : Word
  cp0 : Nat
  cp : Option Nat
  runp : Nat
  sm : StateMap
deriving DecidableEq, Repr

/-- A context after reset: the pointers name cell 0 and cell 3 of slot 0 of bucket 0 (R33). -/
def CmContext.fresh : CmContext := { cxt := 0, cp0 := 15, cp := some 15, runp := 18, sm := StateMap.fresh }

/-- A ContextMap of `e` buckets (R33); `C` is the number of its contexts. -/
structure ContextMap where
  e : Nat
  tab : Memory 8
  cn : Nat
  ctxs : List CmContext
deriving DecidableEq, Repr

/-- A ContextMap after reset. -/
def ContextMap.fresh (c e : Nat) : ContextMap :=
  { e := e, tab := [], cn := 0, ctxs := List.replicate c CmContext.fresh }

/-- A RunContextMap: a `BH<4>` table of `ns` slots and the slot of its current element (R34). -/
structure RunMap where
  ns : Nat
  t : Memory 8
  cp : Nat
deriving DecidableEq, Repr

/-- A RunContextMap after reset. -/
def RunMap.fresh (ns : Nat) : RunMap := { ns := ns, t := [], cp := 0 }

/-- A SmallStationaryContextMap of `ne` entries (R35); unlisted entries read as 32768. -/
structure Sscm where
  ne : Nat
  t : Memory 16
  cxt : Nat
  cp : Nat
deriving DecidableEq, Repr

/-- A SmallStationaryContextMap after reset. -/
def Sscm.fresh (ne : Nat) : Sscm := { ne := ne, t := [], cxt := 0, cp := 0 }

/-- The reset value of every SSCM entry (R35). -/
def sscmInit : Nat → BitVec 16 := fun _ => 32768

/-- The words of the family's generator warm-up from two consecutive ones (41_tables_fsm.md R70). -/
def rngWarmUp : Nat → Word → Word → List Word
  | 0, _, _ => []
  | n + 1, a, b => a :: rngWarmUp n b (b * 11 + ((a * 23) >>> 4))

/-- The default RNG_INIT (R70). -/
def rngDefault : List Word := rngWarmUp 64 123456789 987654321

/-- The configuration of the instance of `State.reset`: the open tables stay open, the parameters with a default take
it, the window stands at address 0. DESIGN CHOICE (logs 4, 5, 6, 8). -/
def chosenConfig : Config :=
  { stateTable := openTables.stateTable, squash := openTables.squash, rngInit := rngDefault, hash2 := [], hash3 := []
    blockBase := 0 }

/-- The geometry of the instance of `State.reset`: at least one unit of every kind, in sizes the spec's own vectors
use (95_test_vectors.md). DESIGN CHOICE (log 7). -/
def chosenGeometry : Geometry :=
  { nSm := 1
    apm := [256, 65536, 65536, 65536, 65536, 65536, 65536, 1]
    mix := [⟨6, 1, 1, 0⟩, ⟨2, 3, 3, 32767⟩]
    bh := [(4, 16)]
    cm := [(1, 16)]
    rcm := [16]
    sscm := [256] }

end Sys2Proof.Machine
end

