-- ==== Sys2Proof/Machine/State.lean ====
section
/-! DEFINITION. The state of the block (10_state.md), the reasons a step can stop, and the state after reset
(70_reset_and_hazards.md R134, R135). -/

namespace Sys2Proof.Machine

/-- The error codes (60_exceptions.md R119). -/
inductive ErrCode where
  /-- code 1, E_ILLEGAL_OP -/
  | illegalOp
  /-- code 2, E_BAD_UNIT -/
  | badUnit
  /-- code 3, E_BAD_MIXU -/
  | badMixu
  /-- code 4, E_ARG_RANGE -/
  | argRange
  /-- code 5, E_MIX_ADD_FULL -/
  | mixAddFull
  /-- code 6, E_MIX_SET_FULL -/
  | mixSetFull
  /-- code 7, E_MIX_SET_RANGE -/
  | mixSetRange
  /-- code 8, E_CM_SET_FULL -/
  | cmSetFull
  /-- code 9, E_BUSY -/
  | busy
  /-- code 10, E_BUS -/
  | bus
deriving DecidableEq, Repr

/-- The sticky error record: STATUS.ERRCODE and ERRCMD, present iff STATUS.ERR is 1 (10_state.md R17, R18; log 12). -/
structure ErrRecord where
  code : ErrCode
  cmd : Word
deriving DecidableEq, Repr

/-- The command word and operands a command read when it started (10_state.md R15, 70_reset_and_hazards.md R138).
A field of the model, not of the spec (log 10). -/
structure Latch where
  word : Word
  a0 : Word
  a1 : Word
  a2 : Word
deriving DecidableEq, Repr

/-- A host access (20_memory.md R40): a write or a read of `width` bits at a system address. -/
inductive Access where
  | write (addr width : Nat) (value : Word)
  | read (addr width : Nat)
deriving DecidableEq, Repr

/-- An access the host is going to make. `whileBusy` says that it arrives while a command in progress is still being
performed: the durations are not the spec's to fix (70_reset_and_hazards.md R138, R146; log 2). -/
structure HostAccess where
  whileBusy : Bool
  access : Access
deriving DecidableEq, Repr

/-- The whole state of an instance. `cfg` and the sizes inside the units are the configuration and never change (log 3);
`latch`, `host` and `busOut` are the model's own (logs 1, 9, 10). -/
structure State where
  /-- the table and platform parameters (00_scope.md R7) -/
  cfg : Config
  /-- CMD (R14) -/
  cmd : Word
  /-- ARG0 (R15) -/
  arg0 : Word
  /-- ARG1 (R15) -/
  arg1 : Word
  /-- ARG2 (R15) -/
  arg2 : Word
  /-- RES0 (R16) -/
  res0 : Word
  /-- RES1 (R16) -/
  res1 : Word
  /-- STATUS.BUSY (R17) -/
  busy : Bool
  /-- STATUS.ERR, STATUS.ERRCODE, ERRCMD (R17, R18) -/
  err : Option ErrRecord
  /-- the command in progress, or the last one (log 10) -/
  latch : Latch
  /-- the global bit context and PR (R25, R20) -/
  g : GlobalContext
  /-- the generator (R28) -/
  rng : Generator
  /-- the standalone StateMap units (R29) -/
  sm : List StateMap
  /-- the APM units (R30) -/
  apm : List Apm
  /-- the Mixer units (R31) -/
  mix : List Mixer
  /-- the standalone BH tables (R32) -/
  bh : List BhTable
  /-- the ContextMap units (R33) -/
  cm : List ContextMap
  /-- the RunContextMap units (R34) -/
  rcm : List RunMap
  /-- the SmallStationaryContextMap units (R35) -/
  sscm : List Sscm
  /-- the host accesses still to come, oldest first (log 1) -/
  host : List HostAccess
  /-- what the last host read returned (R39; log 9) -/
  busOut : Word
deriving DecidableEq, Repr

/-- Why the machine stops. -/
inductive Fault where
  /-- Raised by `BIT_END` in a state with fewer than seven APM units, which is no state of an instance (00_scope.md R7,
  60_exceptions.md R122 item 1: "Fatal; the object cannot be constructed"). Safe: no instance reaches it (log 14). -/
  | notAnInstance
deriving DecidableEq, Repr

/-- Why the model has no meaning for an instruction. -/
inductive Refusal where
  /-- Raised by an arm of `exec` whose instruction has no meaning yet; no arm does. Safe. -/
  | notModelled (mnemonic : String)
deriving DecidableEq, Repr

/-- The state of a freshly constructed instance (R134, R135). -/
def State.fresh (c : Config) (geo : Geometry) : State :=
  { cfg := c
    cmd := 0, arg0 := 0, arg1 := 0, arg2 := 0, res0 := 0, res1 := 0
    busy := false, err := none, latch := ⟨0, 0, 0, 0⟩
    g := GlobalContext.fresh
    rng := Generator.fresh c
    sm := List.replicate geo.nSm StateMap.fresh
    apm := geo.apm.map Apm.fresh
    mix := geo.mix.map Mixer.fresh
    bh := geo.bh.map fun x => BhTable.fresh x.1 x.2
    cm := geo.cm.map fun x => ContextMap.fresh x.1 x.2
    rcm := geo.rcm.map RunMap.fresh
    sscm := geo.sscm.map Sscm.fresh
    host := [], busOut := 0 }

/-- The machine right after power-on (R134), for the instance of logs 4 to 8. -/
def State.reset : State := State.fresh chosenConfig chosenGeometry

end Sys2Proof.Machine
end

