-- ==== Sys2Proof/Machine/Flags.lean ====
section
/-! DEFINITION. The status word and the read-only views of the register window (10_state.md R17 to R22). The block has
no condition codes (R23); its only flags are STATUS.BUSY and STATUS.ERR. -/

namespace Sys2Proof.Machine

/-- The number of an error code (60_exceptions.md R119). -/
def ErrCode.code : ErrCode → BitVec 8
  | .illegalOp => 1 | .badUnit => 2 | .badMixu => 3 | .argRange => 4 | .mixAddFull => 5
  | .mixSetFull => 6 | .mixSetRange => 7 | .cmSetFull => 8 | .busy => 9 | .bus => 10

/-- STATUS (R17): bit 0 BUSY, bit 1 ERR, bits 15:8 ERRCODE, all other bits 0. -/
def State.statusWord (s : State) : Word :=
  let busy : BitVec 1 := if s.busy then 1 else 0
  match s.err with
  | none => (0 : BitVec 16) ++ (0 : BitVec 8) ++ (0 : BitVec 6) ++ (0 : BitVec 1) ++ busy
  | some r => (0 : BitVec 16) ++ r.code.code ++ (0 : BitVec 6) ++ (1 : BitVec 1) ++ busy

/-- ERRCMD (R18): the word recorded with the error, 0 while there is none. -/
def State.errCmdWord (s : State) : Word :=
  match s.err with
  | none => 0
  | some r => r.cmd

/-- GCTX (R21): bits 7:0 `c0`, bits 10:8 `bpos`, bit 16 `y`, all other bits 0. -/
def GlobalContext.word (g : GlobalContext) : Word :=
  (0 : BitVec 15) ++ g.y ++ (0 : BitVec 5) ++ g.bpos ++ g.c0

/-- PR (R20): bits 11:0 `pr`, all other bits 0. -/
def GlobalContext.prWord (g : GlobalContext) : Word := g.pr.setWidth 32

/-- ID (R22): "PAQ1". -/
def idWord : Word := 0x50415131

end Sys2Proof.Machine
end

