-- ==== Sys2Proof/Machine/Operands.lean ====
section
/-! DEFINITION. How a command reads its operands (30_encoding.md R55, R56): from the latch that took ARG0..ARG2 when the
command started (10_state.md R15, 70_reset_and_hazards.md R138), as u32 or s32. -/

namespace Sys2Proof.Machine

/-- Operand 0 as u32 (R55). -/
def State.op0 (s : State) : Nat := s.latch.a0.toNat

/-- Operand 0 as s32 (R55). -/
def State.op0s (s : State) : Int := s.latch.a0.toInt

/-- Operand 1 as u32 (R55). -/
def State.op1 (s : State) : Nat := s.latch.a1.toNat

/-- Operand 2 as u32 (R55). -/
def State.op2 (s : State) : Nat := s.latch.a2.toNat

/-- A bit as a number. -/
def bitVal (b : BitVec 1) : Nat := b.toNat

/-- `buf(i)`: the byte `i` bytes back from `pos` in the ring (40_global_context.md R61). -/
def GlobalContext.bufBack (g : GlobalContext) (i : Nat) : Byte :=
  byteAt g.buf (((g.pos.toNat : Int) - (i : Int)) % ((2 ^ bufLog2 : Nat) : Int)).toNat

end Sys2Proof.Machine
end

