-- ==== Sys2Proof/Machine/Ops.lean ====
section
/-! DEFINITION. The named updates of State, and the two shared operations of the error mechanism: raising an error, the
block's only exception (60_exceptions.md R120, R124), and clearing the record, its only return (R125). -/

namespace Sys2Proof.Machine

/-- The outcome of a step of this machine. -/
abbrev Result := Host.Outcome State Fault Refusal

/-- Raise error `code` with record value `v` (R120): the first error is recorded, a later one changes nothing. -/
def State.raise (s : State) (code : ErrCode) (v : Word) : State :=
  match s.err with
  | none => { s with err := some ⟨code, v⟩ }
  | some _ => s

/-- A command ends with an error (00_scope.md R12 `raise`): the record value is its command word. -/
def State.refuse (s : State) (code : ErrCode) : State := s.raise code s.latch.word

/-- CTRL.ERR_CLEAR (10_state.md R19): ERR, ERRCODE and ERRCMD become 0. -/
def State.clearErr (s : State) : State := { s with err := none }

/-- Write RES0, leave RES1 (10_state.md R16). -/
def State.setRes0 (s : State) (v : Word) : State := { s with res0 := v }

/-- Write RES0 and RES1 (10_state.md R16). -/
def State.setRes (s : State) (v w : Word) : State := { s with res0 := v, res1 := w }

/-- Replace the global bit context. -/
def State.setG (s : State) (g : GlobalContext) : State := { s with g := g }

/-- Replace the generator. -/
def State.setRng (s : State) (r : Generator) : State := { s with rng := r }

/-- Replace StateMap unit `k`. -/
def State.setSm (s : State) (k : Nat) (u : StateMap) : State := { s with sm := s.sm.set k u }

/-- Replace APM unit `k`. -/
def State.setApm (s : State) (k : Nat) (u : Apm) : State := { s with apm := s.apm.set k u }

/-- Replace Mixer unit `k`. -/
def State.setMix (s : State) (k : Nat) (u : Mixer) : State := { s with mix := s.mix.set k u }

/-- Replace BH table `k`. -/
def State.setBh (s : State) (k : Nat) (u : BhTable) : State := { s with bh := s.bh.set k u }

/-- Replace ContextMap unit `k`. -/
def State.setCm (s : State) (k : Nat) (u : ContextMap) : State := { s with cm := s.cm.set k u }

/-- Replace RunContextMap unit `k`. -/
def State.setRcm (s : State) (k : Nat) (u : RunMap) : State := { s with rcm := s.rcm.set k u }

/-- Replace SmallStationaryContextMap unit `k`. -/
def State.setSscm (s : State) (k : Nat) (u : Sscm) : State := { s with sscm := s.sscm.set k u }

/-- The command in progress is complete: BUSY returns to 0 (70_reset_and_hazards.md R138). -/
def State.endCommand (s : State) : State := { s with busy := false }

/-- Change the state of a next outcome. -/
def mapNext (f : State → State) : Result → Result
  | .next s => .next (f s)
  | .fault r => .fault r
  | .refused r => .refused r

end Sys2Proof.Machine
end

