-- ==== Sys2Proof/Machine/Bus.lean ====
section
/-! DEFINITION. The host's accesses to the register window (10_state.md R14 to R22; 20_memory.md R39 to R41), the reset
(70_reset_and_hazards.md R134), and the behaviour while BUSY is 1 (R138). -/

namespace Sys2Proof.Machine

/-- The configured size of a Mixer unit. -/
def Mixer.geometry (m : Mixer) : MixerGeometry := { n := m.own.n, m := m.own.m, s := m.own.s, w0 := m.own.w0 }

/-- The unit counts and sizes of the instance a state belongs to (00_scope.md R7). -/
def State.geometry (s : State) : Geometry :=
  { nSm := s.sm.length
    apm := s.apm.map Apm.rows
    mix := s.mix.map Mixer.geometry
    bh := s.bh.map fun u => (u.b, u.ns)
    cm := s.cm.map fun u => (u.ctxs.length, u.e)
    rcm := s.rcm.map RunMap.ns
    sscm := s.sscm.map Sscm.ne }

/-- A soft reset (R134): every piece of state takes its reset value, a command in progress is abandoned, the
configuration stays. What the host does next and has read is no state of the block (log 18). One step (log 17). -/
def State.softReset (s : State) : State :=
  { State.fresh s.cfg s.geometry with host := s.host, busOut := s.busOut }

/-- A write to CMD (30_encoding.md R52; R138): the word is stored; it starts a command, which reads its operands now,
or is refused with E_BUSY while one is in progress. -/
def State.writeCmd (s : State) (w : Word) : State :=
  if s.busy then { s.raise .busy w with cmd := w }
  else { s with cmd := w, busy := true, latch := { word := w, a0 := s.arg0, a1 := s.arg1, a2 := s.arg2 } }

/-- A write to CTRL (10_state.md R19): bit 0 resets, bit 1 clears the error record. -/
def State.writeCtrl (s : State) (w : Word) : State :=
  if w.getLsbD 0 then s.softReset else if w.getLsbD 1 then s.clearErr else s

/-- An accepted write at a register offset (R14, R40): every offset not listed ignores it. -/
def State.writeReg (s : State) (off : Nat) (w : Word) : State :=
  match off with
  | 0x00 => s.writeCmd w
  | 0x04 => { s with arg0 := w }
  | 0x08 => { s with arg1 := w }
  | 0x0C => { s with arg2 := w }
  | 0x20 => s.writeCtrl w
  | _ => s

/-- What an accepted read at a register offset returns (R14): CTRL and the reserved offsets read 0. -/
def State.readReg (s : State) (off : Nat) : Word :=
  match off with
  | 0x00 => s.cmd
  | 0x04 => s.arg0
  | 0x08 => s.arg1
  | 0x0C => s.arg2
  | 0x10 => s.res0
  | 0x14 => s.res1
  | 0x18 => s.statusWord
  | 0x1C => s.errCmdWord
  | 0x24 => s.g.prWord
  | 0x28 => s.g.word
  | 0x2C => s.g.pos
  | 0x30 => s.g.c4
  | 0x34 => idWord
  | _ => 0

/-- The offset of a system address in the window of 64 bytes at BLOCK_BASE; the block does not see any other address
(20_memory.md R41). -/
def windowOffset (base addr : Nat) : Option Nat :=
  if base ≤ addr ∧ addr < base + 64 then some (addr - base) else none

/-- Whether an access is accepted: 32 bits wide at a multiple of 4 (20_memory.md R40). -/
def accessOk (off width : Nat) : Bool := width == 32 && off % 4 == 0

/-- One host access (20_memory.md R40). A bus error has no effect but the error record; a refused read returns 0. -/
def State.access (s : State) : Access → State
  | .write addr width v =>
    match windowOffset s.cfg.blockBase addr with
    | none => s
    | some off => if accessOk off width then s.writeReg off v else s.raise .bus (BitVec.ofNat 32 off)
  | .read addr width =>
    match windowOffset s.cfg.blockBase addr with
    | none => s
    | some off =>
      if accessOk off width then { s with busOut := s.readReg off }
      else { s.raise .bus (BitVec.ofNat 32 off) with busOut := 0 }

/-- Whether the next host access arrives while a command in progress is still being performed (log 2). -/
def State.hostIsEarly (s : State) : Bool :=
  match s.host with
  | [] => false
  | a :: _ => a.whileBusy

/-- The next host access is performed; with none to come the block waits (70_reset_and_hazards.md R136). -/
def State.hostStep (s : State) : State :=
  match s.host with
  | [] => s
  | a :: rest => State.access { s with host := rest } a.access

end Sys2Proof.Machine
end

