-- ==== Sys2Proof/Machine/MixerUnit.lean ====
section
/-! DEFINITION. The Mixer (43_mixer.md R86 to R95). The functions act on a stage, the second stage included. -/

namespace Sys2Proof.Machine

/-- `N = ceil(n/8)*8` (10_state.md R31). -/
def Stage.cap (u : Stage) : Nat := (u.n + 7) / 8 * 8

/-- The initial weight of every cell of `wx`. -/
def Stage.weightInit (u : Stage) : Nat → BitVec 16 := fun _ => u.w0

/-- Input `k`, signed. -/
def Stage.input (u : Stage) (k : Nat) : Int := (u.tx.read zeros k).toInt

/-- Weight `k` of row `r`, signed. -/
def Stage.weight (u : Stage) (r k : Nat) : Int := (u.wx.read u.weightInit (r * u.cap + k)).toInt

/-- Selected row `i`. -/
def Stage.row (u : Stage) (i : Nat) : Nat := u.cxt.getD i 0

/-- `add(U, x)` (R89). -/
def Stage.add (u : Stage) (x : Int) : Stage :=
  { u with tx := u.tx.write zeros u.nx (BitVec.ofInt 16 x), nx := u.nx + 1 }

/-- At most `k` rounds of the padding loop. -/
def Stage.padLoop : Nat → Stage → Stage
  | 0, u => u
  | k + 1, u => if u.nx % 8 = 0 then u else Stage.padLoop k (u.add 0)

/-- `pad(U)` (R86): append zeros while `nx mod 8 != 0`. -/
def Stage.pad (u : Stage) : Stage := Stage.padLoop 8 u

/-- Pair `j` of the dot product with row `r`: two products summed in 32 bits (R87). -/
def Stage.pairTerm (u : Stage) (r j : Nat) : Int :=
  wraps32 (u.input (2 * j) * u.weight r (2 * j) + u.input (2 * j + 1) * u.weight r (2 * j + 1))

/-- The accumulator after the first `k` pairs (R87). -/
def Stage.dotPairs (u : Stage) (r : Nat) : Nat → Int
  | 0 => 0
  | k + 1 => wraps32 (Stage.dotPairs u r k + shr (u.pairTerm r k) 8)

/-- `dot(U, r)` (R87). -/
def Stage.dot (u : Stage) (r : Nat) : Int := u.dotPairs r (u.nx / 2)

/-- The training error of a prediction: `((y << 12) - pr) * 7` (R88). -/
def trainErr (y : BitVec 1) (pr : BitVec 12) : Int := ((bitVal y : Int) * 4096 - (pr.toNat : Int)) * 7

/-- One weight after training: `clamp16(w + ((((x * err) >> 14) + 1) >> 1))` (R88). -/
def weightStep (w x err : Int) : Int := clamp16 (w + shr (shr (x * err) 14 + 1) 1)

/-- The weights after the first `k` weights of row `r` are trained with `err` (R88). -/
def Stage.trainRow (u : Stage) (r : Nat) (err : Int) : Nat → Memory 16 → Memory 16
  | 0, wx => wx
  | k + 1, wx =>
    let wx' := Stage.trainRow u r err k wx
    wx'.write u.weightInit (r * u.cap + k)
      (BitVec.ofInt 16 (weightStep (wx'.read u.weightInit (r * u.cap + k)).toInt (u.input k) err))

/-- The weights after the first `i` selected rows are trained, in the order of selection (R88). -/
def Stage.trainRows (u : Stage) (y : BitVec 1) : Nat → Memory 16 → Memory 16
  | 0, wx => wx
  | i + 1, wx => u.trainRow (u.row i) (trainErr y (u.pr.getD i 0)) u.nx (Stage.trainRows u y i wx)

/-- `train(U)` (R88). -/
def Stage.train (y : BitVec 1) (u : Stage) : Stage :=
  let v := u.pad
  { v with wx := v.trainRows y v.ncxt v.wx, nx := 0, base := 0, ncxt := 0 }

/-- `set(U, cx, range)` (R90). -/
def Stage.select (u : Stage) (cx range : Nat) : Stage :=
  { u with cxt := u.cxt.set u.ncxt (u.base + cx), ncxt := u.ncxt + 1, base := u.base + range }

/-- `p(U)` of a stage with `S = 1` (R91). -/
def Stage.predict (c : Config) (u : Stage) : Stage × BitVec 12 :=
  let v := u.pad
  let p := squash c (shr (v.dot (v.row 0)) 8)
  ({ v with pr := v.pr.set 0 p }, p)

/-- The first-stage predictions and the child after the first `k` selected rows are evaluated (R91). -/
def Stage.firstStage (c : Config) (u : Stage) (child : Stage) : Nat → List (BitVec 12) × Stage
  | 0 => (u.pr, child)
  | i + 1 =>
    let r := Stage.firstStage c u child i
    let p := squash c (shr (u.dot (u.row i)) 5)
    (r.1.set i p, r.2.add (stretch c p))

/-- `p(U)` of a Mixer unit (R91): with a child, the child is trained first and gives the result. -/
def Mixer.predict (c : Config) (y : BitVec 1) (m : Mixer) : Mixer × BitVec 12 :=
  match m.child with
  | none =>
    let r := m.own.predict c
    ({ own := r.1, child := none }, r.2)
  | some child =>
    let u := m.own.pad
    let r := u.firstStage c (child.train y) u.ncxt
    let q := (r.2.select 0 1).predict c
    ({ own := { u with pr := r.1 }, child := some q.1 }, q.2)

/-- A Mixer unit with its own stage replaced. -/
def Mixer.setOwn (m : Mixer) (u : Stage) : Mixer := { m with own := u }

/-- MIX_UPDATE (R92). -/
def execMixUpdate (unit : BitVec 8) (s : State) : Result :=
  match s.mix[unit.toNat]? with
  | none => .next (s.refuse .badUnit)
  | some m => .next (s.setMix unit.toNat (m.setOwn (m.own.train s.g.y)))

/-- MIX_ADD (R93). -/
def execMixAdd (unit : BitVec 8) (s : State) : Result :=
  match s.mix[unit.toNat]? with
  | none => .next (s.refuse .badUnit)
  | some m =>
    if s.op0s < -32768 ∨ s.op0s > 32767 then .next (s.refuse .argRange)
    else if m.own.nx ≥ m.own.cap then .next (s.refuse .mixAddFull)
    else .next (s.setMix unit.toNat (m.setOwn (m.own.add s.op0s)))

/-- MIX_SET (R94); `base + range` is not wrapped. -/
def execMixSet (unit : BitVec 8) (s : State) : Result :=
  match s.mix[unit.toNat]? with
  | none => .next (s.refuse .badUnit)
  | some m =>
    if m.own.ncxt ≥ m.own.s then .next (s.refuse .mixSetFull)
    else if s.op1 = 0 ∨ s.op0 ≥ s.op1 ∨ m.own.base + s.op1 > m.own.m then .next (s.refuse .mixSetRange)
    else .next (s.setMix unit.toNat (m.setOwn (m.own.select s.op0 s.op1)))

/-- MIX_P (R95). -/
def execMixP (unit : BitVec 8) (s : State) : Result :=
  match s.mix[unit.toNat]? with
  | none => .next (s.refuse .badUnit)
  | some m =>
    let r := m.predict s.cfg s.g.y
    .next ((s.setMix unit.toNat r.1).setRes0 (r.2.setWidth 32))

end Sys2Proof.Machine
end

