-- ==== Sys2Proof/Machine/StateMapApm.lean ====
section
/-! DEFINITION. StateMap and APM (42_statemap_apm.md R80 to R85). Both train the entry of the previous call first. -/

namespace Sys2Proof.Machine

/-- Entry `a` of a StateMap. -/
def StateMap.entry (c : Config) (u : StateMap) (a : Nat) : BitVec 16 := u.t.read (smInit c) a

/-- A StateMap entry trained toward `y` (R81): `v + (((y << 16) - v + 128) >> 8)`. -/
def smTrain (y : BitVec 1) (v : BitVec 16) : BitVec 16 :=
  BitVec.ofInt 16 ((v.toNat : Int) + shr ((bitVal y : Int) * 65536 - (v.toNat : Int) + 128) 8)

/-- `sm_p(U, cx)` (R81). -/
def smP (c : Config) (y : BitVec 1) (u : StateMap) (cx : Byte) : StateMap × BitVec 12 :=
  let u' : StateMap :=
    { t := u.t.write (smInit c) u.prev.toNat (smTrain y (u.entry c u.prev.toNat)), prev := cx }
  (u', (u'.entry c cx.toNat >>> 4).setWidth 12)

/-- SM_P (R82). -/
def execSmP (unit : BitVec 8) (s : State) : Result :=
  match s.sm[unit.toNat]? with
  | none => .next (s.refuse .badUnit)
  | some u =>
    if s.op0 > 255 then .next (s.refuse .argRange)
    else
      let r := smP s.cfg s.g.y u (s.latch.a0.setWidth 8)
      .next ((s.setSm unit.toNat r.1).setRes0 (r.2.setWidth 32))

/-- Entry `a` of an APM. -/
def Apm.entry (c : Config) (u : Apm) (a : Nat) : BitVec 16 := u.t.read (apmInit c) a

/-- An APM entry trained toward `g = (y << 16) + (y << rate) - 2*y` (R84): `v + ((g - v) >> rate)`. -/
def apmTrain (y : BitVec 1) (rate : Nat) (v : BitVec 16) : BitVec 16 :=
  let g : Int := (bitVal y : Int) * 65536 + (bitVal y : Int) * ((2 ^ rate : Nat) : Int) - 2 * (bitVal y : Int)
  BitVec.ofInt 16 ((v.toNat : Int) + shr (g - (v.toNat : Int)) rate)

/-- The APM with its entry `a` trained. -/
def Apm.trainAt (c : Config) (y : BitVec 1) (rate : Nat) (u : Apm) (a : Nat) : Apm :=
  { u with t := u.t.write (apmInit c) a (apmTrain y rate (u.entry c a)) }

/-- The new anchor: `((d + 2048) >> 7) + cx * 33` (R84). -/
def apmAnchor (d : Int) (cx : Nat) : Nat := (shr (d + 2048) 7).toNat + cx * 33

/-- The interpolation weight `d & 127` (R84). -/
def apmWeight (d : Int) : Nat := (d % 128).toNat

/-- `apm_p(U, pr_in, cx, rate)` (R84). -/
def apmP (c : Config) (y : BitVec 1) (u : Apm) (prIn : BitVec 12) (cx rate : Nat) : Apm × BitVec 12 :=
  let d := stretch c prIn
  let u' := (u.trainAt c y rate u.index).trainAt c y rate (u.index + 1)
  let w := apmWeight d
  let k := apmAnchor d cx
  let v := ((u'.entry c k).toNat * (128 - w) + (u'.entry c (k + 1)).toNat * w) / 2 ^ 11
  ({ u' with index := k }, BitVec.ofNat 12 v)

/-- APM_P (R85). -/
def execApmP (unit rate : BitVec 8) (s : State) : Result :=
  match s.apm[unit.toNat]? with
  | none => .next (s.refuse .badUnit)
  | some u =>
    if rate.toNat = 0 ∨ rate.toNat > 15 ∨ s.op0 > 4095 ∨ s.op1 ≥ u.rows then .next (s.refuse .argRange)
    else
      let r := apmP s.cfg s.g.y u (s.latch.a0.setWidth 12) s.op1 rate.toNat
      .next ((s.setApm unit.toNat r.1).setRes0 (r.2.setWidth 32))

end Sys2Proof.Machine
end

