-- ==== Sys2Proof/Machine/TablesFsm.lean ====
section
/-! DEFINITION. The table, FSM and generator commands (41_tables_fsm.md R70 to R79). -/

namespace Sys2Proof.Machine

/-- Word `k` of the generator's ring. -/
def Generator.word (r : Generator) (k : BitVec 6) : Word := r.t.getD k.toNat 0

/-- `rng_next()` (R71): advance the index, write the new word there, return it. Index arithmetic is modulo 64. -/
def rngNext (r : Generator) : Generator × Word :=
  let i := r.i + 1
  let x := r.word (i - 24) ^^^ r.word (i - 55)
  (⟨r.t.set i.toNat x, i⟩, x)

/-- `fsm_step(s, b)` (R72): the successor state, decremented by 4 with a draw when it is 204 or above. -/
def fsmStep (c : Config) (r : Generator) (s : Byte) (b : BitVec 1) : Generator × Byte :=
  let ns := nex c s b
  if 204 ≤ ns.toNat then
    let d := rngNext r
    if d.2 <<< ((452 - ns.toNat) / 8) ≠ 0 then (d.1, ns - 4) else (d.1, ns)
  else (r, ns)

/-- SQUASH (R73). -/
def execSquash (s : State) : Result := .next (s.setRes0 ((squash s.cfg s.op0s).setWidth 32))

/-- STRETCH (R74). -/
def execStretch (s : State) : Result :=
  if s.op0 > 4095 then .next (s.refuse .argRange)
  else .next (s.setRes0 (BitVec.ofInt 32 (stretch s.cfg (s.latch.a0.setWidth 12))))

/-- ILOG (R75). -/
def execIlog (s : State) : Result :=
  if s.op0 > 65535 then .next (s.refuse .argRange)
  else .next (s.setRes0 (BitVec.ofNat 32 (ilog s.op0)))

/-- FSM_NEXT (R76). -/
def execFsmNext (b : BitVec 1) (s : State) : Result :=
  if s.op0 > 252 then .next (s.refuse .argRange)
  else .next (s.setRes0 ((nex s.cfg (s.latch.a0.setWidth 8) b).setWidth 32))

/-- FSM_COUNTS (R77). -/
def execFsmCounts (s : State) : Result :=
  if s.op0 > 252 then .next (s.refuse .argRange)
  else
    .next (s.setRes ((n0 s.cfg (s.latch.a0.setWidth 8)).setWidth 32) ((n1 s.cfg (s.latch.a0.setWidth 8)).setWidth 32))

/-- FSM_NEXTP (R78). -/
def execFsmNextp (b : BitVec 1) (s : State) : Result :=
  if s.op0 > 252 then .next (s.refuse .argRange)
  else
    let r := fsmStep s.cfg s.rng (s.latch.a0.setWidth 8) b
    .next ((s.setRng r.1).setRes0 (r.2.setWidth 32))

/-- RNG_NEXT (R79). -/
def execRngNext (s : State) : Result :=
  let r := rngNext s.rng
  .next ((s.setRng r.1).setRes0 r.2)

end Sys2Proof.Machine
end

