-- ==== Sys2Proof/Machine/ContextMapUnit.lean ====
section
/-! DEFINITION. The ContextMap (45_contextmap.md R101 to R109), with the run record and score it shares with the
RunContextMap (R105, R106). Addresses are byte offsets in `tab` (20_memory.md R44). -/

namespace Sys2Proof.Machine

/-- The address of cell 0 of slot `k` of bucket `b` (20_memory.md R44). -/
def cmCell (b k : Nat) : Nat := 64 * b + 15 + 7 * k

/-- The address of the MRU byte of bucket `b` (20_memory.md R44). -/
def cmLast (b : Nat) : Nat := 64 * b + 14

/-- The checksum of slot `k` of bucket `b` (20_memory.md R44). -/
def cmCheck (tab : Memory 8) (b k : Nat) : BitVec 16 := read16 tab (64 * b + 2 * k)

/-- The scan of R101 over the slots `ks`: `.inl k` is a match in slot `k`, `.inr k` the slot to replace. -/
def cmScan (tab : Memory 8) (b : Nat) (ch : BitVec 16) (last : Nat) : List Nat → Nat → Nat → Nat ⊕ Nat
  | [], _, bi => .inr bi
  | k :: ks, best, bi =>
    if cmCheck tab b k = ch then .inl k
    else
      let pri := (byteAt tab (cmCell b k)).toNat
      if k ≠ last % 16 ∧ k ≠ last / 16 ∧ pri < best then cmScan tab b ch last ks pri k
      else cmScan tab b ch last ks best bi

/-- Slot `k` of bucket `b` claimed for checksum `ch`: MRU byte, checksum and seven empty cells (R101). -/
def cmClaim (tab : Memory 8) (b k : Nat) (ch : BitVec 16) : Memory 8 :=
  let t1 := putByte tab (cmLast b) (BitVec.ofNat 8 (0xF0 ||| k))
  let t2 := write16 t1 (64 * b + 2 * k) ch
  writeBytes t2 (cmCell b k) (List.replicate 7 0)

/-- `get(U, b, ch)` (R101): the table after it and the address of cell 0 of the slot found or claimed. -/
def cmGet (tab : Memory 8) (b : Nat) (ch : BitVec 16) : Memory 8 × Nat :=
  let last := (byteAt tab (cmLast b)).toNat
  if cmCheck tab b (last % 16) = ch then (tab, cmCell b (last % 16))
  else
    match cmScan tab b ch last [0, 1, 2, 3, 4, 5, 6] 0xFFFF 0 with
    | .inl k => (putByte tab (cmLast b) (BitVec.ofNat 8 ((last * 16 ||| k) % 256)), cmCell b k)
    | .inr k => (cmClaim tab b k ch, cmCell b k)

/-- `perm(cx, i)` (R102). -/
def cmPerm (cx : Word) (i : Nat) : Word :=
  let v := cx * 987654323 + BitVec.ofNat 32 i
  let r := v <<< 16 ||| v >>> 16
  r * 123456791 + BitVec.ofNat 32 i

/-- The bucket of a context at offset `x` of its hash: `(cxt + x) & (E - 1)` (R103, R104). -/
def cmBucket (e : Nat) (cxt : Word) (x : Nat) : Nat := (cxt.toNat + x) &&& (e - 1)

/-- The checksum of a context: the top 16 bits of its hash (R103). -/
def cmTag (cxt : Word) : BitVec 16 := cxt.extractLsb' 16 16

/-- The three cells on the path of the three bits `x2 x1 x0` (the low three bits of `x`) in the slot at `p`, each set to
`1 + bit` (R104). -/
def cmSeed (tab : Memory 8) (p x : Nat) : Memory 8 :=
  let b2 := x / 4 % 2
  let b1 := x / 2 % 2
  let b0 := x % 2
  let t1 := putByte tab p (BitVec.ofNat 8 (1 + b2))
  let t2 := putByte t1 (p + 1 + b2) (BitVec.ofNat 8 (1 + b1))
  putByte t2 (p + 3 + (2 * b2 + b1)) (BitVec.ofNat 8 (1 + b0))

/-- `pending(U, i)` (R104) for a context with hash `cxt` and slot `cp0`. -/
def cmPending (e : Nat) (tab : Memory 8) (cxt : Word) (cp0 : Nat) : Memory 8 :=
  let c := (byteAt tab (cp0 + 4)).toNat + 256
  let r1 := cmGet tab (cmBucket e cxt (c / 64)) (cmTag cxt)
  let t1 := cmSeed r1.1 r1.2 (c / 8 % 8)
  let r2 := cmGet t1 (cmBucket e cxt (c / 8)) (cmTag cxt)
  let t2 := cmSeed r2.1 r2.2 (c % 8)
  putByte t2 (cp0 + 6) 0

/-- The run record `(count_d, last_byte)` after the byte `prev` (R105). -/
def runNext (count last prev : Byte) : Byte × Byte :=
  if count = 0 then (2, prev)
  else if last ≠ prev then (1, prev)
  else if count.toNat < 254 then (count + 2, last)
  else if count = 255 then (128, last)
  else (count, last)

/-- `run_update(mem, a, prev)` (R105). -/
def runUpdate (t : Memory 8) (a : Nat) (prev : Byte) : Memory 8 :=
  let r := runNext (byteAt t a) (byteAt t (a + 1)) prev
  putByte (putByte t a r.1) (a + 1) r.2

/-- `run_score(rc, rb)` at the current `bpos` and `c0` (R106). -/
def runScore (g : GlobalContext) (rc rb : Byte) : Int :=
  if (rb.toNat + 256) / 2 ^ (8 - g.bpos.toNat) = g.c0.toNat then
    let sign : Int := ((rb.toNat / 2 ^ (7 - g.bpos.toNat) % 2 : Nat) : Int) * 2 - 1
    sign * ((ilog (rc.toNat + 1) * 2 ^ (2 + (1 - rc.toNat % 2)) : Nat) : Int)
  else 0

/-- The five inputs of `mix2` from the prediction `p` of state `s` (R107). -/
def mix2Inputs (c : Config) (s : Byte) (p : BitVec 12) : List Int :=
  let st := shr (stretch c p) 2
  let p1 : Int := ((p.toNat / 16 : Nat) : Int)
  let p0 : Int := 255 - p1
  let z0 := n0 c s = 0
  let z1 := n1 c s = 0
  [ st
  , p1 - p0
  , st * (-((indicator (n1 c s != 0) : Nat) : Int)) - st * (-((indicator (n0 c s != 0) : Nat) : Int))
  , (if z0 then p1 else 0) - (if z1 then p0 else 0)
  , (if z1 then p1 else 0) - (if z0 then p0 else 0) ]

/-- Append inputs to a stage, in order (R89). -/
def Stage.addAll (u : Stage) : List Int → Stage
  | [] => u
  | x :: xs => Stage.addAll (u.add x) xs

/-- `mix2(X, s, sm)` (R107): the mixer stage, the StateMap and `[s != 0]`. -/
def mix2 (c : Config) (y : BitVec 1) (x : Stage) (s : Byte) (sm : StateMap) : Stage × StateMap × Nat :=
  let r := smP c y sm s
  (x.addAll (mix2Inputs c s r.2), r.1, indicator (s != 0))

/-- Step 1 of CM_MIX (R109): the cell of the previous bit is updated by `y`. -/
def cmUpdateCell (c : Config) (y : BitVec 1) (rng : Generator) (tab : Memory 8) (k : CmContext) :
    Generator × Memory 8 :=
  match k.cp with
  | none => (rng, tab)
  | some a =>
    let r := fsmStep c rng (byteAt tab a) y
    (r.1, putByte tab a r.2)

/-- The lookup of step 2 of CM_MIX at bit positions 0, 2 and 5 (R109). -/
def cmLookup (g : GlobalContext) (e : Nat) (tab : Memory 8) (k : CmContext) : Memory 8 × CmContext :=
  let r := cmGet tab (cmBucket e k.cxt g.c0.toNat) (cmTag k.cxt)
  let k1 : CmContext := { k with cp0 := r.2, cp := some r.2 }
  if g.bpos = 0 then
    let t1 := if byteAt r.1 (r.2 + 3) = 2 then cmPending e r.1 k.cxt r.2 else r.1
    (runUpdate t1 k.runp (g.bufBack 1), { k1 with runp := r.2 + 3 })
  else (r.1, k1)

/-- Step 2 of CM_MIX (R109): where the pointers of a context move. -/
def cmAdvance (g : GlobalContext) (e : Nat) (tab : Memory 8) (k : CmContext) : Memory 8 × CmContext :=
  if g.bpos.toNat > 1 ∧ byteAt tab k.runp = 0 then (tab, { k with cp := none })
  else if g.bpos = 1 ∨ g.bpos = 3 ∨ g.bpos = 6 then (tab, { k with cp := some (k.cp0 + 1 + g.c0.toNat % 2) })
  else if g.bpos = 4 ∨ g.bpos = 7 then (tab, { k with cp := some (k.cp0 + 3 + g.c0.toNat % 4) })
  else cmLookup g e tab k

/-- The state a pointer gives to `mix2`: that of its cell, or 0 for `NULL` (R109 step 4). -/
def cmState (tab : Memory 8) (cp : Option Nat) : Byte :=
  match cp with
  | none => 0
  | some a => byteAt tab a

/-- What the loop of CM_MIX carries from one context to the next: generator, table, mixer stage and count. -/
structure CmCarry where
  rng : Generator
  tab : Memory 8
  x : Stage
  res : Nat
deriving DecidableEq, Repr

/-- One round of the loop of CM_MIX (R109). -/
def cmMixContext (c : Config) (g : GlobalContext) (e : Nat) (q : CmCarry) (k : CmContext) : CmCarry × CmContext :=
  let u := cmUpdateCell c g.y q.rng q.tab k
  let v := cmAdvance g e u.2 k
  let x1 := q.x.add (runScore g (byteAt v.1 v.2.runp) (byteAt v.1 (v.2.runp + 1)))
  let m := mix2 c g.y x1 (cmState v.1 v.2.cp) v.2.sm
  ({ rng := u.1, tab := v.1, x := m.1, res := q.res + m.2.2 }, { v.2 with sm := m.2.1 })

/-- The loop of CM_MIX over the contexts, in order (R109). -/
def cmMixLoop (c : Config) (g : GlobalContext) (e : Nat) : CmCarry → List CmContext → CmCarry × List CmContext
  | q, [] => (q, [])
  | q, k :: ks =>
    let r := cmMixContext c g e q k
    let rest := cmMixLoop c g e r.1 ks
    (rest.1, r.2 :: rest.2)

/-- The ContextMap with context slot `i` given a new hash. -/
def ContextMap.setContext (u : ContextMap) (i : Nat) (cxt : Word) : ContextMap :=
  { u with ctxs := u.ctxs.modify i fun k => { k with cxt := cxt } }

/-- CM_SET (R108). -/
def execCmSet (unit : BitVec 8) (s : State) : Result :=
  match s.cm[unit.toNat]? with
  | none => .next (s.refuse .badUnit)
  | some u =>
    if u.cn ≥ u.ctxs.length then .next (s.refuse .cmSetFull)
    else .next (s.setCm unit.toNat { u.setContext u.cn (cmPerm s.latch.a0 u.cn) with cn := u.cn + 1 })

/-- CM_MIX (R109). -/
def execCmMix (unit mixu : BitVec 8) (s : State) : Result :=
  match s.cm[unit.toNat]? with
  | none => .next (s.refuse .badUnit)
  | some u =>
    match s.mix[mixu.toNat]? with
    | none => .next (s.refuse .badMixu)
    | some m =>
      if m.own.nx + 6 * u.ctxs.length > m.own.cap then .next (s.refuse .mixAddFull)
      else
        let r := cmMixLoop s.cfg s.g u.e { rng := s.rng, tab := u.tab, x := m.own, res := 0 } u.ctxs
        let cn := if s.g.bpos = 7 then 0 else u.cn
        .next ((((s.setCm unit.toNat { u with tab := r.1.tab, cn := cn, ctxs := r.2 }).setMix mixu.toNat
          (m.setOwn r.1.x)).setRng r.1.rng).setRes0 (BitVec.ofNat 32 r.1.res))

end Sys2Proof.Machine
end

