-- ==== Sys2Proof/Machine/HashBh.lean ====
section
/-! DEFINITION. The `BH<B>` hash bucket engine (44_hash_bh.md R96 to R100). The functions act on the bytes of a table
with slots of `b` bytes (20_memory.md R43), so that the RunContextMap shares them. -/

namespace Sys2Proof.Machine

/-- The checksum of a hash: `((h >> 16) ^ h) & 0xFFFF` (R96). -/
def bhCheck (h : Word) : BitVec 16 := ((h >>> 16) ^^^ h).setWidth 16

/-- The front slot of the bucket of a hash: `wrap32(h * 8) & (NS - 1)` (R96). -/
def bhFront (ns : Nat) (h : Word) : Nat := (h * 8).toNat &&& (ns - 1)

/-- The scan of R96 from position `j` on: an empty slot is claimed, a matching slot ends the scan. The second
component is the position of the match, or 8. -/
def bhScan (b i : Nat) (chk : BitVec 16) : Nat → Nat → Memory 8 → Memory 8 × Nat
  | 0, j, t => (t, j)
  | n + 1, j, t =>
    let a := (i + j) * b
    let t' := if byteAt t (a + 2) = 0 then write16 t a chk else t
    if read16 t' a = chk then (t', j) else bhScan b i chk n (j + 1) t'

/-- The slots `i .. i + v - 1` moved up by one, the highest first (R96). -/
def bhShift (b i : Nat) : Nat → Memory 8 → Memory 8
  | 0, t => t
  | q + 1, t => bhShift b i q (writeBytes t ((i + q + 1) * b) (readBytes t ((i + q) * b) b))

/-- The slot evicted from a full bucket: slot 7, unless slot 6 has the smaller priority (R96). -/
def bhVictim (b i : Nat) (t : Memory 8) : Nat :=
  if byteAt t ((i + 7) * b + 2) > byteAt t ((i + 6) * b + 2) then 6 else 7

/-- A new slot: the checksum, then zeros (R96). -/
def bhNewSlot (b : Nat) (chk : BitVec 16) : List Byte :=
  chk.extractLsb' 0 8 :: chk.extractLsb' 8 8 :: List.replicate (b - 2) 0

/-- `bh_lookup(T, h)` (R96): the table after it, the front slot index and the match position (8 after an eviction). -/
def bhLookup (b ns : Nat) (t : Memory 8) (h : Word) : Memory 8 × Nat × Nat :=
  let chk := bhCheck h
  let i := bhFront ns h
  let r := bhScan b i chk 8 0 t
  let t1 := r.1
  let j := r.2
  if j = 0 then (t1, i, 0)
  else if j = 8 then (writeBytes (bhShift b i (bhVictim b i t1) t1) (i * b) (bhNewSlot b chk), i, 8)
  else (writeBytes (bhShift b i j t1) (i * b) (readBytes t1 ((i + j) * b) b), i, j)

/-- BH_LOOKUP (R98). -/
def execBhLookup (unit : BitVec 8) (s : State) : Result :=
  match s.bh[unit.toNat]? with
  | none => .next (s.refuse .badUnit)
  | some u =>
    let r := bhLookup u.b u.ns u.t s.latch.a0
    .next ((s.setBh unit.toNat { u with t := r.1 }).setRes (BitVec.ofNat 32 r.2.1) (BitVec.ofNat 32 r.2.2))

/-- BH_RD (R99). -/
def execBhRd (unit : BitVec 8) (s : State) : Result :=
  match s.bh[unit.toNat]? with
  | none => .next (s.refuse .badUnit)
  | some u =>
    if s.op0 ≥ u.ns ∨ s.op1 ≥ u.b then .next (s.refuse .argRange)
    else .next (s.setRes0 ((byteAt u.t (s.op0 * u.b + s.op1)).setWidth 32))

/-- BH_WR (R100); the checksum bytes cannot be written. -/
def execBhWr (unit : BitVec 8) (s : State) : Result :=
  match s.bh[unit.toNat]? with
  | none => .next (s.refuse .badUnit)
  | some u =>
    if s.op0 ≥ u.ns ∨ s.op1 < 2 ∨ s.op1 ≥ u.b ∨ s.op2 > 255 then .next (s.refuse .argRange)
    else .next (s.setBh unit.toNat { u with t := putByte u.t (s.op0 * u.b + s.op1) (s.latch.a2.setWidth 8) })

end Sys2Proof.Machine
end

