-- ==== Sys2Proof/Machine/RunSscm.lean ====
section
/-! DEFINITION. RunContextMap and SmallStationaryContextMap (46_run_sscm.md R110 to R114). -/

namespace Sys2Proof.Machine

/-- The address of the run record of slot `q`: slot byte 2 is `count_d`, byte 3 `last_byte` (R110). -/
def rcmRecord (q : Nat) : Nat := 4 * q + 2

/-- RCM_SET (R111): the run of the previous context advances, then the unit is rekeyed. -/
def execRcmSet (unit : BitVec 8) (s : State) : Result :=
  match s.rcm[unit.toNat]? with
  | none => .next (s.refuse .badUnit)
  | some u =>
    let t1 := runUpdate u.t (rcmRecord u.cp) (s.g.bufBack 1)
    let r := bhLookup 4 u.ns t1 s.latch.a0
    .next (s.setRcm unit.toNat { u with t := r.1, cp := r.2.1 })

/-- RCM_MIX (R112). -/
def execRcmMix (unit mixu : BitVec 8) (s : State) : Result :=
  match s.rcm[unit.toNat]? with
  | none => .next (s.refuse .badUnit)
  | some u =>
    match s.mix[mixu.toNat]? with
    | none => .next (s.refuse .badMixu)
    | some m =>
      if m.own.nx ≥ m.own.cap then .next (s.refuse .mixAddFull)
      else
        let rc := byteAt u.t (rcmRecord u.cp)
        let rb := byteAt u.t (rcmRecord u.cp + 1)
        .next ((s.setMix mixu.toNat (m.setOwn (m.own.add (runScore s.g rc rb)))).setRes0
          (BitVec.ofNat 32 (indicator (rc != 0))))

/-- Entry `a` of an SSCM. -/
def Sscm.entry (u : Sscm) (a : Nat) : BitVec 16 := u.t.read sscmInit a

/-- An SSCM entry trained toward `y` (R114): `v + (((y << 16) - v + (1 << (rate - 1))) >> rate)`. -/
def sscmTrain (y : BitVec 1) (rate : Nat) (v : BitVec 16) : BitVec 16 :=
  BitVec.ofInt 16 ((v.toNat : Int) +
    shr ((bitVal y : Int) * 65536 - (v.toNat : Int) + ((2 ^ (rate - 1) : Nat) : Int)) rate)

/-- SSCM_SET (R113): `wrap32(cx * 256) & (NE - 256)`. -/
def execSscmSet (unit : BitVec 8) (s : State) : Result :=
  match s.sscm[unit.toNat]? with
  | none => .next (s.refuse .badUnit)
  | some u => .next (s.setSscm unit.toNat { u with cxt := (s.latch.a0 * 256).toNat &&& (u.ne - 256) })

/-- SSCM_MIX (R114). -/
def execSscmMix (unit mixu rate : BitVec 8) (s : State) : Result :=
  match s.sscm[unit.toNat]? with
  | none => .next (s.refuse .badUnit)
  | some u =>
    match s.mix[mixu.toNat]? with
    | none => .next (s.refuse .badMixu)
    | some m =>
      if rate.toNat < 2 ∨ rate.toNat > 15 then .next (s.refuse .argRange)
      else if m.own.nx ≥ m.own.cap then .next (s.refuse .mixAddFull)
      else
        let u' : Sscm :=
          { u with t := u.t.write sscmInit u.cp (sscmTrain s.g.y rate.toNat (u.entry u.cp)), cp := u.cxt + s.g.c0.toNat }
        let x := stretch s.cfg ((u'.entry u'.cp >>> 4).setWidth 12)
        .next (((s.setSscm unit.toNat u').setMix mixu.toNat (m.setOwn (m.own.add x))).setRes0 0)

end Sys2Proof.Machine
end

