-- ==== Sys2Proof/Machine/Debug.lean ====
section
/-! DEFINITION. DBG_RD (40_global_context.md R65): one function per memory class of 20_memory.md R51. A class answers
the two results or the error, in the order E_BAD_UNIT, E_BAD_MIXU, E_ARG_RANGE. -/

namespace Sys2Proof.Machine

/-- What a class of DBG_RD answers: RES0 and RES1, or an error. -/
abbrev DbgAnswer := Except ErrCode (Word × Word)

/-- A value if the index is in its column, else E_ARG_RANGE. -/
def dbgInRange (ok : Bool) (v w : Word) : DbgAnswer := if ok then .ok (v, w) else .error .argRange

/-- A class with no unit: UNIT must be 0 (R51). -/
def dbgNoUnit (unit : BitVec 8) (r : DbgAnswer) : DbgAnswer := if unit = 0 then r else .error .badUnit

/-- A class read from a unit of a list (R51). -/
def dbgUnit {α : Type} (units : List α) (unit : BitVec 8) (f : α → DbgAnswer) : DbgAnswer :=
  match units[unit.toNat]? with
  | none => .error .badUnit
  | some u => f u

/-- The mixer stage MIXU names: 0 the unit's own, 1 its child (R51). -/
def Mixer.stage (m : Mixer) (mixu : BitVec 8) : Option Stage :=
  if mixu = 0 then some m.own else if mixu = 1 then m.child else none

/-- A class read from a mixer stage (R51). -/
def dbgStage (s : State) (unit mixu : BitVec 8) (f : Stage → DbgAnswer) : DbgAnswer :=
  dbgUnit s.mix unit fun m =>
    match m.stage mixu with
    | none => .error .badMixu
    | some u => f u

/-- Class 6: `nx`, `ncxt`, `base` (R51). -/
def dbgCounter (u : Stage) (i : Nat) : DbgAnswer :=
  match i with
  | 0 => .ok (BitVec.ofNat 32 u.nx, 0)
  | 1 => .ok (BitVec.ofNat 32 u.ncxt, 0)
  | 2 => .ok (BitVec.ofNat 32 u.base, 0)
  | _ => .error .argRange

/-- A pointer of a ContextMap as a result: 0xFFFFFFFF for `NULL` (R51). -/
def pointerWord (p : Option Nat) : Word :=
  match p with
  | none => 0xFFFFFFFF
  | some a => BitVec.ofNat 32 a

/-- Class 9: the fields of one context, and `cn` (R51). -/
def dbgContext (u : ContextMap) (i j : Nat) : DbgAnswer :=
  match u.ctxs[j]? with
  | none => .error .argRange
  | some k =>
    match i with
    | 0 => .ok (k.cxt, 0)
    | 1 => .ok (BitVec.ofNat 32 k.cp0, 0)
    | 2 => .ok (pointerWord k.cp, 0)
    | 3 => .ok (BitVec.ofNat 32 k.runp, 0)
    | 4 => .ok (BitVec.ofNat 32 u.cn, 0)
    | _ => .error .argRange

/-- An entry and the last selection of a StateMap, classes 1 and 10 (R51). -/
def dbgStateMap (c : Config) (u : StateMap) (i : Nat) : DbgAnswer :=
  dbgInRange (decide (i < 256)) ((u.entry c i).setWidth 32) (u.prev.setWidth 32)

/-- Class 14: `cxt` and `cp` of an SSCM (R51). -/
def dbgSscmPointer (u : Sscm) (i : Nat) : DbgAnswer :=
  match i with
  | 0 => .ok (BitVec.ofNat 32 u.cxt, 0)
  | 1 => .ok (BitVec.ofNat 32 u.cp, 0)
  | _ => .error .argRange

/-- What DBG_RD answers (R51): `i` and `j` are ARG0 and ARG1. DEDUCED: an integer is cut to 32 bits (log 23). -/
def dbgRead (s : State) (cls : DbgClass) (unit mixu : BitVec 8) : DbgAnswer :=
  let i := s.op0
  let j := s.op1
  match cls with
  | .buf => dbgNoUnit unit (dbgInRange (decide (i < 2 ^ bufLog2)) ((byteAt s.g.buf i).setWidth 32) 0)
  | .smEntry => dbgUnit s.sm unit fun u => dbgStateMap s.cfg u i
  | .apmEntry => dbgUnit s.apm unit fun u =>
      dbgInRange (decide (i < 33 * u.rows)) ((u.entry s.cfg i).setWidth 32) (BitVec.ofNat 32 u.index)
  | .mixWeight => dbgStage s unit mixu fun u =>
      dbgInRange (decide (i < u.cap * u.m)) ((u.wx.read u.weightInit i).signExtend 32) 0
  | .mixInput => dbgStage s unit mixu fun u =>
      dbgInRange (decide (i < u.cap)) ((u.tx.read zeros i).signExtend 32) (BitVec.ofNat 32 u.nx)
  | .mixSelection => dbgStage s unit mixu fun u =>
      dbgInRange (decide (i < u.s)) (BitVec.ofNat 32 (u.row i)) ((u.pr.getD i 0).setWidth 32)
  | .mixCounters => dbgStage s unit mixu fun u => dbgCounter u i
  | .bhByte => dbgUnit s.bh unit fun u => dbgInRange (decide (i < u.ns * u.b)) ((byteAt u.t i).setWidth 32) 0
  | .cmByte => dbgUnit s.cm unit fun u => dbgInRange (decide (i < 64 * u.e)) ((byteAt u.tab i).setWidth 32) 0
  | .cmContext => dbgUnit s.cm unit fun u => dbgContext u i j
  | .cmStateMap => dbgUnit s.cm unit fun u =>
      match u.ctxs[j]? with
      | none => .error .argRange
      | some k => dbgStateMap s.cfg k.sm i
  | .rcmByte => dbgUnit s.rcm unit fun u => dbgInRange (decide (i < 4 * u.ns)) ((byteAt u.t i).setWidth 32) 0
  | .rcmPointer => dbgUnit s.rcm unit fun u => dbgInRange (decide (i = 0)) (BitVec.ofNat 32 u.cp) 0
  | .sscmEntry => dbgUnit s.sscm unit fun u => dbgInRange (decide (i < u.ne)) ((u.entry i).setWidth 32) 0
  | .sscmPointers => dbgUnit s.sscm unit fun u => dbgSscmPointer u i
  | .rngWord => dbgNoUnit unit
      (dbgInRange (decide (i < 64)) (s.rng.t.getD i 0) (s.rng.i.setWidth 32))

/-- DBG_RD (R65). The decoder never gives a stage to a class that has none; such a term is E_ILLEGAL_OP as its word
is. -/
def execDbgRd (cls : DbgClass) (unit mixu : BitVec 8) (s : State) : Result :=
  if cls.staged = false ∧ mixu ≠ 0 then .next (s.refuse .illegalOp)
  else
    match dbgRead s cls unit mixu with
    | .error e => .next (s.refuse e)
    | .ok r => .next (s.setRes r.1 r.2)

end Sys2Proof.Machine
end

