-- ==== Sys2Proof/Machine/Global.lean ====
section
/-! DEFINITION. NOP, BIT_BEGIN and PROB_READ (40_global_context.md R62 to R64). -/

namespace Sys2Proof.Machine

/-- The fold of bit `b` into the global bit context (R63). -/
def GlobalContext.fold (g : GlobalContext) (b : BitVec 1) : GlobalContext :=
  let c := g.c0.toNat * 2 + bitVal b
  let g1 : GlobalContext := { g with y := b, bpos := g.bpos + 1 }
  if c ≥ 256 then
    let byte := BitVec.ofNat 8 (c - 256)
    { g1 with
      buf := putByte g.buf (g.pos.toNat % 2 ^ bufLog2) byte
      pos := g.pos + 1
      c4 := (g.c4 <<< 8) ||| byte.setWidth 32
      c0 := 1 }
  else { g1 with c0 := BitVec.ofNat 8 c }

/-- NOP (R62). -/
def execNop (s : State) : Result := .next s

/-- BIT_BEGIN (R63). -/
def execBitBegin (b : BitVec 1) (s : State) : Result := .next (s.setG (s.g.fold b))

/-- PROB_READ (R64). -/
def execProbRead (s : State) : Result := .next (s.setRes0 s.g.prWord)

end Sys2Proof.Machine
end

