-- ==== Sys2Proof/Machine/Predictor.lean ====
section
/-! DEFINITION. The APM stack and BIT_END (47_predictor.md R115, R116). -/

namespace Sys2Proof.Machine

/-- HASH2 of the instance (R115): the default hash, but where the configuration lists another value. -/
def hash2 (c : Config) (a b : Byte) : Word :=
  Memory.read (fun _ => paqHash (a.setWidth 32) (b.setWidth 32)) c.hash2 (a.toNat + 256 * b.toNat)

/-- HASH3 of the instance (R115): the default hash, but where the configuration lists another value. -/
def hash3 (c : Config) (x y z : Byte) : Word :=
  Memory.read (fun _ => paqHash (x.setWidth 32) (y.setWidth 32) (z.setWidth 32)) c.hash3
    (x.toNat + 256 * y.toNat + 65536 * z.toNat)

/-- The four contexts of the APM stack (R115). -/
structure StackContexts where
  x0 : Nat
  x1 : Nat
  x2 : Nat
  x3 : Nat
deriving DecidableEq, Repr

/-- `x0` to `x3` (R115); `&` binds before `^`. -/
def stackContexts (c : Config) (g : GlobalContext) : StackContexts :=
  let b1 := g.bufBack 1
  let b2 := g.bufBack 2
  let b3 := g.bufBack 3
  { x0 := g.c0.toNat
    x1 := g.c0.toNat + 256 * b1.toNat
    x2 := (g.c0.setWidth 32 ^^^ (hash2 c b1 b2 &&& 0xFFFF)).toNat
    x3 := (g.c0.setWidth 32 ^^^ (hash3 c b1 b2 b3 &&& 0xFFFF)).toNat }

/-- The rounded average of four probabilities: `(a + b + c + d + 2) >> 2` (R116). -/
def average4 (a b c d : BitVec 12) : BitVec 12 :=
  BitVec.ofNat 12 ((a.toNat + b.toNat + c.toNat + d.toNat + 2) / 4)

/-- The rounded average of two probabilities: `(a + b + 1) >> 1` (R116). -/
def average2 (a b : BitVec 12) : BitVec 12 := BitVec.ofNat 12 ((a.toNat + b.toNat + 1) / 2)

/-- The seven calls and the averaging of BIT_END (R116): the units 0 to 6 after it, and the new `pr`. -/
def stackRun (c : Config) (g : GlobalContext) (a0 a1 a2 a3 a4 a5 a6 : Apm) (pr0 : BitVec 12) :
    List Apm × BitVec 12 :=
  let x := stackContexts c g
  let pA := apmP c g.y a0 pr0 x.x0 7
  let q1 := apmP c g.y a1 pr0 x.x1 7
  let q2 := apmP c g.y a2 pr0 x.x2 7
  let q3 := apmP c g.y a3 pr0 x.x3 7
  let prB := average4 pr0 q1.2 q2.2 q3.2
  let r1 := apmP c g.y a4 pA.2 x.x1 7
  let r2 := apmP c g.y a5 pA.2 x.x2 7
  let r3 := apmP c g.y a6 pA.2 x.x3 7
  let prC := average4 pA.2 r1.2 r2.2 r3.2
  ([pA.1, q1.1, q2.1, q3.1, r1.1, r2.1, r3.1], average2 prC prB)

/-- BIT_END (R116). A state with fewer than seven APM units is no state of an instance (log 14). -/
def execBitEnd (s : State) : Result :=
  if s.op0 > 4095 then .next (s.refuse .argRange)
  else
    match s.apm with
    | a0 :: a1 :: a2 :: a3 :: a4 :: a5 :: a6 :: rest =>
      let r := stackRun s.cfg s.g a0 a1 a2 a3 a4 a5 a6 (s.latch.a0.setWidth 12)
      .next (({ s with apm := r.1 ++ rest }.setG { s.g with pr := r.2 }).setRes0 (r.2.setWidth 32))
    | _ => .fault .notAnInstance

end Sys2Proof.Machine
end

