-- ==== Sys2Proof/Machine/Dispatch.lean ====
section
/-! DEFINITION. The meaning of each command of CMP-1 (30_encoding.md R57), one arm per constructor. -/

namespace Sys2Proof.Machine

-- The command is performed on a state whose latch holds its word and operands (70_reset_and_hazards.md R138).
def exec (i : Instr) (s : State) : Host.Outcome State Fault Refusal :=
  match i with
  | .nop => Sys2Proof.Machine.execNop s
  | .bitBegin b => Sys2Proof.Machine.execBitBegin b s
  | .bitEnd => Sys2Proof.Machine.execBitEnd s
  | .probRead => Sys2Proof.Machine.execProbRead s
  | .dbgRd cls unit mixu => Sys2Proof.Machine.execDbgRd cls unit mixu s
  | .squash => Sys2Proof.Machine.execSquash s
  | .stretch => Sys2Proof.Machine.execStretch s
  | .ilog => Sys2Proof.Machine.execIlog s
  | .fsmNext b => Sys2Proof.Machine.execFsmNext b s
  | .fsmCounts => Sys2Proof.Machine.execFsmCounts s
  | .fsmNextp b => Sys2Proof.Machine.execFsmNextp b s
  | .rngNext => Sys2Proof.Machine.execRngNext s
  | .smP unit => Sys2Proof.Machine.execSmP unit s
  | .apmP unit rate => Sys2Proof.Machine.execApmP unit rate s
  | .mixUpdate unit => Sys2Proof.Machine.execMixUpdate unit s
  | .mixAdd unit => Sys2Proof.Machine.execMixAdd unit s
  | .mixSet unit => Sys2Proof.Machine.execMixSet unit s
  | .mixP unit => Sys2Proof.Machine.execMixP unit s
  | .bhLookup unit => Sys2Proof.Machine.execBhLookup unit s
  | .bhRd unit => Sys2Proof.Machine.execBhRd unit s
  | .bhWr unit => Sys2Proof.Machine.execBhWr unit s
  | .cmSet unit => Sys2Proof.Machine.execCmSet unit s
  | .cmMix unit mixu => Sys2Proof.Machine.execCmMix unit mixu s
  | .rcmSet unit => Sys2Proof.Machine.execRcmSet unit s
  | .rcmMix unit mixu => Sys2Proof.Machine.execRcmMix unit mixu s
  | .sscmSet unit => Sys2Proof.Machine.execSscmSet unit s
  | .sscmMix unit mixu rate => Sys2Proof.Machine.execSscmMix unit mixu rate s

end Sys2Proof.Machine
end

