-- ==== Sys2Proof/Machine/Perform.lean ====
section
/-! DEFINITION. The performance of the command in progress: its word is decoded and run, an illegal word raises
E_ILLEGAL_OP (30_encoding.md R58), and BUSY returns to 0 (70_reset_and_hazards.md R138). -/

namespace Sys2Proof.Machine

/-- The command in progress, to its completion. -/
def performCommand (s : State) : Result :=
  match decode s.latch.word with
  | .ok i => mapNext State.endCommand (exec i s)
  | .error _ => .next (s.refuse .illegalOp).endCommand

/-- The command word `w` accepted as if the host had just written it to CMD, with the operands that stand in ARG0 to
ARG2, and not overtaken by an early access. -/
def State.accept (s : State) (w : Word) : State :=
  { s with
    cmd := w, busy := true
    latch := { word := w, a0 := s.arg0, a1 := s.arg1, a2 := s.arg2 }
    host := s.host.dropWhile HostAccess.whileBusy }

end Sys2Proof.Machine
end

