-- ==== Sys2Proof/Machine/Step.lean ====
section
/-! DEFINITION. One step of the machine: the command in progress is performed to its end, or, when none is in progress
or the host is early, the next host access is performed (20_memory.md R46; 70_reset_and_hazards.md R138). -/

namespace Sys2Proof.Machine

/-- One step. -/
def step (s : State) : Host.Outcome State Fault Refusal :=
  if s.busy && !s.hostIsEarly then performCommand s else .next s.hostStep

/-- The state whose next step runs the command whose bits are the low `nbits` bits of `w` (log 1). -/
def State.withFetchWord (s : State) (nbits w : Nat) : State := s.accept (BitVec.ofNat 32 (w % 2 ^ nbits))

end Sys2Proof.Machine
end

