-- ==== Sys2Proof/Safety.lean ====
section
/-! DEFINITION. What the states of an instance of the block have in common: the ranges 10_state.md gives its fields, the
canonical form of every memory, and the configuration constraints of 00_scope.md R7; and the terms statements use. -/

namespace Sys2Proof.Machine

/-- The global bit context (10_state.md R25, R26). -/
structure GlobalContext.Ok (g : GlobalContext) : Prop where
  c0 : g.c0 ≠ 0
  bpos : g.bpos.toNat = Nat.log2 g.c0.toNat
  buf : Memory.wf zeros (2 ^ bufLog2) g.buf

/-- The generator holds 64 words (10_state.md R28). -/
structure Generator.Ok (r : Generator) : Prop where
  words : r.t.length = 64

/-- A StateMap has 256 entries (10_state.md R29). -/
structure StateMap.Ok (c : Config) (u : StateMap) : Prop where
  t : Memory.wf (smInit c) 256 u.t

/-- An APM has `33 * rows` entries and its anchor leaves room for the second entry of its row (10_state.md R30,
42_statemap_apm.md R84). -/
structure Apm.Ok (c : Config) (u : Apm) : Prop where
  t : Memory.wf (apmInit c) (33 * u.rows) u.t
  index : u.index < 33 * u.rows
  inRow : u.index % 33 ≤ 31

/-- A mixer stage (10_state.md R31). -/
structure Stage.Ok (u : Stage) : Prop where
  tx : Memory.wf zeros u.cap u.tx
  wx : Memory.wf u.weightInit (u.cap * u.m) u.wx
  cxtLength : u.cxt.length = u.s
  cxt : ∀ r ∈ u.cxt, r < u.m
  ncxt : u.ncxt ≤ u.s
  base : u.base ≤ u.m
  nx : u.nx ≤ u.cap
  prLength : u.pr.length = u.s

/-- A Mixer unit: a child `Mixer(S, 1, 1, 0x7FFF)` iff `S > 1` (10_state.md R31). -/
structure Mixer.Ok (m : Mixer) : Prop where
  own : m.own.Ok
  child : ∀ u, m.child = some u → u.Ok ∧ u.n = m.own.s ∧ u.m = 1 ∧ u.s = 1 ∧ u.w0 = 0x7FFF
  second : m.child.isSome ↔ 1 < m.own.s

/-- A `BH<B>` table of `ns` slots (10_state.md R32). -/
structure BhTable.Ok (u : BhTable) : Prop where
  t : Memory.wf zeros (u.ns * u.b) u.t

/-- An address of cell 0 of a slot in a table of `e` buckets (20_memory.md R44). -/
def IsCell0 (e a : Nat) : Prop := ∃ b k, b < e ∧ k ≤ 6 ∧ a = cmCell b k

/-- The pointers of a context name cells of the table (10_state.md R33, 45_contextmap.md R109). -/
structure CmContext.Ok (c : Config) (e : Nat) (k : CmContext) : Prop where
  cp0 : IsCell0 e k.cp0
  cp : ∀ a, k.cp = some a → k.cp0 ≤ a ∧ a ≤ k.cp0 + 6
  runp : ∃ a, IsCell0 e a ∧ k.runp = a + 3
  sm : k.sm.Ok c

/-- A ContextMap (10_state.md R33); "The low nibble of `last` is always in 0..6" (45_contextmap.md R101). -/
structure ContextMap.Ok (c : Config) (u : ContextMap) : Prop where
  tab : Memory.wf zeros (64 * u.e) u.tab
  mru : ∀ b < u.e, (byteAt u.tab (cmLast b)).toNat % 16 ≤ 6
  cn : u.cn ≤ u.ctxs.length
  ctxs : ∀ k ∈ u.ctxs, k.Ok c u.e

/-- A RunContextMap (10_state.md R34). -/
structure RunMap.Ok (u : RunMap) : Prop where
  t : Memory.wf zeros (4 * u.ns) u.t
  cp : u.cp < u.ns

/-- A SmallStationaryContextMap (10_state.md R35). -/
structure Sscm.Ok (u : Sscm) : Prop where
  t : Memory.wf sscmInit u.ne u.t
  cxtAligned : u.cxt % 256 = 0
  cxt : u.cxt + 256 ≤ u.ne
  cp : u.cp < u.ne

/-- A state of an instance of the block. -/
structure State.Inv (s : State) : Prop where
  cfg : s.cfg.Admissible
  geometry : s.geometry.Valid
  g : s.g.Ok
  rng : s.rng.Ok
  sm : ∀ u ∈ s.sm, u.Ok s.cfg
  apm : ∀ u ∈ s.apm, u.Ok s.cfg
  mix : ∀ m ∈ s.mix, m.Ok
  bh : ∀ u ∈ s.bh, u.Ok
  cm : ∀ u ∈ s.cm, u.Ok s.cfg
  rcm : ∀ u ∈ s.rcm, u.Ok
  sscm : ∀ u ∈ s.sscm, u.Ok

/-- The machine goes on: it neither faults nor refuses. -/
def Goes (o : Result) : Prop := ∃ t, o = .next t

/-- The error record after error `code` with record value `v`: the first error stays (60_exceptions.md R120). -/
def State.errAfter (s : State) (code : ErrCode) (v : Word) : Option ErrRecord := some (s.err.getD ⟨code, v⟩)

/-- Command `i` is refused with `code`: the error record is its whole effect (60_exceptions.md R120). -/
def Raises (i : Instr) (s : State) (code : ErrCode) : Prop :=
  exec i s = .next { s with err := s.errAfter code s.latch.word }

/-- The number of an error code (60_exceptions.md R119), as the statements give it. -/
def ErrCode.number : ErrCode → Nat
  | .illegalOp => 1 | .badUnit => 2 | .badMixu => 3 | .argRange => 4 | .mixAddFull => 5
  | .mixSetFull => 6 | .mixSetRange => 7 | .cmSetFull => 8 | .busy => 9 | .bus => 10

/-- The dot product of 43_mixer.md R87 over the first `n` inputs `x` with the weights `w`, as the statements give it: pairs of
products, the sum of a pair and the accumulator each reduced to the integers from -2^31 to 2^31 - 1. -/
def pairwiseDot (x w : Nat → Int) (n : Nat) : Int :=
  (List.range (n / 2)).foldl (fun acc j =>
    (acc + (x (2 * j) * w (2 * j) + x (2 * j + 1) * w (2 * j + 1)).bmod (2 ^ 32) / 256).bmod (2 ^ 32)) 0

/-- The byte `i` bytes back in the ring (40_global_context.md R61), as the statements give it. -/
abbrev GlobalContext.byteBack (g : GlobalContext) (i : Nat) : Byte :=
  byteAt g.buf ((g.pos.toNat + 2 ^ 24 - i) % 2 ^ 24)

/-- The default hash of 47_predictor.md R115, as the statements give it. -/
def defaultHash (a b c : Word) : Word :=
  let h := a * 200002979 + b * 30005491 + c * 50004239 + 0xFFFFFFFF * 70004807 + 0xFFFFFFFF * 110002499
  h ^^^ (h >>> 9) ^^^ (a >>> 2) ^^^ (b >>> 3) ^^^ (c >>> 4) ^^^ (0xFFFFFFFF >>> 5) ^^^ (0xFFFFFFFF >>> 6)

/-- A word whose opcode is reserved, whose command has a nonzero reserved field, or whose `IMM` is illegal for its command
(30_encoding.md R52, R54, R56, R58; 20_memory.md R51). -/
abbrev IllegalWord (w : Nat) : Prop :=
  let op := w / 2 ^ 24
  let mixu := w / 2 ^ 8 % 2 ^ 8
  let imm := w % 2 ^ 8
  (0x05 ≤ op ∧ op ≤ 0x0F) ∨ (0x17 ≤ op ∧ op ≤ 0x1F) ∨ (0x21 ≤ op ∧ op ≤ 0x23) ∨ (0x25 ≤ op ∧ op ≤ 0x2F) ∨
  (0x34 ≤ op ∧ op ≤ 0x3F) ∨ (0x43 ≤ op ∧ op ≤ 0x4F) ∨ (0x52 ≤ op ∧ op ≤ 0x57) ∨ (0x5A ≤ op ∧ op ≤ 0x5F) ∨
  0x62 ≤ op ∨
  (op ∈ [0x00, 0x02, 0x03, 0x10, 0x11, 0x12, 0x14, 0x16] ∧ w % 2 ^ 24 ≠ 0) ∨
  (op ∈ [0x01, 0x13, 0x15] ∧ w % 2 ^ 24 / 2 ≠ 0) ∨
  (op ∈ [0x20, 0x30, 0x31, 0x32, 0x33, 0x40, 0x41, 0x42, 0x50, 0x58, 0x60] ∧ w % 2 ^ 16 ≠ 0) ∨
  (op = 0x24 ∧ mixu ≠ 0) ∨ (op ∈ [0x51, 0x59] ∧ imm ≠ 0) ∨
  (op = 0x04 ∧ (16 ≤ imm ∨ (mixu ≠ 0 ∧ imm ∉ [3, 4, 5, 6])))

/-- The next step performs the command in progress. -/
def Performs (s : State) : Prop := s.busy = true ∧ s.hostIsEarly = false

/-- The next step performs the host access `a`, after which `rest` is still to come. -/
def NextAccess (s : State) (a : Access) (rest : List HostAccess) : Prop :=
  ∃ early, s.host = ⟨early, a⟩ :: rest ∧ (s.busy = true → early = true)

/-- A StateMap at its reset value (42_statemap_apm.md R80). -/
def StateMap.AtReset (c : Config) (u : StateMap) : Prop :=
  u.prev = 0 ∧ ∀ s < 256,
    let r := c.stateTable.getD s default
    let a1 := if r.n0.toNat = 0 then r.n1.toNat * 64 else r.n1.toNat
    let a0 := if a1 = 0 then r.n0.toNat * 64 else r.n0.toNat
    (u.entry c s).toNat = 65536 * (a1 + 1) / (a0 + a1 + 2)

/-- An APM at its reset value (42_statemap_apm.md R83). -/
def Apm.AtReset (c : Config) (u : Apm) : Prop :=
  u.index = 0 ∧ ∀ r < u.rows, ∀ j < 33,
    (u.entry c (33 * r + j)).toNat = (squash c (((j : Int) - 16) * 128)).toNat * 16

/-- A mixer stage at its reset value, with weights `w` (10_state.md R31). -/
def Stage.AtReset (w : Int) (u : Stage) : Prop :=
  (∀ k < u.cap, u.input k = 0) ∧ (∀ r < u.m, ∀ k < u.cap, u.weight r k = w) ∧ u.cxt = List.replicate u.s 0 ∧
  u.ncxt = 0 ∧ u.base = 0 ∧ u.nx = 0 ∧ u.pr = List.replicate u.s 2048

/-- Every piece of state has the reset value the table of 70_reset_and_hazards.md R135 gives it. -/
structure State.AtReset (s : State) : Prop where
  registers : s.cmd = 0 ∧ s.arg0 = 0 ∧ s.arg1 = 0 ∧ s.arg2 = 0 ∧ s.res0 = 0 ∧ s.res1 = 0
  status : s.busy = false ∧ s.err = none
  constants : s.readReg 0x18 = 0 ∧ s.readReg 0x1C = 0 ∧ s.readReg 0x20 = 0 ∧ s.readReg 0x34 = 0x50415131
  g : s.g.y = 0 ∧ s.g.c0 = 1 ∧ s.g.bpos = 0 ∧ s.g.c4 = 0 ∧ s.g.pos = 0 ∧ s.g.pr = 2048
  buf : ∀ a, byteAt s.g.buf a = 0
  rng : s.rng.t = s.cfg.rngInit ∧ s.rng.i = 0
  sm : ∀ u ∈ s.sm, u.AtReset s.cfg
  apm : ∀ u ∈ s.apm, u.AtReset s.cfg
  mix : ∀ m ∈ s.mix, m.own.AtReset m.own.w0.toInt ∧ ∀ u, m.child = some u → u.AtReset 32767
  bh : ∀ u ∈ s.bh, ∀ a, byteAt u.t a = 0
  cm : ∀ u ∈ s.cm, u.cn = 0 ∧ (∀ a, byteAt u.tab a = 0) ∧
    ∀ k ∈ u.ctxs, k.cxt = 0 ∧ k.cp0 = 15 ∧ k.cp = some 15 ∧ k.runp = 18 ∧ k.sm.AtReset s.cfg
  rcm : ∀ u ∈ s.rcm, u.cp = 0 ∧ ∀ a, byteAt u.t a = 0
  sscm : ∀ u ∈ s.sscm, u.cxt = 0 ∧ u.cp = 0 ∧ ∀ a, (u.entry a).toNat = 32768

end Sys2Proof.Machine
end

