-- ==== Sys2Proof/Certificates/Slice0/Obligations.lean ====
section
/-! DEFINITION. The statements about the model, in the order encoding, bus and step, invariants, rules over all
commands, commands by family, errors; last the pending update of a ContextMap. The docstring of each names the rule of spec/ it formalises. -/

open Sys2Proof Sys2Proof.Machine

/-- 30_encoding.md R52, R56, R57: no bit of a command's encoding is dropped. -/
def Obligations.EncodeThenDecode : Prop :=
  ∀ i : Instr, i.WellFormed → decode (encode i) = .ok i

/-- 30_encoding.md R52, R57: a word stands for one command at most, and that command is well formed. -/
def Obligations.DecodeThenEncode : Prop :=
  ∀ (w : Word) (i : Instr), decode w = .ok i → i.WellFormed ∧ encode i = w

/-- 30_encoding.md R57, R59: words `(OP << 24) | (K << 16) | (J << 8) | I` of every family. -/
def Obligations.SpecWordsDecode : Prop :=
  decode 0x00000000 = .ok .nop ∧ decode 0x01000001 = .ok (.bitBegin 1) ∧ decode 0x02000000 = .ok .bitEnd ∧
  decode 0x04030103 = .ok (.dbgRd .mixWeight 3 1) ∧ decode 0x15000001 = .ok (.fsmNextp 1) ∧
  decode 0x20020000 = .ok (.smP 2) ∧ decode 0x24070007 = .ok (.apmP 7 7) ∧ decode 0x33050000 = .ok (.mixP 5) ∧
  decode 0x42010000 = .ok (.bhWr 1) ∧ decode 0x51020300 = .ok (.cmMix 2 3) ∧ decode 0x59040500 = .ok (.rcmMix 4 5) ∧
  decode 0x61010207 = .ok (.sscmMix 1 2 7)

/-- 30_encoding.md R58: a reserved opcode, a nonzero reserved field or an illegal `IMM` raises E_ILLEGAL_OP and has no
other effect (first conjunct); no encoding but `NOP` executes as a no-op (second conjunct). -/
def Obligations.IllegalWordOnlyRaisesIllegalOp : Prop :=
  (∀ s : State, Performs s → IllegalWord s.latch.word.toNat →
    step s = .next { s with busy := false, err := s.errAfter .illegalOp s.latch.word }) ∧
  ∀ i : Instr, i.WellFormed → i ≠ .nop → ∃ s, exec i s ≠ .next s

/-- 70_reset_and_hazards.md R138: the command in progress is the decoded word of the latch; its outcome is the step's,
with BUSY back to 0. -/
def Obligations.StepRunsTheDecodedCommand : Prop :=
  ∀ (s : State) (i : Instr), Performs s → decode s.latch.word = .ok i →
    step s = mapNext (fun t => { t with busy := false }) (exec i s)

/-- 30_encoding.md R52, 10_state.md R15: a write to CMD is kept there and starts a command, which reads its operands
now. -/
def Obligations.CmdWriteStartsACommand : Prop :=
  ∀ (s : State) (v : Word) (rest : List HostAccess), s.busy = false →
    NextAccess s (.write s.cfg.blockBase 32 v) rest →
    step s = .next { s with cmd := v, busy := true, latch := ⟨v, s.arg0, s.arg1, s.arg2⟩, host := rest }

/-- 70_reset_and_hazards.md R138: a write to CMD while BUSY is 1 is stored, refused with E_BUSY and not performed. -/
def Obligations.CmdWriteWhileBusyIsRefused : Prop :=
  ∀ (s : State) (v : Word) (rest : List HostAccess), s.busy = true →
    NextAccess s (.write s.cfg.blockBase 32 v) rest →
    step s = .next { s with cmd := v, host := rest, err := s.errAfter .busy v }

/-- 20_memory.md R40: an access that is not 32 bits wide at a multiple of 4 is a bus error, BUSY or not: a write has no
effect, a read returns 0. -/
def Obligations.BadAccessIsABusError : Prop :=
  ∀ (s : State) (off width : Nat) (v : Word) (rest : List HostAccess), off < 64 → ¬(width = 32 ∧ off % 4 = 0) →
    (NextAccess s (.write (s.cfg.blockBase + off) width v) rest →
      step s = .next { s with host := rest, err := s.errAfter .bus (BitVec.ofNat 32 off) }) ∧
    (NextAccess s (.read (s.cfg.blockBase + off) width) rest →
      step s = .next { s with host := rest, busOut := 0, err := s.errAfter .bus (BitVec.ofNat 32 off) })

/-- 20_memory.md R41: the block does not see addresses outside its window. -/
def Obligations.OtherAddressesAreNotSeen : Prop :=
  ∀ (s : State) (addr width : Nat) (v : Word) (rest : List HostAccess),
    addr < s.cfg.blockBase ∨ s.cfg.blockBase + 64 ≤ addr →
    NextAccess s (.write addr width v) rest ∨ NextAccess s (.read addr width) rest →
    step s = .next { s with host := rest }

/-- 10_state.md R14, R17, R18, R20, R21, R22; 20_memory.md R40; 60_exceptions.md R119 (the numbers of the codes): what a read of each register returns, and that a read
has no side effect. -/
def Obligations.ReadsReturnTheRegisters : Prop :=
  ∀ (s : State) (off : Nat) (rest : List HostAccess), off < 64 → off % 4 = 0 →
    NextAccess s (.read (s.cfg.blockBase + off) 32) rest →
    ∃ v : Word, step s = .next { s with host := rest, busOut := v } ∧
      (off = 0x00 → v = s.cmd) ∧ (off = 0x04 → v = s.arg0) ∧ (off = 0x08 → v = s.arg1) ∧ (off = 0x0C → v = s.arg2) ∧
      (off = 0x10 → v = s.res0) ∧ (off = 0x14 → v = s.res1) ∧
      (off = 0x18 → v.toNat = (if s.busy then 1 else 0) +
        (match s.err with | none => 0 | some r => 2 + 256 * r.code.number)) ∧
      (off = 0x1C → v = match s.err with | none => 0 | some r => r.cmd) ∧
      (off = 0x20 → v = 0) ∧ (off = 0x24 → v.toNat = s.g.pr.toNat) ∧
      (off = 0x28 → v.toNat = s.g.c0.toNat + 256 * s.g.bpos.toNat + 65536 * s.g.y.toNat) ∧
      (off = 0x2C → v = s.g.pos) ∧ (off = 0x30 → v = s.g.c4) ∧ (off = 0x34 → v = 0x50415131) ∧
      (0x38 ≤ off → v = 0)

/-- 10_state.md R14, R15; 20_memory.md R40; 70_reset_and_hazards.md R138: a write to ARGn stores the value and does
nothing else, BUSY or not; a write to a read-only or reserved register is ignored. -/
def Obligations.OtherWritesStoreOrAreIgnored : Prop :=
  ∀ (s : State) (off : Nat) (v : Word) (rest : List HostAccess), off < 64 → off % 4 = 0 →
    NextAccess s (.write (s.cfg.blockBase + off) 32 v) rest →
    (off = 0x04 → step s = .next { s with arg0 := v, host := rest }) ∧
    (off = 0x08 → step s = .next { s with arg1 := v, host := rest }) ∧
    (off = 0x0C → step s = .next { s with arg2 := v, host := rest }) ∧
    (off ∉ [0x00, 0x04, 0x08, 0x0C, 0x20] → step s = .next { s with host := rest })

/-- 10_state.md R19: bit 0 of a CTRL write resets, bit 1 alone clears the error record, other bits do nothing, BUSY or
not; CTRL reads as 0. `State.fresh` is the constructed state `ResetGivesEveryResetValue` describes. -/
def Obligations.CtrlResetsAndClears : Prop :=
  ∀ (s : State) (v : Word) (rest : List HostAccess),
    (NextAccess s (.write (s.cfg.blockBase + 0x20) 32 v) rest →
      (v.toNat % 2 = 1 →
        step s = .next { State.fresh s.cfg s.geometry with host := rest, busOut := s.busOut }) ∧
      (v.toNat % 4 = 2 → step s = .next { s with host := rest, err := none }) ∧
      (v.toNat % 4 = 0 → step s = .next { s with host := rest })) ∧
    (NextAccess s (.read (s.cfg.blockBase + 0x20) 32) rest → step s = .next { s with host := rest, busOut := 0 })

/-- 70_reset_and_hazards.md R135: after power-on and after a soft reset every piece of state has the value the table
gives it; 70_reset_and_hazards.md R134: the configuration stays. -/
def Obligations.ResetGivesEveryResetValue : Prop :=
  State.reset.AtReset ∧
  ∀ (s : State) (v : Word) (rest : List HostAccess), v.toNat % 2 = 1 →
    NextAccess s (.write (s.cfg.blockBase + 0x20) 32 v) rest →
    ∃ t, step s = .next t ∧ t.AtReset ∧ t.cfg = s.cfg ∧ t.geometry = s.geometry

/-- 70_reset_and_hazards.md R136: the block waits for host accesses. That a waiting block steps to itself is the model's
choice (log 16). -/
def Obligations.IdleBlockWaits : Prop :=
  ∀ s : State, s.busy = false → s.host = [] → step s = .next s

/-- 70_reset_and_hazards.md R134, 00_scope.md R7: the state after reset is a state of an instance. -/
def Obligations.ResetSatisfiesTheInvariant : Prop :=
  State.reset.Inv

/-- 10_state.md R25 to R35, 20_memory.md R44, 45_contextmap.md R101: every field stays in the range the spec gives it
and every memory stays canonical. -/
def Obligations.StepKeepsTheInvariant : Prop :=
  ∀ s t : State, s.Inv → step s = .next t → t.Inv

/-- 60_exceptions.md R120, R124: an instance of the block never stops. -/
def Obligations.InstanceNeverStops : Prop :=
  ∀ s : State, s.Inv → Goes (step s) ∧ ∀ i : Instr, Goes (exec i s)

/-- 00_scope.md R7, 10_state.md R27: no command and no access changes the configuration. -/
def Obligations.StepKeepsTheConfiguration : Prop :=
  ∀ s t : State, step s = .next t → t.cfg = s.cfg ∧ t.geometry = s.geometry

/-- 10_state.md R15, 60_exceptions.md R120: no command writes ARG0..ARG2 or CMD; the rest is the model's own fields
(logs 1, 9, 10). -/
def Obligations.CommandsKeepTheHostSide : Prop :=
  ∀ (i : Instr) (s t : State), exec i s = .next t →
    t.arg0 = s.arg0 ∧ t.arg1 = s.arg1 ∧ t.arg2 = s.arg2 ∧ t.cmd = s.cmd ∧ t.busy = s.busy ∧ t.latch = s.latch ∧
    t.host = s.host ∧ t.busOut = s.busOut

/-- 60_exceptions.md R120, R124, 10_state.md R17: a command that records an error has no other effect, records its own
word, and keeps a record that stands. -/
def Obligations.ErrorIsTheWholeEffect : Prop :=
  ∀ (i : Instr) (s t : State), exec i s = .next t →
    (∀ r, s.err = some r → t.err = some r) ∧
    (t.err ≠ s.err → t = { s with err := t.err } ∧ ∃ code, t.err = some ⟨code, s.latch.word⟩)

/-- 10_state.md R20: only BIT_END and reset write `pr`. -/
def Obligations.OnlyBitEndAndResetWritePr : Prop :=
  ∀ s t : State, step s = .next t → t.g.pr ≠ s.g.pr →
    (Performs s ∧ decode s.latch.word = .ok .bitEnd) ∨
    ∃ v rest, NextAccess s (.write (s.cfg.blockBase + 0x20) 32 v) rest ∧ v.toNat % 2 = 1

/-- 10_state.md R25 (written by) and R28: the writers of the global bit context and of the generator among the
commands. -/
def Obligations.ContextAndGeneratorWriters : Prop :=
  ∀ (i : Instr) (s t : State), exec i s = .next t →
    ((∀ b, i ≠ .bitBegin b) → t.g.y = s.g.y ∧ t.g.c0 = s.g.c0 ∧ t.g.bpos = s.g.bpos ∧ t.g.c4 = s.g.c4 ∧
      t.g.pos = s.g.pos ∧ t.g.buf = s.g.buf) ∧
    (i ≠ .bitEnd → t.g.pr = s.g.pr) ∧
    (i ≠ .rngNext → (∀ b, i ≠ .fsmNextp b) → (∀ u x, i ≠ .cmMix u x) → t.rng = s.rng)

/-- 10_state.md R29 to R35 (written by), 20_memory.md R37: a unit is written only by the commands listed for its kind,
and only by one that names it. -/
def Obligations.UnitWriters : Prop :=
  ∀ (i : Instr) (s t : State), exec i s = .next t → ∀ j : Nat,
    ((∀ u, i = .smP u → j ≠ u.toNat) → t.sm[j]? = s.sm[j]?) ∧
    ((∀ u r, i = .apmP u r → j ≠ u.toNat) → (i = .bitEnd → 7 ≤ j) → t.apm[j]? = s.apm[j]?) ∧
    ((∀ u, i = .mixUpdate u → j ≠ u.toNat) → (∀ u, i = .mixAdd u → j ≠ u.toNat) → (∀ u, i = .mixSet u → j ≠ u.toNat) →
      (∀ u, i = .mixP u → j ≠ u.toNat) → (∀ u x, i = .cmMix u x → j ≠ x.toNat) →
      (∀ u x, i = .rcmMix u x → j ≠ x.toNat) → (∀ u x r, i = .sscmMix u x r → j ≠ x.toNat) → t.mix[j]? = s.mix[j]?) ∧
    ((∀ u, i = .bhLookup u → j ≠ u.toNat) → (∀ u, i = .bhWr u → j ≠ u.toNat) → t.bh[j]? = s.bh[j]?) ∧
    ((∀ u, i = .cmSet u → j ≠ u.toNat) → (∀ u x, i = .cmMix u x → j ≠ u.toNat) → t.cm[j]? = s.cm[j]?) ∧
    ((∀ u, i = .rcmSet u → j ≠ u.toNat) → t.rcm[j]? = s.rcm[j]?) ∧
    ((∀ u, i = .sscmSet u → j ≠ u.toNat) → (∀ u x r, i = .sscmMix u x r → j ≠ u.toNat) → t.sscm[j]? = s.sscm[j]?)

/-- 40_global_context.md R62, R64: NOP changes no state; PROB_READ writes `pr` to RES0 and nothing else. -/
def Obligations.NopAndProbRead : Prop :=
  ∀ s : State, exec .nop s = .next s ∧ exec .probRead s = .next { s with res0 := BitVec.ofNat 32 s.g.pr.toNat }

/-- 40_global_context.md R63: the fold of a bit, in and at the end of a byte; nothing outside the global bit context
changes. -/
def Obligations.BitBeginFoldsTheBit : Prop :=
  ∀ (s : State) (b : BitVec 1), ∃ g : GlobalContext,
    exec (.bitBegin b) s = .next { s with g := g } ∧
    g.y = b ∧ g.bpos.toNat = (s.g.bpos.toNat + 1) % 8 ∧ g.pr = s.g.pr ∧
    (let c := 2 * s.g.c0.toNat + b.toNat
     if c < 256 then
       g.c0.toNat = c ∧ g.pos = s.g.pos ∧ g.c4 = s.g.c4 ∧ ∀ a, byteAt g.buf a = byteAt s.g.buf a
     else
       g.c0 = 1 ∧ g.pos.toNat = (s.g.pos.toNat + 1) % 2 ^ 32 ∧
       g.c4.toNat = (s.g.c4.toNat * 256 + (c - 256)) % 2 ^ 32 ∧
       ∀ a, (byteAt g.buf a).toNat = if a = s.g.pos.toNat % 2 ^ 24 then c - 256 else (byteAt s.g.buf a).toNat)

/-- 41_tables_fsm.md R67, R73: SQUASH saturates outside ±2047 and reads the table inside. -/
def Obligations.SquashSaturatesOrReads : Prop :=
  ∀ s : State, ∃ v : BitVec 12,
    exec .squash s = .next { s with res0 := BitVec.ofNat 32 v.toNat } ∧
    (let d := s.latch.a0.toInt
     (2047 < d → v = 4095) ∧ (d < -2047 → v = 0) ∧
     ∀ k : Nat, (k : Int) = d + 2047 → k ≤ 4094 → v = s.cfg.squash.getD k 0)

/-- 41_tables_fsm.md R68, R74: STRETCH gives the least `d` whose table entry is at least `p`, and the values of the
source's scenario 5. Entry `k` of the table stands for `d = k - 2047`. -/
def Obligations.StretchFindsTheLeastEntry : Prop :=
  ∀ s : State, SquashOk s.cfg.squash → s.latch.a0.toNat ≤ 4095 → ∃ k : Nat,
    exec .stretch s = .next { s with res0 := BitVec.ofInt 32 ((k : Int) - 2047) } ∧ k ≤ 4094 ∧
    s.latch.a0.toNat ≤ (s.cfg.squash.getD k 0).toNat ∧
    (∀ j < k, (s.cfg.squash.getD j 0).toNat < s.latch.a0.toNat) ∧
    (s.latch.a0 = 0 → k = 0) ∧ (s.latch.a0 = 2048 → k = 2047) ∧ (s.latch.a0 = 4095 → k = 4094)

/-- 41_tables_fsm.md R68: the two inequalities that replace the source's round trip, where the second is an equality,
and that `stretch` is non-decreasing. -/
def Obligations.StretchIsAnInverseOfSquash : Prop :=
  ∀ c : Config, SquashOk c.squash →
    (∀ p, -2047 ≤ stretch c p ∧ stretch c p ≤ 2047 ∧ p ≤ squash c (stretch c p)) ∧
    (∀ p q, p ≤ q → stretch c p ≤ stretch c q) ∧
    ∀ d : Int, -2047 ≤ d → d ≤ 2047 → stretch c (squash c d) ≤ d ∧
      (-2047 < d → (stretch c (squash c d) = d ↔ squash c (d - 1) < squash c d))

/-- 41_tables_fsm.md R69, R75: ILOG rounds `16 * log2(x)` to the nearest integer: the result `k` is the one integer with
`k - 1/2 < 16 * log2(x) < k + 1/2`, that is `2^(2k-1) < x^32 < 2^(2k+1)`. -/
def Obligations.IlogRoundsTheLogarithm : Prop :=
  ∀ s : State, s.latch.a0.toNat ≤ 65535 → ∃ k : Nat,
    exec .ilog s = .next { s with res0 := BitVec.ofNat 32 k } ∧ k ≤ 256 ∧
    (s.latch.a0.toNat = 0 → k = 0) ∧ (s.latch.a0.toNat = 65535 → k = 256) ∧
    (0 < s.latch.a0.toNat → 2 ^ (2 * k) < 2 * s.latch.a0.toNat ^ 32 ∧ s.latch.a0.toNat ^ 32 < 2 ^ (2 * k + 1))

/-- 41_tables_fsm.md R66, R76, R77: FSM_NEXT and FSM_COUNTS read row `s` of STATE_TABLE. -/
def Obligations.FsmCommandsReadTheRow : Prop :=
  ∀ s : State, s.latch.a0.toNat ≤ 252 →
    (let r := s.cfg.stateTable.getD s.latch.a0.toNat default
     exec (.fsmNext 0) s = .next { s with res0 := BitVec.ofNat 32 r.nex0.toNat } ∧
     exec (.fsmNext 1) s = .next { s with res0 := BitVec.ofNat 32 r.nex1.toNat } ∧
     exec .fsmCounts s = .next { s with res0 := BitVec.ofNat 32 r.n0.toNat, res1 := BitVec.ofNat 32 r.n1.toNat })

/-- 41_tables_fsm.md R66 item 3, R72: from a live state FSM_NEXT and FSM_NEXTP give a live state that is not 0. -/
def Obligations.LiveStatesStayLive : Prop :=
  ∀ (s t : State) (b : BitVec 1), StateTableOk s.cfg.stateTable → s.latch.a0.toNat ≤ 252 →
    exec (.fsmNext b) s = .next t ∨ exec (.fsmNextp b) s = .next t → 1 ≤ t.res0.toNat ∧ t.res0.toNat ≤ 252

/-- 41_tables_fsm.md R72, R78, R66 item 2: the probabilistic update draws iff the successor is 204 or above, and then
decrements it by 4 iff the shifted draw is not 0. First the update of a cell of any value, the reserved states included,
as CM_MIX applies it; then the command. -/
def Obligations.FsmNextpDrawsAndDecrements : Prop :=
  (∀ (c : Config) (g : Generator) (x : Byte) (b : BitVec 1),
    (let r := c.stateTable.getD x.toNat default
     let ns := if b = 0 then r.nex0.toNat else r.nex1.toNat
     let d := rngNext g
     fsmStep c g x b =
       if ns < 204 then (g, BitVec.ofNat 8 ns)
       else if d.2.toNat * 2 ^ ((452 - ns) / 8) % 2 ^ 32 = 0 then (d.1, BitVec.ofNat 8 ns)
       else (d.1, BitVec.ofNat 8 (ns - 4)))) ∧
  ∀ (s : State) (b : BitVec 1), s.latch.a0.toNat ≤ 252 →
    (let r := s.cfg.stateTable.getD s.latch.a0.toNat default
     let ns := if b = 0 then r.nex0.toNat else r.nex1.toNat
     let d := rngNext s.rng
     (ns < 204 → exec (.fsmNextp b) s = .next { s with res0 := BitVec.ofNat 32 ns }) ∧
     (204 ≤ ns → d.2.toNat * 2 ^ ((452 - ns) / 8) % 2 ^ 32 ≠ 0 →
       exec (.fsmNextp b) s = .next { s with rng := d.1, res0 := BitVec.ofNat 32 (ns - 4) }) ∧
     (204 ≤ ns → d.2.toNat * 2 ^ ((452 - ns) / 8) % 2 ^ 32 = 0 →
       exec (.fsmNextp b) s = .next { s with rng := d.1, res0 := BitVec.ofNat 32 ns }))

/-- 41_tables_fsm.md R71, R79: the index advances, the new word is the exclusive or of the words 24 and 55 back, it is
stored at the index and returned; every other word stays. -/
def Obligations.RngNextAdvancesTheRing : Prop :=
  ∀ s : State, s.rng.t.length = 64 → ∃ (r : Generator) (x : Word),
    exec .rngNext s = .next { s with rng := r, res0 := x } ∧ rngNext s.rng = (r, x) ∧ r.t.length = 64 ∧
    r.i.toNat = (s.rng.i.toNat + 1) % 64 ∧
    x = s.rng.t.getD ((r.i.toNat + 40) % 64) 0 ^^^ s.rng.t.getD ((r.i.toNat + 9) % 64) 0 ∧
    ∀ k < 64, r.t.getD k 0 = if k = r.i.toNat then x else s.rng.t.getD k 0

/-- 42_statemap_apm.md R81, R82: SM_P trains the entry of the previous call toward `y`, with no wrap, remembers the new
entry and returns its top 12 bits. -/
def Obligations.SmPTrainsThenReads : Prop :=
  ∀ (s : State) (unit : BitVec 8) (u : StateMap), s.sm[unit.toNat]? = some u → s.latch.a0.toNat ≤ 255 →
    ∃ (u' : StateMap) (p : BitVec 12),
      exec (.smP unit) s = .next { s with sm := s.sm.set unit.toNat u', res0 := BitVec.ofNat 32 p.toNat } ∧
      u'.prev.toNat = s.latch.a0.toNat ∧
      (∀ a, ((u'.entry s.cfg a).toNat : Int) =
        let v : Int := (u.entry s.cfg a).toNat
        if a = u.prev.toNat then v + ((s.g.y.toNat : Int) * 65536 - v + 128) / 256 else v) ∧
      p.toNat = (u'.entry s.cfg s.latch.a0.toNat).toNat / 16

/-- 42_statemap_apm.md R84, R85: APM_P trains the two entries of the previous anchor, with no wrap, moves the anchor and
interpolates; `d` is the stretched input of R68. -/
def Obligations.ApmPTrainsThenInterpolates : Prop :=
  ∀ (s : State) (unit rate : BitVec 8) (u : Apm), s.apm[unit.toNat]? = some u → 1 ≤ rate.toNat → rate.toNat ≤ 15 →
    s.latch.a0.toNat ≤ 4095 → s.latch.a1.toNat < u.rows →
    ∃ (u' : Apm) (p : BitVec 12),
      exec (.apmP unit rate) s = .next { s with apm := s.apm.set unit.toNat u', res0 := BitVec.ofNat 32 p.toNat } ∧
      u'.rows = u.rows ∧
      (∀ a, ((u'.entry s.cfg a).toNat : Int) =
        let v : Int := (u.entry s.cfg a).toNat
        let y : Int := s.g.y.toNat
        if a = u.index ∨ a = u.index + 1 then v + (y * 65536 + y * 2 ^ rate.toNat - 2 * y - v) / 2 ^ rate.toNat
        else v) ∧
      (let d := stretch s.cfg (BitVec.ofNat 12 s.latch.a0.toNat)
       (u'.index : Int) = (d + 2048) / 128 + s.latch.a1.toNat * 33 ∧
       (p.toNat : Int) = ((u'.entry s.cfg u'.index).toNat * (128 - d % 128) +
         (u'.entry s.cfg (u'.index + 1)).toNat * (d % 128)) / 2048)

/-- 43_mixer.md R86, R88, R92: MIX_UPDATE pads the inputs with zeros to a multiple of 8, trains each selected row once
per selection in order, and clears the three counters; the child and the predictions stay. -/
def Obligations.MixUpdateTrainsTheSelectedRows : Prop :=
  ∀ (s : State) (unit : BitVec 8) (m : Mixer), s.mix[unit.toNat]? = some m → m.own.nx ≤ m.own.cap →
    ∃ u : Stage,
      exec (.mixUpdate unit) s = .next { s with mix := s.mix.set unit.toNat { m with own := u } } ∧
      u = { m.own with tx := u.tx, wx := u.wx, nx := 0, base := 0, ncxt := 0 } ∧
      (let padded := (m.own.nx + 7) / 8 * 8
       (∀ k, u.input k = if m.own.nx ≤ k ∧ k < padded then 0 else m.own.input k) ∧
       ∀ r k, k < m.own.cap → u.weight r k =
         if k < padded then
           (List.range m.own.ncxt).foldl (fun w i =>
             let err : Int := ((s.g.y.toNat : Int) * 4096 - (m.own.pr.getD i 0).toNat) * 7
             if m.own.cxt.getD i 0 = r then min 32767 (max (-32768) (w + (u.input k * err / 16384 + 1) / 2)) else w)
             (m.own.weight r k)
         else m.own.weight r k)

/-- 43_mixer.md R89, R90, R93, R94: MIX_ADD appends one input; MIX_SET selects one row and moves the base. -/
def Obligations.MixAddAndMixSet : Prop :=
  ∀ (s : State) (unit : BitVec 8) (m : Mixer), s.mix[unit.toNat]? = some m →
    (-32768 ≤ s.latch.a0.toInt → s.latch.a0.toInt ≤ 32767 → m.own.nx < (m.own.n + 7) / 8 * 8 → ∃ u : Stage,
      exec (.mixAdd unit) s = .next { s with mix := s.mix.set unit.toNat { m with own := u } } ∧
      u = { m.own with tx := u.tx, nx := m.own.nx + 1 } ∧
      ∀ k, u.input k = if k = m.own.nx then s.latch.a0.toInt else m.own.input k) ∧
    (m.own.ncxt < m.own.s → s.latch.a0.toNat < s.latch.a1.toNat → m.own.base + s.latch.a1.toNat ≤ m.own.m →
      exec (.mixSet unit) s = .next { s with mix := s.mix.set unit.toNat { m with own := { m.own with
        cxt := m.own.cxt.set m.own.ncxt (m.own.base + s.latch.a0.toNat), ncxt := m.own.ncxt + 1,
        base := m.own.base + s.latch.a1.toNat } } })

/-- 43_mixer.md R86, R87, R91 (S = 1), R95: MIX_P pads, forms the dot product of the inputs with row `cxt[0]` pairwise in
32 bits, squashes it shifted right by 8, and keeps the prediction. -/
def Obligations.MixPOfOneSelection : Prop :=
  ∀ (s : State) (unit : BitVec 8) (m : Mixer), s.mix[unit.toNat]? = some m → m.child = none →
    ∃ (u : Stage) (p : BitVec 12),
      exec (.mixP unit) s = .next { s with
        mix := s.mix.set unit.toNat { m with own := u }, res0 := BitVec.ofNat 32 p.toNat } ∧
      (let padded := (m.own.nx + 7) / 8 * 8
       let r := m.own.cxt.getD 0 0
       u = { m.own with tx := u.tx, nx := padded, pr := m.own.pr.set 0 p } ∧
       (∀ k, u.input k = if m.own.nx ≤ k ∧ k < padded then 0 else m.own.input k) ∧
       p = squash s.cfg (pairwiseDot u.input (m.own.weight r) padded / 256))

/-- 43_mixer.md R86, R87, R88, R91 (S > 1), R95: MIX_P pads, trains the child first, makes one prediction for each selected
row with shift 5, feeds their stretched values to the child, and returns the child's prediction of its row 0. The child's
inputs above the padded new ones stay as its training left them: padded with zeros from its old count. -/
def Obligations.MixPOfTwoStages : Prop :=
  ∀ (s : State) (unit : BitVec 8) (m : Mixer) (c : Stage), s.mix[unit.toNat]? = some m → m.Ok → m.child = some c →
    ∃ (u c' : Stage) (p : BitVec 12),
      exec (.mixP unit) s = .next { s with
        mix := s.mix.set unit.toNat { own := u, child := some c' }, res0 := BitVec.ofNat 32 p.toNat } ∧
      (let padded := (m.own.nx + 7) / 8 * 8
       u = { m.own with tx := u.tx, nx := padded, pr := u.pr } ∧
       (∀ k, u.input k = if m.own.nx ≤ k ∧ k < padded then 0 else m.own.input k) ∧
       u.pr.length = m.own.pr.length ∧
       ∀ i, u.pr.getD i 0 =
         if i < m.own.ncxt then squash s.cfg (pairwiseDot u.input (m.own.weight (m.own.cxt.getD i 0)) padded / 32)
         else m.own.pr.getD i 0) ∧
      c' = { c with
        tx := c'.tx, wx := (c.train s.g.y).wx, nx := (m.own.ncxt + 7) / 8 * 8, ncxt := 1, base := 1, cxt := [0]
        pr := [p] } ∧
      (∀ k, c'.input k =
        if k < m.own.ncxt then stretch s.cfg (u.pr.getD k 0)
        else if k < c'.nx ∨ (c.nx ≤ k ∧ k < (c.nx + 7) / 8 * 8) then 0
        else c.input k) ∧
      p = squash s.cfg (pairwiseDot c'.input (c'.weight 0) c'.nx / 256)

/-- 43_mixer.md R95 (the source's invariant 5): a mixer whose weights are all zero returns exactly 2048, with one stage
and with two. -/
def Obligations.ZeroWeightsGive2048 : Prop :=
  ∀ (s : State) (unit : BitVec 8) (m : Mixer), SquashOk s.cfg.squash → s.mix[unit.toNat]? = some m → m.Ok →
    (∀ r < m.own.m, ∀ k < m.own.cap, m.own.weight r k = 0) →
    ∃ t, exec (.mixP unit) s = .next t ∧ t.res0 = 2048

/-- 44_hash_bh.md R96, R98: BH_LOOKUP ends at the first slot that is empty or has the checksum, or evicts; the slot moves
to the front, the slots before it move up by one, every other byte stays. Byte `z` of slot `q` is at `q * B + z`. -/
def Obligations.BhLookupFindsOrEvicts : Prop :=
  ∀ (s : State) (unit : BitVec 8) (u : BhTable), s.bh[unit.toNat]? = some u → 3 ≤ u.b → IsPow2 u.ns → 8 ≤ u.ns →
    ∃ (t' : Memory 8) (i pos v : Nat),
      exec (.bhLookup unit) s = .next { s with
        bh := s.bh.set unit.toNat { u with t := t' }, res0 := BitVec.ofNat 32 i, res1 := BitVec.ofNat 32 pos } ∧
      i = s.latch.a0.toNat * 8 % 2 ^ 32 % u.ns ∧ i % 8 = 0 ∧ i + 8 ≤ u.ns ∧
      (let h := s.latch.a0.toNat
       let chk := (h / 65536 ^^^ h) % 65536
       let old := fun q z => (byteAt u.t ((i + q) * u.b + z)).toNat
       let new := fun q z => (byteAt t' ((i + q) * u.b + z)).toNat
       let ends := fun q => old q 2 = 0 ∨ old q 0 + 256 * old q 1 = chk
       pos ≤ 8 ∧ (∀ q < pos, ¬ends q) ∧ (pos < 8 → ends pos) ∧
       v = (if pos < 8 then pos else if old 7 2 > old 6 2 then 6 else 7) ∧
       new 0 0 + 256 * new 0 1 = chk ∧
       (∀ z, 2 ≤ z → z < u.b → new 0 z = if pos < 8 then old pos z else 0) ∧
       (∀ q, 1 ≤ q → q ≤ v → ∀ z < u.b, new q z = old (q - 1) z) ∧
       ∀ a, a < i * u.b ∨ (i + v + 1) * u.b ≤ a → byteAt t' a = byteAt u.t a)

/-- 44_hash_bh.md R99, R100: BH_RD reads one byte of a slot; BH_WR writes one byte, never a checksum byte. -/
def Obligations.BhReadAndWriteOneByte : Prop :=
  ∀ (s : State) (unit : BitVec 8) (u : BhTable), s.bh[unit.toNat]? = some u → s.latch.a0.toNat < u.ns →
    s.latch.a1.toNat < u.b →
    (let a := s.latch.a0.toNat * u.b + s.latch.a1.toNat
     exec (.bhRd unit) s = .next { s with res0 := BitVec.ofNat 32 (byteAt u.t a).toNat } ∧
     (2 ≤ s.latch.a1.toNat → s.latch.a2.toNat ≤ 255 → ∃ t' : Memory 8,
       exec (.bhWr unit) s = .next { s with bh := s.bh.set unit.toNat { u with t := t' } } ∧
       (byteAt t' a).toNat = s.latch.a2.toNat ∧ ∀ b, b ≠ a → byteAt t' b = byteAt u.t b))

/-- 45_contextmap.md R102, R108: CM_SET stores the permuted context in the next context slot and counts it. -/
def Obligations.CmSetStoresThePermutedContext : Prop :=
  ∀ (s : State) (unit : BitVec 8) (u : ContextMap) (k : CmContext), s.cm[unit.toNat]? = some u →
    u.ctxs[u.cn]? = some k → ∃ h : Word,
      exec (.cmSet unit) s = .next { s with cm := s.cm.set unit.toNat { u with
        cn := u.cn + 1, ctxs := u.ctxs.set u.cn { k with cxt := h } } } ∧
      (let v := (s.latch.a0.toNat * 987654323 + u.cn) % 2 ^ 32
       let r := v % 65536 * 65536 + v / 65536
       h.toNat = (r * 123456791 + u.cn) % 2 ^ 32)

/-- 45_contextmap.md R109: CM_MIX runs its round once for every context in order, each round on the generator, table,
mixer and count the round before left, whatever the number of contexts; `cn` returns to 0 at bit position 7. -/
def Obligations.CmMixRunsEveryContext : Prop :=
  ∀ (s : State) (unit mixu : BitVec 8) (u : ContextMap) (m : Mixer), s.cm[unit.toNat]? = some u →
    s.mix[mixu.toNat]? = some m → m.own.nx + 6 * u.ctxs.length ≤ m.own.cap →
    ∃ (q : Nat → CmCarry) (ks : List CmContext),
      (let z := q u.ctxs.length
       exec (.cmMix unit mixu) s = .next { s with
         cm := s.cm.set unit.toNat { u with tab := z.tab, cn := if s.g.bpos = 7 then 0 else u.cn, ctxs := ks }
         mix := s.mix.set mixu.toNat { m with own := z.x }, rng := z.rng, res0 := BitVec.ofNat 32 z.res }) ∧
      q 0 = { rng := s.rng, tab := u.tab, x := m.own, res := 0 } ∧ ks.length = u.ctxs.length ∧
      ∀ (i : Nat) (k : CmContext), u.ctxs[i]? = some k →
        ∃ k', ks[i]? = some k' ∧ cmMixContext s.cfg s.g u.e (q i) k = (q (i + 1), k')

/-- 45_contextmap.md R109 steps 1 and 2: the round first updates the cell of the previous bit, then moves the pointers by
the bit position. `PendingUpdateSeedsTwoSlots` says what the pending update writes. -/
def Obligations.CmMixMovesThePointers : Prop :=
  ∀ (c : Config) (g : GlobalContext) (e : Nat) (q q' : CmCarry) (k k' : CmContext) (rng1 : Generator) (tab1 : Memory 8),
    cmMixContext c g e q k = (q', k') →
    (k.cp = none → rng1 = q.rng ∧ tab1 = q.tab) →
    (∀ a, k.cp = some a → ∃ st, fsmStep c q.rng (byteAt q.tab a) g.y = (rng1, st) ∧ tab1 = putByte q.tab a st) →
    q'.rng = rng1 ∧ k'.cxt = k.cxt ∧
    (let b := g.bpos.toNat
     let quiet := k'.cp0 = k.cp0 ∧ k'.runp = k.runp ∧ q'.tab = tab1
     if 1 < b ∧ byteAt tab1 k.runp = 0 then k'.cp = none ∧ quiet
     else if b ∈ [1, 3, 6] then k'.cp = some (k.cp0 + 1 + g.c0.toNat % 2) ∧ quiet
     else if b ∈ [4, 7] then k'.cp = some (k.cp0 + 3 + g.c0.toNat % 4) ∧ quiet
     else
       let r := cmGet tab1 ((k.cxt.toNat + g.c0.toNat) &&& (e - 1)) (k.cxt.extractLsb' 16 16)
       k'.cp0 = r.2 ∧ k'.cp = some r.2 ∧
       if b = 0 then
         k'.runp = r.2 + 3 ∧
         q'.tab = runUpdate (if byteAt r.1 (r.2 + 3) = 2 then cmPending e r.1 k.cxt r.2 else r.1) k.runp (g.byteBack 1)
       else k'.runp = k.runp ∧ q'.tab = r.1)

/-- 45_contextmap.md R106, R107, R109 steps 3 and 4: the round appends the run score and the five inputs of `mix2`, in
[-1024, 1024] and [-512, 512], trains the context's StateMap once and counts a known state. -/
def Obligations.CmMixAddsSixInputs : Prop :=
  ∀ (c : Config) (g : GlobalContext) (e : Nat) (q q' : CmCarry) (k k' : CmContext) (st : Byte) (p : BitVec 12),
    cmMixContext c g e q k = (q', k') →
    st = (match k'.cp with | none => 0 | some a => byteAt q'.tab a) →
    p = (smP c g.y k.sm st).2 →
    k'.sm = (smP c g.y k.sm st).1 ∧
    q'.x = { q.x with tx := q'.x.tx, nx := q.x.nx + 6 } ∧ q'.res = q.res + (if st = 0 then 0 else 1) ∧
    (∀ j, j < q.x.nx ∨ q.x.nx + 6 ≤ j → q'.x.input j = q.x.input j) ∧
    (let f := stretch c p / 4
     let p1 : Int := (p.toNat / 16 : Nat)
     let p0 : Int := 255 - p1
     let z0 := (c.stateTable.getD st.toNat default).n0 = 0
     let z1 := (c.stateTable.getD st.toNat default).n1 = 0
     let x := fun j => q'.x.input (q.x.nx + j)
     x 0 = runScore g (byteAt q'.tab k'.runp) (byteAt q'.tab (k'.runp + 1)) ∧ -1024 ≤ x 0 ∧ x 0 ≤ 1024 ∧
     x 1 = f ∧ x 2 = p1 - p0 ∧
     x 3 = (if z1 then 0 else -f) - (if z0 then 0 else -f) ∧
     x 4 = (if z0 then p1 else 0) - (if z1 then p0 else 0) ∧
     x 5 = (if z1 then p1 else 0) - (if z0 then p0 else 0) ∧
     ∀ j, 1 ≤ j → j ≤ 5 → -512 ≤ x j ∧ x j ≤ 512)

/-- 45_contextmap.md R101: the lookup of a ContextMap hits the MRU slot, hits another slot, or replaces the
lowest-numbered slot of least priority among those that are not an MRU slot. Byte 14 of bucket `b` is `last`. -/
def Obligations.CmGetFindsOrReplaces : Prop :=
  ∀ (tab tab' : Memory 8) (b p : Nat) (ch : BitVec 16), cmGet tab b ch = (tab', p) →
    (let at' := fun z => (byteAt tab (64 * b + z)).toNat
     let now := fun z => (byteAt tab' (64 * b + z)).toNat
     let lo := at' 14 % 16
     let hi := at' 14 / 16
     let chk := fun k => at' (2 * k) + 256 * at' (2 * k + 1)
     lo ≤ 6 →
     (chk lo = ch.toNat → p = 64 * b + 15 + 7 * lo ∧ tab' = tab) ∧
     (chk lo ≠ ch.toNat → ∀ k ≤ 6, chk k = ch.toNat → (∀ j < k, chk j ≠ ch.toNat) →
       p = 64 * b + 15 + 7 * k ∧ now 14 = lo * 16 + k ∧ ∀ a, a ≠ 64 * b + 14 → byteAt tab' a = byteAt tab a) ∧
     ((∀ k ≤ 6, chk k ≠ ch.toNat) → ∃ k ≤ 6, k ≠ lo ∧ k ≠ hi ∧
       (∀ j ≤ 6, j ≠ lo → j ≠ hi → at' (15 + 7 * k) ≤ at' (15 + 7 * j)) ∧
       (∀ j < k, j ≠ lo → j ≠ hi → at' (15 + 7 * k) < at' (15 + 7 * j)) ∧
       p = 64 * b + 15 + 7 * k ∧ now 14 = 0xF0 + k ∧ now (2 * k) + 256 * now (2 * k + 1) = ch.toNat ∧
       (∀ z < 7, now (15 + 7 * k + z) = 0) ∧
       ∀ a, a ≠ 64 * b + 14 → a ≠ 64 * b + 2 * k → a ≠ 64 * b + 2 * k + 1 →
         (a < 64 * b + 15 + 7 * k ∨ 64 * b + 22 + 7 * k ≤ a) → byteAt tab' a = byteAt tab a))

/-- 45_contextmap.md R105: how a run record advances; no other byte changes. -/
def Obligations.RunRecordAdvances : Prop :=
  ∀ (t : Memory 8) (a : Nat) (prev : Byte),
    (let t' := runUpdate t a prev
     let count := (byteAt t a).toNat
     byteAt t' (a + 1) = prev ∧
     (byteAt t' a).toNat =
       (if count = 0 then 2 else if byteAt t (a + 1) ≠ prev then 1 else if count < 254 then count + 2
        else if count = 255 then 128 else count) ∧
     ∀ b, b ≠ a → b ≠ a + 1 → byteAt t' b = byteAt t b)

/-- 46_run_sscm.md R111, R113: RCM_SET advances the run of the previous context with the last byte, looks the new one up
(`BhLookupFindsOrEvicts` describes the lookup) and points to the front slot; SSCM_SET sets the offset. -/
def Obligations.RcmSetAndSscmSet : Prop :=
  ∀ (s : State) (unit : BitVec 8),
    (∀ u : RunMap, s.rcm[unit.toNat]? = some u →
      (let r := bhLookup 4 u.ns (runUpdate u.t (4 * u.cp + 2) (s.g.byteBack 1)) s.latch.a0
       exec (.rcmSet unit) s = .next { s with rcm := s.rcm.set unit.toNat { u with t := r.1, cp := r.2.1 } })) ∧
    ∀ u : Sscm, s.sscm[unit.toNat]? = some u → IsPow2 u.ne → 256 ≤ u.ne → ∃ c : Nat,
      exec (.sscmSet unit) s = .next { s with sscm := s.sscm.set unit.toNat { u with cxt := c } } ∧
      c = s.latch.a0.toNat * 256 % 2 ^ 32 % u.ne ∧ c % 256 = 0 ∧ c + 256 ≤ u.ne

/-- 45_contextmap.md R106, 46_run_sscm.md R112: RCM_MIX appends the run score of the current record, which lies in
[-1024, 1024], and returns whether there is a record; the RunContextMap stays. -/
def Obligations.RcmMixAddsTheRunScore : Prop :=
  ∀ (s : State) (unit mixu : BitVec 8) (u : RunMap) (m : Mixer), s.rcm[unit.toNat]? = some u →
    s.mix[mixu.toNat]? = some m → m.own.nx < m.own.cap → ∃ x : Stage,
      (let rc := (byteAt u.t (4 * u.cp + 2)).toNat
       let rb := (byteAt u.t (4 * u.cp + 3)).toNat
       let b := s.g.bpos.toNat
       exec (.rcmMix unit mixu) s = .next { s with
         mix := s.mix.set mixu.toNat { m with own := x }, res0 := if rc = 0 then 0 else 1 } ∧
       x = { m.own with tx := x.tx, nx := m.own.nx + 1 } ∧
       (∀ k, k ≠ m.own.nx → x.input k = m.own.input k) ∧
       -1024 ≤ x.input m.own.nx ∧ x.input m.own.nx ≤ 1024 ∧
       x.input m.own.nx =
         if (rb + 256) / 2 ^ (8 - b) = s.g.c0.toNat then
           (if rb / 2 ^ (7 - b) % 2 = 1 then 1 else -1) * ((ilog (rc + 1) * (if rc % 2 = 0 then 8 else 4) : Nat) : Int)
         else 0)

/-- 46_run_sscm.md R114: SSCM_MIX trains the entry of the previous call with no wrap, moves the pointer, appends the
stretched entry there, and returns 0. -/
def Obligations.SscmMixTrainsThenAdds : Prop :=
  ∀ (s : State) (unit mixu rate : BitVec 8) (u : Sscm) (m : Mixer), s.sscm[unit.toNat]? = some u →
    s.mix[mixu.toNat]? = some m → 2 ≤ rate.toNat → rate.toNat ≤ 15 → m.own.nx < m.own.cap →
    ∃ (u' : Sscm) (x : Stage),
      exec (.sscmMix unit mixu rate) s = .next { s with
        sscm := s.sscm.set unit.toNat u', mix := s.mix.set mixu.toNat { m with own := x }, res0 := 0 } ∧
      u' = { u with t := u'.t, cp := u.cxt + s.g.c0.toNat } ∧
      (∀ a, ((u'.entry a).toNat : Int) =
        let v : Int := (u.entry a).toNat
        if a = u.cp then v + ((s.g.y.toNat : Int) * 65536 - v + 2 ^ (rate.toNat - 1)) / 2 ^ rate.toNat else v) ∧
      x = { m.own with tx := x.tx, nx := m.own.nx + 1 } ∧
      ∀ k, x.input k = if k = m.own.nx then stretch s.cfg (BitVec.ofNat 12 ((u'.entry u'.cp).toNat / 16))
        else m.own.input k

/-- 47_predictor.md R115, R116, 40_global_context.md R61: the seven APM calls of BIT_END, their contexts and the averages;
`apmP` is the function `ApmPTrainsThenInterpolates` describes. Units from 7 up stay. That HASH2 and HASH3 are the default
hash with listed exceptions is the model's choice (log 6). -/
def Obligations.BitEndRunsTheApmStack : Prop :=
  ∀ (s : State) (a0 a1 a2 a3 a4 a5 a6 : Apm) (others : List Apm),
    s.apm = a0 :: a1 :: a2 :: a3 :: a4 :: a5 :: a6 :: others → s.latch.a0.toNat ≤ 4095 →
    (let p0 := BitVec.ofNat 12 s.latch.a0.toNat
     let c0 := s.g.c0.toNat
     let b := fun i => (s.g.byteBack i).toNat
     let w := fun i => BitVec.ofNat 32 (b i)
     let h2 := (s.cfg.hash2.lookup (b 1 + 256 * b 2)).getD (defaultHash (w 1) (w 2) 0xFFFFFFFF)
     let h3 := (s.cfg.hash3.lookup (b 1 + 256 * b 2 + 65536 * b 3)).getD (defaultHash (w 1) (w 2) (w 3))
     let x1 := c0 + 256 * b 1
     let x2 := c0 ^^^ (h2.toNat % 65536)
     let x3 := c0 ^^^ (h3.toNat % 65536)
     let call := fun u p x => apmP s.cfg s.g.y u p x 7
     let pA := call a0 p0 c0
     let q1 := call a1 p0 x1
     let q2 := call a2 p0 x2
     let q3 := call a3 p0 x3
     let r1 := call a4 pA.2 x1
     let r2 := call a5 pA.2 x2
     let r3 := call a6 pA.2 x3
     let prB := (p0.toNat + q1.2.toNat + q2.2.toNat + q3.2.toNat + 2) / 4
     let prC := (pA.2.toNat + r1.2.toNat + r2.2.toNat + r3.2.toNat + 2) / 4
     let pr := (prC + prB + 1) / 2
     pr ≤ 4095 ∧ exec .bitEnd s = .next { s with
       apm := pA.1 :: q1.1 :: q2.1 :: q3.1 :: r1.1 :: r2.1 :: r3.1 :: others
       g := { s.g with pr := BitVec.ofNat 12 pr }, res0 := BitVec.ofNat 32 pr })

/-- 47_predictor.md R116 (its example): right after reset, BIT_END of 2048 gives 2048, whatever the tables, the
generator words and the hashes of the instance are. -/
def Obligations.BitEndAfterResetGives2048 : Prop :=
  ∀ (c : Config) (geo : Geometry) (s : State), c.Admissible → geo.Valid →
    s = { State.fresh c geo with latch := s.latch } → s.latch.a0 = 2048 →
    ∃ t, exec .bitEnd s = .next t ∧ t.res0 = 2048 ∧ t.g.pr = 2048

/-- 40_global_context.md R65, 20_memory.md R51: what DBG_RD returns for an index in range in the classes without a unit
and those of StateMaps, APMs and hash tables; nothing but RES0 and RES1 changes. That an integer of more than 32 bits is cut
is the model's choice (log 23). -/
def Obligations.DbgReadsTablesAndPointers : Prop :=
  ∀ (s : State) (unit : BitVec 8),
    (let i := s.latch.a0.toNat
     let gives := fun (cls : DbgClass) (v w : Word) => exec (.dbgRd cls unit 0) s = .next { s with res0 := v, res1 := w }
     (unit = 0 → i < 2 ^ 24 → gives .buf (BitVec.ofNat 32 (byteAt s.g.buf i).toNat) 0) ∧
     (unit = 0 → i < 64 → gives .rngWord (s.rng.t.getD i 0) (BitVec.ofNat 32 s.rng.i.toNat)) ∧
     (∀ u, s.sm[unit.toNat]? = some u → i < 256 →
       gives .smEntry (BitVec.ofNat 32 (u.entry s.cfg i).toNat) (BitVec.ofNat 32 u.prev.toNat)) ∧
     (∀ u, s.apm[unit.toNat]? = some u → i < 33 * u.rows →
       gives .apmEntry (BitVec.ofNat 32 (u.entry s.cfg i).toNat) (BitVec.ofNat 32 u.index)) ∧
     (∀ u, s.bh[unit.toNat]? = some u → i < u.ns * u.b → gives .bhByte (BitVec.ofNat 32 (byteAt u.t i).toNat) 0) ∧
     (∀ u, s.rcm[unit.toNat]? = some u →
       (i < 4 * u.ns → gives .rcmByte (BitVec.ofNat 32 (byteAt u.t i).toNat) 0) ∧
       (i = 0 → gives .rcmPointer (BitVec.ofNat 32 u.cp) 0)) ∧
     (∀ u, s.sscm[unit.toNat]? = some u →
       (i < u.ne → gives .sscmEntry (BitVec.ofNat 32 (u.entry i).toNat) 0) ∧
       (i = 0 → gives .sscmPointers (BitVec.ofNat 32 u.cxt) 0) ∧
       (i = 1 → gives .sscmPointers (BitVec.ofNat 32 u.cp) 0)))

/-- 40_global_context.md R65, 20_memory.md R51: what DBG_RD returns for an index in range in the classes of Mixers (stage
0 is the unit's own, stage 1 its child) and ContextMaps; nothing but RES0 and RES1 changes. That an integer of more than
32 bits is cut is the model's choice (log 23). -/
def Obligations.DbgReadsMixersAndContextMaps : Prop :=
  ∀ (s : State) (unit : BitVec 8),
    (let i := s.latch.a0.toNat
     let j := s.latch.a1.toNat
     let gives := fun (cls : DbgClass) (stage : BitVec 8) (v w : Word) =>
       exec (.dbgRd cls unit stage) s = .next { s with res0 := v, res1 := w }
     (∀ m stage u, s.mix[unit.toNat]? = some m → (stage = 0 ∧ u = m.own) ∨ (stage = 1 ∧ m.child = some u) →
       (i < u.cap * u.m → gives .mixWeight stage (BitVec.ofInt 32 (u.wx.read u.weightInit i).toInt) 0) ∧
       (∀ r k, r < u.m → k < u.cap → i = r * u.cap + k → gives .mixWeight stage (BitVec.ofInt 32 (u.weight r k)) 0) ∧
       (i < u.cap → gives .mixInput stage (BitVec.ofInt 32 (u.input i)) (BitVec.ofNat 32 u.nx)) ∧
       (i < u.s → gives .mixSelection stage (BitVec.ofNat 32 (u.cxt.getD i 0))
         (BitVec.ofNat 32 (u.pr.getD i 0).toNat)) ∧
       (i = 0 → gives .mixCounters stage (BitVec.ofNat 32 u.nx) 0) ∧
       (i = 1 → gives .mixCounters stage (BitVec.ofNat 32 u.ncxt) 0) ∧
       (i = 2 → gives .mixCounters stage (BitVec.ofNat 32 u.base) 0)) ∧
     (∀ u, s.cm[unit.toNat]? = some u → i < 64 * u.e →
       gives .cmByte 0 (BitVec.ofNat 32 (byteAt u.tab i).toNat) 0) ∧
     (∀ u k, s.cm[unit.toNat]? = some u → u.ctxs[j]? = some k →
       (i = 0 → gives .cmContext 0 k.cxt 0) ∧ (i = 1 → gives .cmContext 0 (BitVec.ofNat 32 k.cp0) 0) ∧
       (i = 2 → gives .cmContext 0 (match k.cp with | none => 0xFFFFFFFF | some a => BitVec.ofNat 32 a) 0) ∧
       (i = 3 → gives .cmContext 0 (BitVec.ofNat 32 k.runp) 0) ∧
       (i = 4 → gives .cmContext 0 (BitVec.ofNat 32 u.cn) 0) ∧
       (i < 256 → gives .cmStateMap 0 (BitVec.ofNat 32 (k.sm.entry s.cfg i).toNat)
         (BitVec.ofNat 32 k.sm.prev.toNat))))

/-- 60_exceptions.md R119 (codes 2 and 3), R121: a unit or mixer unit that does not exist, the unit checked first and
both before any operand. -/
def Obligations.MissingUnitsAreRefused : Prop :=
  ∀ (s : State) (u x r : BitVec 8),
    (s.sm.length ≤ u.toNat → Raises (.smP u) s .badUnit) ∧
    (s.apm.length ≤ u.toNat → Raises (.apmP u r) s .badUnit) ∧
    (s.mix.length ≤ u.toNat → Raises (.mixUpdate u) s .badUnit ∧ Raises (.mixAdd u) s .badUnit ∧
      Raises (.mixSet u) s .badUnit ∧ Raises (.mixP u) s .badUnit) ∧
    (s.bh.length ≤ u.toNat → Raises (.bhLookup u) s .badUnit ∧ Raises (.bhRd u) s .badUnit ∧
      Raises (.bhWr u) s .badUnit) ∧
    (s.cm.length ≤ u.toNat → Raises (.cmSet u) s .badUnit ∧ Raises (.cmMix u x) s .badUnit) ∧
    (s.rcm.length ≤ u.toNat → Raises (.rcmSet u) s .badUnit ∧ Raises (.rcmMix u x) s .badUnit) ∧
    (s.sscm.length ≤ u.toNat → Raises (.sscmSet u) s .badUnit ∧ Raises (.sscmMix u x r) s .badUnit) ∧
    (s.mix.length ≤ x.toNat →
      (u.toNat < s.cm.length → Raises (.cmMix u x) s .badMixu) ∧
      (u.toNat < s.rcm.length → Raises (.rcmMix u x) s .badMixu) ∧
      (u.toNat < s.sscm.length → Raises (.sscmMix u x r) s .badMixu))

/-- 30_encoding.md R56, 60_exceptions.md R119 (code 4), R121: an operand out of its range, once the units exist. -/
def Obligations.OperandsOutOfRangeAreRefused : Prop :=
  ∀ (s : State) (u x r : BitVec 8),
    (let a0 := s.latch.a0.toNat
     let a1 := s.latch.a1.toNat
     let a2 := s.latch.a2.toNat
     (4095 < a0 → Raises .stretch s .argRange ∧ Raises .bitEnd s .argRange) ∧
     (65535 < a0 → Raises .ilog s .argRange) ∧
     (252 < a0 → Raises .fsmCounts s .argRange ∧
       ∀ b, Raises (.fsmNext b) s .argRange ∧ Raises (.fsmNextp b) s .argRange) ∧
     (u.toNat < s.sm.length → 255 < a0 → Raises (.smP u) s .argRange) ∧
     (∀ w, s.apm[u.toNat]? = some w → (r.toNat = 0 ∨ 15 < r.toNat ∨ 4095 < a0 ∨ w.rows ≤ a1) →
       Raises (.apmP u r) s .argRange) ∧
     (u.toNat < s.mix.length → (s.latch.a0.toInt < -32768 ∨ 32767 < s.latch.a0.toInt) →
       Raises (.mixAdd u) s .argRange) ∧
     (∀ w, s.bh[u.toNat]? = some w →
       ((w.ns ≤ a0 ∨ w.b ≤ a1) → Raises (.bhRd u) s .argRange) ∧
       ((w.ns ≤ a0 ∨ a1 < 2 ∨ w.b ≤ a1 ∨ 255 < a2) → Raises (.bhWr u) s .argRange)) ∧
     (u.toNat < s.sscm.length → x.toNat < s.mix.length → (r.toNat < 2 ∨ 15 < r.toNat) →
       Raises (.sscmMix u x r) s .argRange))

/-- 60_exceptions.md R119 (codes 5 to 8), R121: the capacity errors, tested on the state before the command and after
every other check, a full mixer before a selector's range, with the sum not wrapped. -/
def Obligations.CapacityErrorsAreRefused : Prop :=
  ∀ (s : State) (u x r : BitVec 8),
    (∀ m, s.mix[u.toNat]? = some m →
      (-32768 ≤ s.latch.a0.toInt → s.latch.a0.toInt ≤ 32767 → (m.own.n + 7) / 8 * 8 ≤ m.own.nx →
        Raises (.mixAdd u) s .mixAddFull) ∧
      (m.own.s ≤ m.own.ncxt → Raises (.mixSet u) s .mixSetFull) ∧
      (m.own.ncxt < m.own.s → (s.latch.a1 = 0 ∨ s.latch.a1.toNat ≤ s.latch.a0.toNat ∨
        m.own.m < m.own.base + s.latch.a1.toNat) → Raises (.mixSet u) s .mixSetRange)) ∧
    (∀ w, s.cm[u.toNat]? = some w → w.ctxs.length ≤ w.cn → Raises (.cmSet u) s .cmSetFull) ∧
    ∀ m, s.mix[x.toNat]? = some m →
      (∀ w, s.cm[u.toNat]? = some w → (m.own.n + 7) / 8 * 8 < m.own.nx + 6 * w.ctxs.length →
        Raises (.cmMix u x) s .mixAddFull) ∧
      (u.toNat < s.rcm.length → (m.own.n + 7) / 8 * 8 ≤ m.own.nx → Raises (.rcmMix u x) s .mixAddFull) ∧
      (u.toNat < s.sscm.length → 2 ≤ r.toNat → r.toNat ≤ 15 → (m.own.n + 7) / 8 * 8 ≤ m.own.nx →
        Raises (.sscmMix u x r) s .mixAddFull)

/-- 40_global_context.md R65, 20_memory.md R51, 60_exceptions.md R121: the errors of DBG_RD, in the order of the checks.
A mixer has a stage 1 iff it has a child. -/
def Obligations.DbgErrorsAreRefused : Prop :=
  ∀ (s : State) (u x : BitVec 8),
    (let i := s.latch.a0.toNat
     let j := s.latch.a1.toNat
     (u ≠ 0 → Raises (.dbgRd .buf u 0) s .badUnit ∧ Raises (.dbgRd .rngWord u 0) s .badUnit) ∧
     (s.sm.length ≤ u.toNat → Raises (.dbgRd .smEntry u 0) s .badUnit) ∧
     (s.apm.length ≤ u.toNat → Raises (.dbgRd .apmEntry u 0) s .badUnit) ∧
     (s.bh.length ≤ u.toNat → Raises (.dbgRd .bhByte u 0) s .badUnit) ∧
     (s.cm.length ≤ u.toNat → ∀ c ∈ [DbgClass.cmByte, .cmContext, .cmStateMap], Raises (.dbgRd c u 0) s .badUnit) ∧
     (s.rcm.length ≤ u.toNat → ∀ c ∈ [DbgClass.rcmByte, .rcmPointer], Raises (.dbgRd c u 0) s .badUnit) ∧
     (s.sscm.length ≤ u.toNat → ∀ c ∈ [DbgClass.sscmEntry, .sscmPointers], Raises (.dbgRd c u 0) s .badUnit) ∧
     (∀ c ∈ [DbgClass.mixWeight, .mixInput, .mixSelection, .mixCounters],
       (s.mix.length ≤ u.toNat → Raises (.dbgRd c u x) s .badUnit) ∧
       ∀ m, s.mix[u.toNat]? = some m →
         (1 < x.toNat ∨ (x = 1 ∧ m.child = none)) → Raises (.dbgRd c u x) s .badMixu) ∧
     (2 ^ 24 ≤ i → Raises (.dbgRd .buf 0 0) s .argRange) ∧ (64 ≤ i → Raises (.dbgRd .rngWord 0 0) s .argRange) ∧
     (u.toNat < s.sm.length → 256 ≤ i → Raises (.dbgRd .smEntry u 0) s .argRange) ∧
     (∀ w, s.apm[u.toNat]? = some w → 33 * w.rows ≤ i → Raises (.dbgRd .apmEntry u 0) s .argRange) ∧
     (∀ w, s.bh[u.toNat]? = some w → w.ns * w.b ≤ i → Raises (.dbgRd .bhByte u 0) s .argRange) ∧
     (∀ w, s.cm[u.toNat]? = some w → (64 * w.e ≤ i → Raises (.dbgRd .cmByte u 0) s .argRange) ∧
       ((5 ≤ i ∨ w.ctxs.length ≤ j) → Raises (.dbgRd .cmContext u 0) s .argRange) ∧
       ((256 ≤ i ∨ w.ctxs.length ≤ j) → Raises (.dbgRd .cmStateMap u 0) s .argRange)) ∧
     (∀ w, s.rcm[u.toNat]? = some w → (4 * w.ns ≤ i → Raises (.dbgRd .rcmByte u 0) s .argRange) ∧
       (i ≠ 0 → Raises (.dbgRd .rcmPointer u 0) s .argRange)) ∧
     (∀ w, s.sscm[u.toNat]? = some w → (w.ne ≤ i → Raises (.dbgRd .sscmEntry u 0) s .argRange) ∧
       (2 ≤ i → Raises (.dbgRd .sscmPointers u 0) s .argRange)) ∧
     ∀ m stage, s.mix[u.toNat]? = some m → (x = 0 ∧ stage = m.own) ∨ (x = 1 ∧ m.child = some stage) →
       (stage.cap * stage.m ≤ i → Raises (.dbgRd .mixWeight u x) s .argRange) ∧
       (stage.cap ≤ i → Raises (.dbgRd .mixInput u x) s .argRange) ∧
       (stage.s ≤ i → Raises (.dbgRd .mixSelection u x) s .argRange) ∧
       (3 ≤ i → Raises (.dbgRd .mixCounters u x) s .argRange))

/-- 45_contextmap.md R104: the pending update looks up the slots of bit positions 2 and 5 of the byte stored in the current
slot, writes the three cells on the path of its bits in each, each cell 1 + its bit, and clears cell 6 of the current slot.
Every other byte is as the two lookups leave it; `CmGetFindsOrReplaces` describes the lookup. -/
def Obligations.PendingUpdateSeedsTwoSlots : Prop :=
  ∀ (e : Nat) (tab : Memory 8) (cxt : Word) (cp0 : Nat),
    (let c := (byteAt tab (cp0 + 4)).toNat + 256
     let get := fun t x => cmGet t ((cxt.toNat + x) &&& (e - 1)) (cxt.extractLsb' 16 16)
     let seeded := fun (r : Memory 8 × Nat) (z a : Nat) =>
       if a = r.2 then 1 + c / 2 ^ (z + 2) % 2
       else if a = r.2 + 1 + c / 2 ^ (z + 2) % 2 then 1 + c / 2 ^ (z + 1) % 2
       else if a = r.2 + 3 + c / 2 ^ (z + 1) % 4 then 1 + c / 2 ^ z % 2
       else (byteAt r.1 a).toNat
     ∃ mid : Memory 8, (∀ a, (byteAt mid a).toNat = seeded (get tab (c / 64)) 3 a) ∧
       ∀ a, (byteAt (cmPending e tab cxt cp0) a).toNat = if a = cp0 + 6 then 0 else seeded (get mid (c / 8)) 0 a)
end

