-- ==== Sys2Proof/Laws/Codec.lean ====
section
/-! SUPPORT. The fields of a word of format C, and the code of a memory class. -/

namespace Sys2Proof

theorem formatC_toNat (op unit mixu imm : BitVec 8) :
    (formatC op unit mixu imm).toNat =
      op.toNat * 2 ^ 24 + unit.toNat * 2 ^ 16 + mixu.toNat * 2 ^ 8 + imm.toNat := by
  have h : ∀ {n : Nat} (a : BitVec n) (b : BitVec 8), (a ++ b).toNat = a.toNat * 2 ^ 8 + b.toNat := by
    intro n a b
    rw [BitVec.toNat_append, Nat.shiftLeft_eq, Nat.mul_comm, ← Nat.two_pow_add_eq_or_of_lt b.isLt]
  simp only [formatC, h]
  omega

theorem opField_toNat (w : Word) : (opField w).toNat = w.toNat / 2 ^ 24 := by
  have := w.isLt
  simp only [opField, BitVec.extractLsb'_toNat, Nat.shiftRight_eq_div_pow]; omega

theorem unitField_toNat (w : Word) : (unitField w).toNat = w.toNat / 2 ^ 16 % 2 ^ 8 := by
  simp only [unitField, BitVec.extractLsb'_toNat, Nat.shiftRight_eq_div_pow]

theorem mixuField_toNat (w : Word) : (mixuField w).toNat = w.toNat / 2 ^ 8 % 2 ^ 8 := by
  simp only [mixuField, BitVec.extractLsb'_toNat, Nat.shiftRight_eq_div_pow]

theorem immField_toNat (w : Word) : (immField w).toNat = w.toNat % 2 ^ 8 := by
  simp only [immField, BitVec.extractLsb'_toNat, Nat.shiftRight_eq_div_pow]; omega

@[simp] theorem opField_formatC (op unit mixu imm : BitVec 8) : opField (formatC op unit mixu imm) = op := by
  apply BitVec.eq_of_toNat_eq
  have := unit.isLt; have := mixu.isLt; have := imm.isLt
  rw [opField_toNat, formatC_toNat]; omega

@[simp] theorem unitField_formatC (op unit mixu imm : BitVec 8) : unitField (formatC op unit mixu imm) = unit := by
  apply BitVec.eq_of_toNat_eq
  have := unit.isLt; have := mixu.isLt; have := imm.isLt
  rw [unitField_toNat, formatC_toNat]; omega

@[simp] theorem mixuField_formatC (op unit mixu imm : BitVec 8) : mixuField (formatC op unit mixu imm) = mixu := by
  apply BitVec.eq_of_toNat_eq
  have := unit.isLt; have := mixu.isLt; have := imm.isLt
  rw [mixuField_toNat, formatC_toNat]; omega

@[simp] theorem immField_formatC (op unit mixu imm : BitVec 8) : immField (formatC op unit mixu imm) = imm := by
  apply BitVec.eq_of_toNat_eq
  have := unit.isLt; have := mixu.isLt; have := imm.isLt
  rw [immField_toNat, formatC_toNat]; omega

/-- A word is the word of its four fields. -/
theorem formatC_fields (w : Word) : formatC (opField w) (unitField w) (mixuField w) (immField w) = w := by
  apply BitVec.eq_of_toNat_eq
  rw [formatC_toNat, opField_toNat, unitField_toNat, mixuField_toNat, immField_toNat]; omega

@[simp] theorem DbgClass.ofCode_code (c : DbgClass) : DbgClass.ofCode c.code = some c := by
  cases c <;> rfl

theorem DbgClass.code_ofCode (k : BitVec 8) (c : DbgClass) (h : DbgClass.ofCode k = some c) : c.code = k := by
  revert k c
  decide +kernel

/-- A memory class exists for exactly the codes 0 to 15 (20_memory.md R51). -/
theorem DbgClass.ofCode_eq_none (k : BitVec 8) : DbgClass.ofCode k = none ↔ 16 ≤ k.toNat := by
  revert k
  decide +kernel

/-- The two parts of an immediate that holds one bit (30_encoding.md R54). -/
theorem bit_imm (b : BitVec 1) :
    (b.setWidth 8).extractLsb' 1 7 = 0 ∧ (b.setWidth 8).extractLsb' 0 1 = b := by
  revert b
  decide

theorem imm_bit (k : BitVec 8) (h : k.extractLsb' 1 7 = 0) : (k.extractLsb' 0 1).setWidth 8 = k := by
  revert k
  decide

theorem requireZero_eq_ok {zero : Bool} {i j : Instr} (h : requireZero zero i = .ok j) : zero = true ∧ i = j := by
  unfold requireZero at h
  split at h
  · exact ⟨by assumption, by simpa using h⟩
  · simp at h

end Sys2Proof
end

