-- ==== Sys2Proof/Laws/Memory.lean ====
section
/-! SUPPORT. The laws of the sparse memories: a read after a write, in any list, and that every operation keeps the
canonical form. -/

namespace Sys2Proof.Machine

theorem Memory.read_erase {w : Nat} (d : Nat → BitVec w) (m : Memory w) (a b : Nat) :
    Memory.read d (m.erase a) b = if b = a then d a else Memory.read d m b := by
  induction m with
  | nil => by_cases h : b = a <;> simp [Memory.erase, Memory.read, h]
  | cons c m ih =>
    simp only [Memory.erase] at ih ⊢
    by_cases hc : c.1 = a <;> by_cases hb : b = a <;> by_cases hcb : c.1 = b <;>
      simp_all [Memory.read]

theorem Memory.read_insert {w : Nat} (d : Nat → BitVec w) (m : Memory w) (a b : Nat) (v : BitVec w)
    (h : ∀ c ∈ m, c.1 ≠ a) :
    Memory.read d (m.insert a v) b = if b = a then v else Memory.read d m b := by
  induction m with
  | nil => by_cases hb : b = a <;> simp [Memory.insert, Memory.read, hb]; omega
  | cons c m ih =>
    have hc : c.1 ≠ a := h c (by simp)
    have ih' := ih fun x hx => h x (by simp [hx])
    unfold Memory.insert
    split
    · by_cases hb : b = a
      · subst hb; simp_all [Memory.read]
      · by_cases hcb : c.1 = b <;> simp_all [Memory.read]
    · by_cases hb : b = a
      · simp [Memory.read, hb]
      · have : ¬a = b := fun e => hb e.symm
        simp [Memory.read, hb, this]

/-- A read after a write, in any memory. -/
theorem Memory.read_write {w : Nat} (d : Nat → BitVec w) (m : Memory w) (a b : Nat) (v : BitVec w) :
    Memory.read d (m.write d a v) b = if b = a then v else Memory.read d m b := by
  unfold Memory.write
  split
  · rename_i hv
    rw [Memory.read_erase, hv]
  · rw [Memory.read_insert _ _ _ _ _ (by simp [Memory.erase]), Memory.read_erase]
    split <;> rfl

/-- A read as a lookup in the list of cells. -/
theorem Memory.read_eq_lookup {w : Nat} (d : Nat → BitVec w) (m : Memory w) (a : Nat) :
    m.read d a = (List.lookup a m).getD (d a) := by
  induction m with
  | nil => rfl
  | cons c m ih =>
    obtain ⟨b, v⟩ := c
    by_cases h : b = a
    · subst h; simp [Memory.read]
    · have h' : (a == b) = false := by simpa using Ne.symm h
      simp [Memory.read, List.lookup_cons, h, h', ih]

theorem Memory.erase_wf {w : Nat} {d : Nat → BitVec w} {size : Nat} {m : Memory w} (h : m.wf d size) (a : Nat) :
    (m.erase a).wf d size :=
  ⟨h.1.filter _, fun c hc => h.2 c (List.mem_of_mem_filter hc)⟩

theorem Memory.mem_insert {w : Nat} {m : Memory w} {a : Nat} {v : BitVec w} {c : Nat × BitVec w} :
    c ∈ Memory.insert a v m ↔ c = (a, v) ∨ c ∈ m := by
  induction m with
  | nil => simp [Memory.insert]
  | cons x m ih =>
    unfold Memory.insert
    split
    · simp only [List.mem_cons, ih]; tauto
    · simp only [List.mem_cons]

theorem Memory.insert_pairwise {w : Nat} {m : Memory w} (a : Nat) (v : BitVec w)
    (h : m.Pairwise fun c c' => c.1 < c'.1) (ha : ∀ c ∈ m, c.1 ≠ a) :
    (m.insert a v).Pairwise fun c c' => c.1 < c'.1 := by
  induction m with
  | nil => simp [Memory.insert]
  | cons x m ih =>
    obtain ⟨hx, hm⟩ := List.pairwise_cons.1 h
    have hxa := ha x (by simp)
    unfold Memory.insert
    split
    · rename_i hlt
      refine List.pairwise_cons.2 ⟨fun c hc => ?_, ih hm fun c hc => ha c (by simp [hc])⟩
      obtain rfl | hc := Memory.mem_insert.1 hc
      · exact hlt
      · exact hx c hc
    · rename_i hlt
      refine List.pairwise_cons.2 ⟨fun c hc => ?_, h⟩
      obtain rfl | hc := List.mem_cons.1 hc
      · show a < _; omega
      · have := hx c hc; show a < _; omega

/-- A write inside the memory keeps the canonical form. -/
theorem Memory.write_wf {w : Nat} {d : Nat → BitVec w} {size : Nat} {m : Memory w} (h : m.wf d size) {a : Nat}
    (ha : a < size) (v : BitVec w) : (m.write d a v).wf d size := by
  have he := Memory.erase_wf h a
  unfold Memory.write
  split
  · exact he
  · rename_i hv
    refine ⟨Memory.insert_pairwise a v he.1 (by simp [Memory.erase]), fun c hc => ?_⟩
    obtain rfl | hc := Memory.mem_insert.1 hc
    · exact ⟨ha, hv⟩
    · exact he.2 c hc

/-- Two canonical memories that read alike are equal data. -/
theorem Memory.ext_of_wf {w : Nat} {d : Nat → BitVec w} {size : Nat} {m m' : Memory w} (h : m.wf d size)
    (h' : m'.wf d size) (hr : ∀ a, m.read d a = m'.read d a) : m = m' := by
  have head : ∀ (c : Nat × BitVec w) (l : Memory w), Memory.wf d size (c :: l) → ∀ a, a < c.1 →
      Memory.read d (c :: l) a = d a := by
    intro c l hl a ha
    have : ∀ l : Memory w, (∀ x ∈ l, a < x.1) → Memory.read d l a = d a := by
      intro l
      induction l with
      | nil => intro _; rfl
      | cons y l ih =>
        intro hy
        have h1 := hy y (by simp)
        unfold Memory.read
        rw [if_neg (by omega)]
        exact ih fun x hx => hy x (by simp [hx])
    refine this _ fun x hx => ?_
    obtain rfl | hx := List.mem_cons.1 hx
    · exact ha
    · exact lt_trans ha ((List.pairwise_cons.1 hl.1).1 x hx)
  have tail : ∀ (c : Nat × BitVec w) (l : Memory w), Memory.wf d size (c :: l) → Memory.wf d size l := fun c l hl =>
    ⟨(List.pairwise_cons.1 hl.1).2, fun x hx => hl.2 x (by simp [hx])⟩
  have here : ∀ (c : Nat × BitVec w) (l : Memory w), Memory.read d (c :: l) c.1 = c.2 := by
    intro c l; simp [Memory.read]
  induction m generalizing m' with
  | nil =>
    cases m' with
    | nil => rfl
    | cons c l => exact absurd (by rw [← here c l, ← hr]; rfl) (h'.2 c (by simp)).2
  | cons c l ih =>
    cases m' with
    | nil => exact absurd (by rw [← here c l, hr]; rfl) (h.2 c (by simp)).2
    | cons c' l' =>
      have hk : c.1 = c'.1 := by
        rcases lt_trichotomy c.1 c'.1 with hlt | heq | hgt
        · exact absurd (by rw [← here c l, hr, head c' l' h' _ hlt]) (h.2 c (by simp)).2
        · exact heq
        · exact absurd (by rw [← here c' l', ← hr, head c l h _ hgt]) (h'.2 c' (by simp)).2
      have hv : c.2 = c'.2 := by rw [← here c l, hr, hk, here c' l']
      have hc : c = c' := Prod.ext hk hv
      subst hc
      refine congrArg _ (ih (tail c l h) (tail c l' h') fun a => ?_)
      have ha := hr a
      unfold Memory.read at ha
      split at ha
      · rename_i hca
        have below : ∀ l : Memory w, Memory.wf d size (c :: l) → Memory.read d l a = d a := by
          intro l hl
          cases l with
          | nil => rfl
          | cons x l => exact head x l (tail c _ hl) a (by
              have := (List.pairwise_cons.1 hl.1).1 x (by simp); omega)
        rw [below l h, below l' h']
      · exact ha

/-- An empty memory is canonical. -/
@[simp] theorem Memory.nil_wf {w : Nat} (d : Nat → BitVec w) (size : Nat) : Memory.wf d size ([] : Memory w) := by
  simp [Memory.wf]

@[simp] theorem Memory.read_nil {w : Nat} (d : Nat → BitVec w) (a : Nat) : Memory.read d ([] : Memory w) a = d a := rfl

theorem byteAt_putByte (m : Memory 8) (a b : Nat) (v : Byte) :
    byteAt (putByte m a v) b = if b = a then v else byteAt m b :=
  Memory.read_write zeros m a b v

@[simp] theorem byteAt_nil (a : Nat) : byteAt [] a = 0 := rfl

theorem putByte_wf {size : Nat} {m : Memory 8} (h : m.wf zeros size) {a : Nat} (ha : a < size) (v : Byte) :
    (putByte m a v).wf zeros size :=
  Memory.write_wf h ha v

/-- The two bytes of a 16-bit store (20_memory.md R38). -/
theorem byteAt_write16 (m : Memory 8) (a b : Nat) (v : BitVec 16) :
    byteAt (write16 m a v) b =
      if b = a then v.extractLsb' 0 8 else if b = a + 1 then v.extractLsb' 8 8 else byteAt m b := by
  simp only [write16, byteAt_putByte]
  by_cases h : b = a <;> by_cases h' : b = a + 1 <;> simp_all

theorem read16_write16 (m : Memory 8) (a : Nat) (v : BitVec 16) : read16 (write16 m a v) a = v := by
  simp only [read16, byteAt_write16]
  simp only [show ¬a + 1 = a by omega, if_false, if_true]
  exact halves v
where
  halves (v : BitVec 16) : v.extractLsb' 8 8 ++ v.extractLsb' 0 8 = v := by
    apply BitVec.eq_of_toNat_eq
    rw [BitVec.toNat_append, Nat.shiftLeft_eq, Nat.mul_comm, ← Nat.two_pow_add_eq_or_of_lt (BitVec.isLt _)]
    simp only [BitVec.extractLsb'_toNat, Nat.shiftRight_eq_div_pow]
    have := v.isLt
    omega

theorem write16_wf {size : Nat} {m : Memory 8} (h : m.wf zeros size) {a : Nat} (ha : a + 1 < size) (v : BitVec 16) :
    (write16 m a v).wf zeros size :=
  putByte_wf (putByte_wf h (by omega) _) ha _

/-- The checksum at `a` as the number its two bytes make. -/
theorem read16_toNat (m : Memory 8) (a : Nat) :
    (read16 m a).toNat = (byteAt m a).toNat + 256 * (byteAt m (a + 1)).toNat := by
  simp only [read16, BitVec.toNat_append]
  rw [Nat.shiftLeft_eq, Nat.mul_comm, ← Nat.two_pow_add_eq_or_of_lt (i := 8) (byteAt m a).isLt]
  omega

theorem length_readBytes (m : Memory 8) (a n : Nat) : (readBytes m a n).length = n := by
  induction n generalizing a with
  | zero => rfl
  | succ n ih => simp [readBytes, ih]

theorem getD_readBytes (m : Memory 8) (a n k : Nat) (h : k < n) : (readBytes m a n).getD k 0 = byteAt m (a + k) := by
  induction n generalizing a k with
  | zero => omega
  | succ n ih =>
    cases k with
    | zero => rfl
    | succ k => simpa [readBytes, Nat.add_assoc, Nat.add_comm 1 k] using ih (a + 1) k (by omega)

theorem byteAt_writeBytes (m : Memory 8) (a b : Nat) (vs : List Byte) :
    byteAt (writeBytes m a vs) b = if a ≤ b ∧ b < a + vs.length then vs.getD (b - a) 0 else byteAt m b := by
  induction vs generalizing m a with
  | nil => simp [writeBytes]
  | cons v vs ih =>
    simp only [writeBytes, ih, byteAt_putByte, List.length_cons]
    by_cases h : b = a
    · subst h; simp
    · by_cases h2 : a + 1 ≤ b ∧ b < a + 1 + vs.length
      · rw [if_pos h2, if_pos (by omega)]
        obtain ⟨d, rfl⟩ : ∃ d, b = a + 1 + d := ⟨b - (a + 1), by omega⟩
        rw [show a + 1 + d - (a + 1) = d by omega, show a + 1 + d - a = d + 1 by omega]
        rfl
      · rw [if_neg h2, if_neg h, if_neg (by omega)]

theorem writeBytes_wf {size : Nat} (vs : List Byte) {m : Memory 8} (h : m.wf zeros size) {a : Nat}
    (ha : a + vs.length ≤ size) : (writeBytes m a vs).wf zeros size := by
  induction vs generalizing m a with
  | nil => exact h
  | cons v vs ih =>
    simp only [List.length_cons] at ha
    exact ih (putByte_wf h (by omega) v) (by omega)

end Sys2Proof.Machine
end

