-- ==== Sys2Proof/Laws/Generator.lean ====
section
/-! SUPPORT. What a draw, a state update and the fold of a bit do, said once. -/

namespace Sys2Proof.Machine

/-- What a draw does (41_tables_fsm.md R71). -/
theorem rngNext_spec (r : Generator) (h : r.t.length = 64) :
    (rngNext r).1.t.length = 64 ∧ (rngNext r).1.i.toNat = (r.i.toNat + 1) % 64 ∧
    (rngNext r).2 = r.t.getD (((rngNext r).1.i.toNat + 40) % 64) 0 ^^^ r.t.getD (((rngNext r).1.i.toNat + 9) % 64) 0 ∧
    ∀ k < 64, (rngNext r).1.t.getD k 0 = if k = (rngNext r).1.i.toNat then (rngNext r).2 else r.t.getD k 0 := by
  have hi := (r.i + 1).isLt
  refine ⟨by simp [rngNext, h], by simp [rngNext, BitVec.toNat_add], ?_, fun k hk => ?_⟩
  · have e : ∀ c : BitVec 6, ∀ j : Nat, (64 - c.toNat + j) % 64 = ((64 - c.toNat) + j) % 64 := fun _ _ => rfl
    simp only [rngNext, Generator.word, BitVec.toNat_sub]
    congr 2
    · congr 1; simp; omega
    · congr 1; simp; omega
  · change (r.t.set (r.i + 1).toNat (rngNext r).2).getD k 0 =
      if k = (r.i + 1).toNat then (rngNext r).2 else r.t.getD k 0
    by_cases hki : k = (r.i + 1).toNat
    · rw [if_pos hki, hki, List.getD_eq_getElem _ _ (by simp; omega)]
      simp
    · rw [if_neg hki, List.getD_eq_getElem _ _ (by simp; omega), List.getD_eq_getElem _ _ (by omega)]
      rw [List.getElem_set_ne (by omega)]

theorem rngNext_ok {r : Generator} (h : r.Ok) : (rngNext r).1.Ok := ⟨(rngNext_spec r h.words).1⟩

/-- What the update of a state can do (41_tables_fsm.md R72). -/
theorem fsmStep_cases (c : Config) (r : Generator) (s : Byte) (b : BitVec 1) :
    ((nex c s b).toNat < 204 ∧ fsmStep c r s b = (r, nex c s b)) ∨
    (204 ≤ (nex c s b).toNat ∧ (rngNext r).2 <<< ((452 - (nex c s b).toNat) / 8) ≠ 0 ∧
      fsmStep c r s b = ((rngNext r).1, nex c s b - 4)) ∨
    (204 ≤ (nex c s b).toNat ∧ (rngNext r).2 <<< ((452 - (nex c s b).toNat) / 8) = 0 ∧
      fsmStep c r s b = ((rngNext r).1, nex c s b)) := by
  by_cases h : 204 ≤ (nex c s b).toNat
  · by_cases h2 : (rngNext r).2 <<< ((452 - (nex c s b).toNat) / 8) = 0
    · exact .inr (.inr ⟨h, h2, by simp only [fsmStep, if_pos h, h2, ne_eq, not_true_eq_false, if_false]⟩)
    · exact .inr (.inl ⟨h, h2, by simp only [fsmStep, if_pos h, ne_eq, h2, not_false_eq_true, if_true]⟩)
  · exact .inl ⟨by omega, by simp [fsmStep, h]⟩

/-- When a draw shifted left is 0, in the naturals. -/
theorem shiftLeft_eq_zero_iff (d : Word) (k : Nat) : d <<< k = 0 ↔ d.toNat * 2 ^ k % 2 ^ 32 = 0 := by
  rw [← BitVec.toNat_inj, BitVec.toNat_shiftLeft, Nat.shiftLeft_eq]; rfl

/-- `buf(i)` with the difference in the naturals (40_global_context.md R61). -/
theorem GlobalContext.bufBack_eq (g : GlobalContext) (i : Nat) (hi : i ≤ 2 ^ 24) : g.bufBack i = g.byteBack i := by
  unfold GlobalContext.bufBack GlobalContext.byteBack bufLog2
  congr 1; omega

theorem fsmStep_ok {c : Config} {r : Generator} (h : r.Ok) (s : Byte) (b : BitVec 1) : (fsmStep c r s b).1.Ok := by
  rcases fsmStep_cases c r s b with ⟨_, e⟩ | ⟨_, _, e⟩ | ⟨_, _, e⟩ <;> rw [e]
  · exact h
  · exact rngNext_ok h
  · exact rngNext_ok h

/-- What the fold of a bit does: in the middle of a byte, or at its end (40_global_context.md R63). -/
theorem GlobalContext.fold_cases (g : GlobalContext) (b : BitVec 1) :
    (2 * g.c0.toNat + b.toNat < 256 ∧
      g.fold b = { g with y := b, bpos := g.bpos + 1, c0 := BitVec.ofNat 8 (2 * g.c0.toNat + b.toNat) }) ∨
    (256 ≤ 2 * g.c0.toNat + b.toNat ∧
      g.fold b = { g with
        y := b, bpos := g.bpos + 1, c0 := 1, pos := g.pos + 1
        c4 := (g.c4 <<< 8) ||| (BitVec.ofNat 8 (2 * g.c0.toNat + b.toNat - 256)).setWidth 32
        buf := putByte g.buf (g.pos.toNat % 2 ^ bufLog2) (BitVec.ofNat 8 (2 * g.c0.toNat + b.toNat - 256)) }) := by
  by_cases h : 2 * g.c0.toNat + b.toNat < 256
  · refine .inl ⟨h, ?_⟩
    simp only [GlobalContext.fold, bitVal, Nat.mul_comm g.c0.toNat 2]
    rw [if_neg (by omega)]
  · refine .inr ⟨by omega, ?_⟩
    simp only [GlobalContext.fold, bitVal, Nat.mul_comm g.c0.toNat 2]
    rw [if_pos (by omega)]

theorem log2_double (n b : Nat) (hn : n ≠ 0) (hb : b < 2) : Nat.log2 (2 * n + b) = Nat.log2 n + 1 := by
  rw [Nat.log2_eq_iff (by omega), pow_succ, pow_succ]
  have h1 := Nat.log2_self_le hn
  have h2 := Nat.lt_log2_self (n := n)
  rw [pow_succ] at h2
  constructor
  · omega
  · rw [pow_succ]; omega

/-- The fold keeps the invariant of the global bit context (10_state.md R26). -/
theorem GlobalContext.fold_ok {g : GlobalContext} (h : g.Ok) (b : BitVec 1) : (g.fold b).Ok := by
  have hb := b.isLt
  have hc : g.c0.toNat ≠ 0 := fun e => h.c0 (BitVec.eq_of_toNat_eq e)
  have hlog := log2_double g.c0.toNat b.toNat hc (by omega)
  have hp := h.bpos
  have hc8 := g.c0.isLt
  have hp8 := g.bpos.isLt
  rcases g.fold_cases b with ⟨hlt, e⟩ | ⟨hge, e⟩ <;> rw [e]
  · refine ⟨fun e0 => ?_, ?_, h.buf⟩
    · have := congrArg BitVec.toNat e0
      simp at this; omega
    · have h7 : Nat.log2 (2 * g.c0.toNat + b.toNat) < 8 := (Nat.log2_lt (by omega)).2 hlt
      simp [BitVec.toNat_add, Nat.mod_eq_of_lt hlt, hlog, hp]
      omega
  · have hw : ∀ v, Memory.wf zeros (2 ^ bufLog2) (putByte g.buf (g.pos.toNat % 2 ^ bufLog2) v) := fun v =>
      putByte_wf h.buf (Nat.mod_lt _ (Nat.two_pow_pos bufLog2)) v
    generalize BitVec.ofNat 8 (2 * g.c0.toNat + b.toNat - 256) = v
    have hw := hw v
    generalize putByte g.buf (g.pos.toNat % 2 ^ bufLog2) v = m at hw
    refine ⟨(by decide : (1 : Byte) ≠ 0), ?_, hw⟩
    have h8 : Nat.log2 (2 * g.c0.toNat + b.toNat) = 8 := (Nat.log2_eq_iff (by omega)).2 ⟨by omega, by omega⟩
    have h1 : Nat.log2 (1 : Byte).toNat = 0 := by decide
    rw [h1]
    simp [BitVec.toNat_add]
    omega

end Sys2Proof.Machine
end

