-- ==== Sys2Proof/Laws/HashTables.lean ====
section
/-! SUPPORT. What the hash lookups and the run record do, said once: `bhLookup`, `runUpdate`. -/

namespace Sys2Proof.Machine

/-- The number a slot's checksum bytes make. -/
def slotCheck (t : Memory 8) (a : Nat) : Nat := (byteAt t a).toNat + 256 * (byteAt t (a + 1)).toNat

theorem read16_eq_iff (t : Memory 8) (a : Nat) (v : BitVec 16) : read16 t a = v ↔ slotCheck t a = v.toNat := by
  rw [← BitVec.toNat_inj, read16_toNat]; rfl

/-- Whether the scan ends at the slot at `a`: it is empty or has the checksum (44_hash_bh.md R96). -/
def slotEnds (t : Memory 8) (chk : BitVec 16) (a : Nat) : Prop :=
  byteAt t (a + 2) = 0 ∨ slotCheck t a = chk.toNat

/-- The scan of a bucket from position `j`, `n` positions (44_hash_bh.md R96): where it ends, and that it writes only the
checksum of the slot it ends at. -/
theorem bhScan_spec (b i : Nat) (chk : BitVec 16) (n j : Nat) (t : Memory 8) :
    ∃ p, (bhScan b i chk n j t).2 = p ∧ j ≤ p ∧ p ≤ j + n ∧
      (∀ q, j ≤ q → q < p → ¬slotEnds t chk ((i + q) * b)) ∧
      (p < j + n → slotEnds t chk ((i + p) * b) ∧
        slotCheck (bhScan b i chk n j t).1 ((i + p) * b) = chk.toNat ∧
        ∀ a, a ≠ (i + p) * b → a ≠ (i + p) * b + 1 → byteAt (bhScan b i chk n j t).1 a = byteAt t a) ∧
      (p = j + n → (bhScan b i chk n j t).1 = t) := by
  induction n generalizing j with
  | zero => exact ⟨j, rfl, le_refl _, le_refl _, fun q h1 h2 => by omega, fun h => by omega, fun _ => rfl⟩
  | succ n ih =>
    by_cases he : byteAt t ((i + j) * b + 2) = 0
    · have hs : bhScan b i chk (n + 1) j t = (write16 t ((i + j) * b) chk, j) := by
        simp only [bhScan, if_pos he, read16_write16, if_true]
      refine ⟨j, by rw [hs], le_refl _, by omega, fun q h1 h2 => by omega, fun _ => ⟨.inl he, ?_, fun a h1 h2 => ?_⟩,
        fun h => by omega⟩
      · rw [hs, ← (read16_eq_iff _ _ _).1 (read16_write16 t ((i + j) * b) chk)]
      · rw [hs, byteAt_write16, if_neg h1, if_neg h2]
    · by_cases hm : read16 t ((i + j) * b) = chk
      · have hs : bhScan b i chk (n + 1) j t = (t, j) := by
          simp only [bhScan, if_neg he, if_pos hm]
        refine ⟨j, by rw [hs], le_refl _, by omega, fun q h1 h2 => by omega,
          fun _ => ⟨.inr ((read16_eq_iff _ _ _).1 hm), ?_, fun a h1 h2 => by rw [hs]⟩, fun h => by omega⟩
        rw [hs]; exact (read16_eq_iff _ _ _).1 hm
      · have hs : bhScan b i chk (n + 1) j t = bhScan b i chk n (j + 1) t := by
          simp only [bhScan, if_neg he, if_neg hm]
        obtain ⟨p, h1, h2, h3, h4, h5, h6⟩ := ih (j + 1)
        rw [hs]
        refine ⟨p, h1, by omega, by omega, fun q hq1 hq2 => ?_, fun hp => h5 (by omega), fun hp => h6 (by omega)⟩
        by_cases hqj : q = j
        · subst hqj
          rintro (h | h)
          · exact he h
          · exact hm ((read16_eq_iff _ _ _).2 h)
        · exact h4 q (by omega) hq2

theorem byteAt_copySlot (t : Memory 8) (b d s a : Nat) :
    byteAt (writeBytes t (d * b) (readBytes t (s * b) b)) a =
      if d * b ≤ a ∧ a < d * b + b then byteAt t (s * b + (a - d * b)) else byteAt t a := by
  rw [byteAt_writeBytes, length_readBytes]
  split
  · rename_i h
    rw [getD_readBytes _ _ _ _ (by omega)]
  · rfl

/-- Slots `i .. i + v - 1` move up by one (44_hash_bh.md R96). -/
theorem byteAt_bhShift (b i v : Nat) (t : Memory 8) (a : Nat) :
    byteAt (bhShift b i v t) a = if (i + 1) * b ≤ a ∧ a < (i + 1 + v) * b then byteAt t (a - b) else byteAt t a := by
  induction v generalizing t with
  | zero =>
    rw [if_neg (by simp only [Nat.add_zero]; omega)]; rfl
  | succ v ih =>
    have e1 : (i + v + 1) * b = (i + v) * b + b := by ring
    have e2 : (i + 1 + v) * b = (i + v) * b + b := by ring
    have e3 : (i + 1 + (v + 1)) * b = (i + v) * b + b + b := by ring
    have e4 : (i + 1) * b ≤ (i + v) * b + b := by
      have := Nat.mul_le_mul_right b (Nat.le_add_right i v); rw [Nat.add_mul, Nat.one_mul]; omega
    simp only [bhShift, ih, byteAt_copySlot]
    simp only [e1, e2, e3]
    by_cases h1 : (i + 1) * b ≤ a ∧ a < (i + v) * b + b
    · rw [if_pos h1, if_neg (by omega), if_pos (by omega)]
    · rw [if_neg h1]
      by_cases h2 : (i + v) * b + b ≤ a ∧ a < (i + v) * b + b + b
      · rw [if_pos h2, if_pos (by omega)]; congr 1; omega
      · rw [if_neg h2, if_neg (by omega)]

/-- Slot `q` of the table, byte `z`. -/
theorem slot_byte {b q z : Nat} (hz : z < b) (d : Nat) :
    (d * b ≤ q * b + z ∧ q * b + z < d * b + b) ↔ q = d := by
  constructor
  · rintro ⟨h1, h2⟩
    rcases lt_trichotomy q d with h | h | h
    · have := Nat.mul_le_mul_right b (Nat.succ_le_of_lt h); rw [Nat.succ_mul] at this; omega
    · exact h
    · have := Nat.mul_le_mul_right b (Nat.succ_le_of_lt h); rw [Nat.succ_mul] at this; omega
  · rintro rfl; omega

/-- The table after a lookup that moves the `b` bytes `tmp` to the front and slots `i .. i + v - 1` up
(44_hash_bh.md R96). -/
theorem byteAt_moveToFront (b i v : Nat) (t : Memory 8) (tmp : List Byte) (hl : tmp.length = b) (a : Nat) :
    byteAt (writeBytes (bhShift b i v t) (i * b) tmp) a =
      if i * b ≤ a ∧ a < i * b + b then tmp.getD (a - i * b) 0
      else if (i + 1) * b ≤ a ∧ a < (i + 1 + v) * b then byteAt t (a - b) else byteAt t a := by
  rw [byteAt_writeBytes, hl, byteAt_bhShift]

theorem length_bhNewSlot {b : Nat} (hb : 2 ≤ b) (chk : BitVec 16) : (bhNewSlot b chk).length = b := by
  simp [bhNewSlot]; omega

theorem bhFront_lt {ns : Nat} (h : 0 < ns) (x : Word) : bhFront ns x < ns := by
  have := Nat.and_le_right (n := (x * 8).toNat) (m := ns - 1)
  unfold bhFront; omega

/-- The front slot is the first slot of a bucket (44_hash_bh.md R96). -/
theorem bhFront_spec {ns : Nat} (h2 : IsPow2 ns) (h8 : 8 ≤ ns) (x : Word) :
    bhFront ns x = x.toNat * 8 % 2 ^ 32 % ns ∧ bhFront ns x % 8 = 0 ∧ bhFront ns x + 8 ≤ ns := by
  have hp : ns = 2 ^ Nat.log2 ns := h2.symm
  have hk : 3 ≤ Nat.log2 ns := by
    rw [Nat.le_log2 (by omega)]; exact h8
  have e : bhFront ns x = x.toNat * 8 % 2 ^ 32 % ns := by
    unfold bhFront
    conv_lhs => rw [hp]
    rw [Nat.and_two_pow_sub_one_eq_mod, ← hp, BitVec.toNat_mul]; rfl
  obtain ⟨m, hm⟩ : ∃ m, ns = 8 * m := by
    refine ⟨2 ^ (Nat.log2 ns - 3), ?_⟩
    conv_lhs => rw [hp]
    obtain ⟨k, hk'⟩ : ∃ k, Nat.log2 ns = k + 3 := ⟨Nat.log2 ns - 3, by omega⟩
    rw [hk', pow_add, Nat.add_sub_cancel]; ring
  have h32 : x.toNat * 8 % 2 ^ 32 = 8 * (x.toNat % 2 ^ 29) := by omega
  have hmod : x.toNat * 8 % 2 ^ 32 % ns = 8 * (x.toNat % 2 ^ 29 % m) := by
    rw [h32, hm, Nat.mul_mod_mul_left]
  have hlt : x.toNat % 2 ^ 29 % m < m := Nat.mod_lt _ (by omega)
  rw [e, hmod]
  omega

/-- Every write of a lookup lies in the 8 slots of its bucket, so the table stays canonical (44_hash_bh.md R97). -/
theorem bhScan_wf {b i size : Nat} (hb : 3 ≤ b) (chk : BitVec 16) (n j : Nat) {t : Memory 8} (h : t.wf zeros size)
    (hs : (i + j + n) * b ≤ size) : ((bhScan b i chk n j t).1).wf zeros size := by
  induction n generalizing j t with
  | zero => exact h
  | succ n ih =>
    have e : (i + j + (n + 1)) * b = (i + j) * b + b + n * b := by ring
    have ht : (if byteAt t ((i + j) * b + 2) = 0 then write16 t ((i + j) * b) chk else t).wf zeros size := by
      split
      · exact write16_wf h (by omega) _
      · exact h
    simp only [bhScan]
    generalize (if byteAt t ((i + j) * b + 2) = 0 then write16 t ((i + j) * b) chk else t) = t' at ht ⊢
    split
    · exact ht
    · exact ih (j + 1) ht (by rw [show i + (j + 1) + n = i + j + (n + 1) by omega]; exact hs)

theorem bhShift_wf {b i size : Nat} (v : Nat) {t : Memory 8} (h : t.wf zeros size) (hs : (i + v + 1) * b ≤ size) :
    (bhShift b i v t).wf zeros size := by
  induction v generalizing t with
  | zero => exact h
  | succ v ih =>
    have e1 : (i + (v + 1) + 1) * b = (i + v + 1) * b + b := by ring
    exact ih (writeBytes_wf _ h (by rw [length_readBytes]; omega)) (by omega)

theorem bhLookup_wf {b ns : Nat} (hb : 3 ≤ b) (h2 : IsPow2 ns) (h8 : 8 ≤ ns) {t : Memory 8} (h : t.wf zeros (ns * b))
    (x : Word) : ((bhLookup b ns t x).1).wf zeros (ns * b) := by
  have hf := (bhFront_spec h2 h8 x).2.2
  have le : ∀ v, v ≤ 7 → (bhFront ns x + v + 1) * b ≤ ns * b := fun v hv => Nat.mul_le_mul_right b (by omega)
  have hs := bhScan_wf (i := bhFront ns x) hb (bhCheck x) 8 0 h (by
    simpa using Nat.mul_le_mul_right b (show bhFront ns x + 8 ≤ ns by omega))
  obtain ⟨p, hp, hp0, hp8, -⟩ := bhScan_spec b (bhFront ns x) (bhCheck x) 8 0 t
  have le0 : bhFront ns x * b + b ≤ ns * b := by
    have := le 0 (by omega); rw [Nat.add_zero, Nat.add_mul, Nat.one_mul] at this; exact this
  simp only [bhLookup]
  split
  · exact hs
  · split
    · refine writeBytes_wf _ (bhShift_wf _ hs ?_) ?_
      · unfold bhVictim; split
        · exact le 6 (by omega)
        · exact le 7 (by omega)
      · rw [length_bhNewSlot (by omega)]; exact le0
    · refine writeBytes_wf _ (bhShift_wf _ hs (le _ (by omega))) ?_
      rw [length_readBytes]; exact le0

/-- What `run_update` does (45_contextmap.md R105). -/
theorem runUpdate_spec (t : Memory 8) (a : Nat) (prev : Byte) :
    byteAt (runUpdate t a prev) a = (runNext (byteAt t a) (byteAt t (a + 1)) prev).1 ∧
    byteAt (runUpdate t a prev) (a + 1) = prev ∧
    ∀ b, b ≠ a → b ≠ a + 1 → byteAt (runUpdate t a prev) b = byteAt t b := by
  have hn : (runNext (byteAt t a) (byteAt t (a + 1)) prev).2 = prev := by
    unfold runNext; split
    · rfl
    · split
      · rfl
      · rename_i h; simp only [ne_eq, not_not] at h
        split
        · exact h
        · split <;> exact h
  refine ⟨?_, ?_, fun b h1 h2 => ?_⟩
  · simp only [runUpdate, byteAt_putByte]; rw [if_neg (by omega), if_pos trivial]
  · simp only [runUpdate, byteAt_putByte, if_true]; exact hn
  · simp only [runUpdate, byteAt_putByte]; rw [if_neg h2, if_neg h1]

theorem runUpdate_wf {size : Nat} {t : Memory 8} (h : t.wf zeros size) {a : Nat} (ha : a + 1 < size) (prev : Byte) :
    (runUpdate t a prev).wf zeros size :=
  putByte_wf (putByte_wf h (by omega) _) ha _

end Sys2Proof.Machine
end

