-- ==== Sys2Proof/Laws/Probability.lean ====
section
/-! SUPPORT. What the table lookups and the lazily trained probability tables do, said once: `squash`, `stretch`, the
StateMap, the APM and the SSCM entry. -/

namespace Sys2Proof.Machine

theorem shr_eq (v : Int) (k : Nat) : shr v k = v / 2 ^ k := by
  simp [shr]

theorem bitVal_cases (y : BitVec 1) : bitVal y = 0 ∨ bitVal y = 1 := by
  have := y.isLt; unfold bitVal; omega

/-- A 16-bit value written from an integer in range is that integer. -/
theorem toNat_ofInt16 (v : Int) (h0 : 0 ≤ v) (h1 : v < 65536) : ((BitVec.ofInt 16 v).toNat : Int) = v := by
  rw [BitVec.toNat_ofInt]; omega

/-- The training step of a StateMap does not wrap (42_statemap_apm.md R81). -/
theorem smTrain_toNat (y : BitVec 1) (v : BitVec 16) :
    ((smTrain y v).toNat : Int) = v.toNat + ((y.toNat : Int) * 65536 - v.toNat + 128) / 256 := by
  have hv := v.isLt
  rw [smTrain, shr_eq]
  rcases bitVal_cases y with h | h <;> unfold bitVal at h <;> rw [bitVal, h, toNat_ofInt16] <;> omega

/-- `a ≤ b * k` gives the quotient bound. -/
theorem ediv_le_of_le_mul {a b k : Int} (hk : 0 < k) (h : a < (b + 1) * k) : a / k ≤ b := by
  have := (Int.ediv_lt_iff_lt_mul hk).2 h
  omega

/-- The training step of an APM does not wrap (42_statemap_apm.md R84). -/
theorem apmTrain_toNat (y : BitVec 1) (rate : Nat) (v : BitVec 16) :
    ((apmTrain y rate v).toNat : Int) =
      v.toNat + ((y.toNat : Int) * 65536 + y.toNat * 2 ^ rate - 2 * y.toNat - v.toNat) / 2 ^ rate := by
  have hv := v.isLt
  have hk : (0 : Int) < 2 ^ rate := by positivity
  have hk1 : (1 : Int) ≤ 2 ^ rate := hk
  simp only [apmTrain, shr_eq]
  push_cast
  rcases bitVal_cases y with h | h <;> unfold bitVal at h <;> rw [bitVal, h, toNat_ofInt16]
  · have : -(v.toNat : Int) ≤ (((0 : Nat) : Int) * 65536 + ((0 : Nat) : Int) * 2 ^ rate - 2 * ((0 : Nat) : Int) - v.toNat) / 2 ^ rate := by
      apply Int.le_ediv_of_mul_le hk; push_cast; nlinarith
    omega
  · have : (((0 : Nat) : Int) * 65536 + ((0 : Nat) : Int) * 2 ^ rate - 2 * ((0 : Nat) : Int) - v.toNat) / 2 ^ rate ≤ 0 := by
      apply ediv_le_of_le_mul hk; push_cast; nlinarith
    omega
  · have : (0 : Int) ≤ (((1 : Nat) : Int) * 65536 + ((1 : Nat) : Int) * 2 ^ rate - 2 * ((1 : Nat) : Int) - v.toNat) / 2 ^ rate := by
      apply Int.le_ediv_of_mul_le hk; push_cast; omega
    omega
  · have : (((1 : Nat) : Int) * 65536 + ((1 : Nat) : Int) * 2 ^ rate - 2 * ((1 : Nat) : Int) - v.toNat) / 2 ^ rate
        ≤ 65535 - v.toNat := by
      apply ediv_le_of_le_mul hk; push_cast; nlinarith
    omega

/-- The training step of an SSCM does not wrap for a rate of at least 2 (46_run_sscm.md R114). -/
theorem sscmTrain_toNat (y : BitVec 1) (rate : Nat) (hr : 2 ≤ rate) (v : BitVec 16) :
    ((sscmTrain y rate v).toNat : Int) =
      v.toNat + ((y.toNat : Int) * 65536 - v.toNat + 2 ^ (rate - 1)) / 2 ^ rate := by
  have hv := v.isLt
  obtain ⟨k, rfl⟩ : ∃ k, rate = k + 2 := ⟨rate - 2, by omega⟩
  have hk : (0 : Int) < 2 ^ k := by positivity
  have hk1 : (1 : Int) ≤ 2 ^ k := hk
  have e1 : (2 : Int) ^ (k + 2) = 4 * 2 ^ k := by ring
  have e2 : (2 : Int) ^ (k + 2 - 1) = 2 * 2 ^ k := by rw [show k + 2 - 1 = k + 1 by omega]; ring
  have e3 : ((2 ^ (k + 2 - 1) : Nat) : Int) = 2 * 2 ^ k := by push_cast; exact e2
  have hp : (0 : Int) < 4 * 2 ^ k := by omega
  rw [sscmTrain, shr_eq, e1, e2, e3]
  rcases bitVal_cases y with h | h <;> unfold bitVal at h <;> rw [bitVal, h, toNat_ofInt16]
  · have : -(v.toNat : Int) ≤ (((0 : Nat) : Int) * 65536 - v.toNat + 2 * 2 ^ k) / (4 * 2 ^ k) := by
      apply Int.le_ediv_of_mul_le hp; push_cast; nlinarith
    omega
  · have : (((0 : Nat) : Int) * 65536 - v.toNat + 2 * 2 ^ k) / (4 * 2 ^ k) ≤ 0 := by
      apply ediv_le_of_le_mul hp; push_cast; nlinarith
    omega
  · have : (0 : Int) ≤ (((1 : Nat) : Int) * 65536 - v.toNat + 2 * 2 ^ k) / (4 * 2 ^ k) := by
      apply Int.le_ediv_of_mul_le hp; push_cast; omega
    omega
  · have : (((1 : Nat) : Int) * 65536 - v.toNat + 2 * 2 ^ k) / (4 * 2 ^ k) ≤ 65535 - v.toNat := by
      apply ediv_le_of_le_mul hp; push_cast; nlinarith
    omega

/-- What a StateMap call does (42_statemap_apm.md R81). -/
theorem smP_spec (c : Config) (y : BitVec 1) (u : StateMap) (cx : Byte) :
    (smP c y u cx).1.prev = cx ∧
    (∀ a, (smP c y u cx).1.entry c a =
      if a = u.prev.toNat then smTrain y (u.entry c u.prev.toNat) else u.entry c a) ∧
    (smP c y u cx).2.toNat = ((smP c y u cx).1.entry c cx.toNat).toNat / 16 := by
  refine ⟨rfl, fun a => Memory.read_write _ _ _ _ _, ?_⟩
  show (((smP c y u cx).1.entry c cx.toNat >>> 4).setWidth 12).toNat = _
  have := ((smP c y u cx).1.entry c cx.toNat).isLt
  simp only [BitVec.toNat_setWidth, BitVec.toNat_ushiftRight, Nat.shiftRight_eq_div_pow]
  omega

theorem Apm.trainAt_entry (c : Config) (y : BitVec 1) (rate : Nat) (u : Apm) (k a : Nat) :
    (u.trainAt c y rate k).entry c a = if a = k then apmTrain y rate (u.entry c k) else u.entry c a :=
  Memory.read_write _ _ _ _ _

/-- `stretch` takes values in [-2047, 2047] (41_tables_fsm.md R68). -/
theorem stretch_range (c : Config) (p : BitVec 12) : -2047 ≤ stretch c p ∧ stretch c p ≤ 2047 := by
  simp only [stretch]
  split <;> omega

/-- `stretch` finds the least entry of an admissible table (41_tables_fsm.md R68). -/
theorem stretch_spec {c : Config} (h : SquashOk c.squash) (p : BitVec 12) :
    ∃ k : Nat, stretch c p = (k : Int) - 2047 ∧ k ≤ 4094 ∧ p ≤ c.squash.getD k 0 ∧ ∀ j < k, c.squash.getD j 0 < p := by
  have hlen := h.length
  have htop : p ≤ c.squash.getD 4094 0 := by
    rw [h.at_top, BitVec.le_def]; have := p.isLt; simp; omega
  have hex : c.squash.findIdx (fun v => decide (p ≤ v)) < c.squash.length := by
    rw [List.findIdx_lt_length]
    refine ⟨c.squash[4094], List.getElem_mem _, ?_⟩
    rw [List.getD_eq_getElem _ _ (by omega)] at htop
    simpa using htop
  have hk : c.squash.findIdx (fun v => decide (p ≤ v)) < 4095 := by omega
  refine ⟨c.squash.findIdx fun v => decide (p ≤ v), by simp only [stretch, if_pos hk], by omega, ?_, ?_⟩
  · rw [List.getD_eq_getElem _ _ hex]
    simpa using List.findIdx_getElem (p := fun v => decide (p ≤ v)) (w := hex)
  · intro j hj
    rw [List.getD_eq_getElem _ _ (by omega)]
    have := List.not_of_lt_findIdx hj
    simpa using this

/-- `squash` inside its table (41_tables_fsm.md R67). -/
theorem squash_inside (c : Config) (d : Int) (h1 : -2047 ≤ d) (h2 : d ≤ 2047) :
    squash c d = c.squash.getD (d + 2047).toNat 0 := by
  rw [squash, if_neg (by omega), if_neg (by omega)]

/-- Scenario 5 of the source: `squash(0) = 2048` (41_tables_fsm.md R67). -/
theorem squash_zero {c : Config} (h : SquashOk c.squash) : squash c 0 = 2048 := by
  rw [squash_inside _ _ (by omega) (by omega)]; exact h.at_zero

/-- Scenario 5 of the source: `stretch(2048) = 0` (41_tables_fsm.md R68). -/
theorem stretch_2048 {c : Config} (h : SquashOk c.squash) : stretch c 2048 = 0 := by
  obtain ⟨k, hk, hle, hp, hj⟩ := stretch_spec h 2048
  have h1 : ¬2047 < k := fun hlt => by
    have := hj 2047 hlt; rw [h.at_zero] at this; exact absurd this (by decide)
  have h2 : ¬k < 2047 := fun hlt => by
    have h3 := h.monotone k 2046 (by omega) (by omega)
    have h4 := h.below_zero
    rw [BitVec.le_def] at hp h3; rw [BitVec.lt_def] at h4; omega
  omega

/-- What an APM call does (42_statemap_apm.md R84), with `d` the stretched input. -/
theorem apmP_spec (c : Config) (y : BitVec 1) (u : Apm) (p : BitVec 12) (cx rate : Nat) :
    (apmP c y u p cx rate).1.rows = u.rows ∧
    (apmP c y u p cx rate).1.index = apmAnchor (stretch c p) cx ∧
    (∀ a, (apmP c y u p cx rate).1.entry c a =
      if a = u.index ∨ a = u.index + 1 then apmTrain y rate (u.entry c a) else u.entry c a) ∧
    (apmP c y u p cx rate).2.toNat =
      (((apmP c y u p cx rate).1.entry c (apmAnchor (stretch c p) cx)).toNat * (128 - apmWeight (stretch c p)) +
        ((apmP c y u p cx rate).1.entry c (apmAnchor (stretch c p) cx + 1)).toNat * apmWeight (stretch c p)) / 2048 := by
  have hw : apmWeight (stretch c p) ≤ 127 := by unfold apmWeight; omega
  refine ⟨rfl, rfl, fun a => ?_, ?_⟩
  · show ((u.trainAt c y rate u.index).trainAt c y rate (u.index + 1)).entry c a = _
    rw [Apm.trainAt_entry, Apm.trainAt_entry, Apm.trainAt_entry]
    by_cases h1 : a = u.index + 1
    · subst h1; simp
    · by_cases h2 : a = u.index
      · subst h2; simp
      · simp [h1, h2]
  · simp only [apmP, BitVec.toNat_ofNat]
    apply Nat.mod_eq_of_lt
    rw [Nat.div_lt_iff_lt_mul (by norm_num)]
    generalize hA : (Apm.entry c _ (apmAnchor (stretch c p) cx)) = A
    generalize hB : (Apm.entry c _ (apmAnchor (stretch c p) cx + 1)) = B
    have h1 := A.isLt
    have h2 := B.isLt
    have h3 : A.toNat * (128 - apmWeight (stretch c p)) ≤ 65535 * (128 - apmWeight (stretch c p)) :=
      Nat.mul_le_mul_right _ (by omega)
    have h4 : B.toNat * apmWeight (stretch c p) ≤ 65535 * apmWeight (stretch c p) := Nat.mul_le_mul_right _ (by omega)
    omega

/-- The anchor lies in column 0 to 31 of row `cx` (42_statemap_apm.md R84). -/
theorem apmAnchor_spec (c : Config) (p : BitVec 12) (cx : Nat) :
    ∃ j ≤ 31, apmAnchor (stretch c p) cx = 33 * cx + j ∧ ((j : Int) = (stretch c p + 2048) / 128) := by
  have := stretch_range c p
  refine ⟨(shr (stretch c p + 2048) 7).toNat, ?_, ?_, ?_⟩ <;> simp only [apmAnchor, shr_eq] <;> omega

end Sys2Proof.Machine
end

