-- ==== Sys2Proof/Laws/Mixer.lean ====
section
/-! SUPPORT. What the operations on a mixer stage do, said once, and that they keep the stage's invariant. -/

namespace Sys2Proof.Machine

theorem toInt_ofInt16 (v : Int) (h0 : -32768 ≤ v) (h1 : v ≤ 32767) : (BitVec.ofInt 16 v).toInt = v := by
  rw [BitVec.toInt_ofInt, Int.bmod_def]; omega

/-- An appended input, and that nothing else of the stage changes (43_mixer.md R89). -/
theorem Stage.add_spec (u : Stage) (x : Int) :
    u.add x = { u with tx := (u.add x).tx, nx := u.nx + 1 } ∧
    ∀ k, (u.add x).input k = if k = u.nx then (BitVec.ofInt 16 x).toInt else u.input k := by
  refine ⟨rfl, fun k => ?_⟩
  simp only [Stage.input, Stage.add, Memory.read_write]
  split <;> rfl

/-- The padding: zeros up to the next multiple of 8, and nothing else of the stage changes (43_mixer.md R86). -/
theorem Stage.padLoop_spec (n : Nat) (u : Stage) (h : (u.nx + 7) / 8 * 8 - u.nx ≤ n) :
    Stage.padLoop n u = { u with tx := (Stage.padLoop n u).tx, nx := (u.nx + 7) / 8 * 8 } ∧
    ∀ k, (Stage.padLoop n u).input k = if u.nx ≤ k ∧ k < (u.nx + 7) / 8 * 8 then 0 else u.input k := by
  induction n generalizing u with
  | zero =>
    have e : (u.nx + 7) / 8 * 8 = u.nx := by omega
    refine ⟨by simp only [Stage.padLoop, e], fun k => ?_⟩
    rw [if_neg (by omega)]; rfl
  | succ n ih =>
    by_cases h0 : u.nx % 8 = 0
    · have e : (u.nx + 7) / 8 * 8 = u.nx := by omega
      have ep : Stage.padLoop (n + 1) u = u := by simp only [Stage.padLoop, if_pos h0]
      rw [ep, e]
      exact ⟨rfl, fun k => by rw [if_neg (by omega)]⟩
    · have ep : Stage.padLoop (n + 1) u = Stage.padLoop n (u.add 0) := by simp only [Stage.padLoop, if_neg h0]
      have hn : (u.add 0).nx = u.nx + 1 := rfl
      have e : ((u.add 0).nx + 7) / 8 * 8 = (u.nx + 7) / 8 * 8 := by omega
      obtain ⟨h1, h2⟩ := ih (u.add 0) (by omega)
      rw [ep]
      refine ⟨by rw [h1, e]; rfl, fun k => ?_⟩
      rw [h2, e, hn, (u.add_spec 0).2]
      by_cases hk : k = u.nx
      · subst hk
        rw [if_neg (by omega), if_pos rfl, if_pos (by omega)]; rfl
      · rw [if_neg hk]
        by_cases hk2 : u.nx + 1 ≤ k ∧ k < (u.nx + 7) / 8 * 8
        · rw [if_pos hk2, if_pos (by omega)]
        · rw [if_neg hk2, if_neg (by omega)]

/-- `pad` (43_mixer.md R86). -/
theorem Stage.pad_spec (u : Stage) :
    u.pad = { u with tx := u.pad.tx, nx := (u.nx + 7) / 8 * 8 } ∧
    ∀ k, u.pad.input k = if u.nx ≤ k ∧ k < (u.nx + 7) / 8 * 8 then 0 else u.input k :=
  Stage.padLoop_spec 8 u (by omega)

theorem Stage.pad_nx (u : Stage) : u.pad.nx = (u.nx + 7) / 8 * 8 := by rw [u.pad_spec.1]
theorem Stage.pad_ncxt (u : Stage) : u.pad.ncxt = u.ncxt := by rw [u.pad_spec.1]
theorem Stage.pad_cxt (u : Stage) : u.pad.cxt = u.cxt := by rw [u.pad_spec.1]
theorem Stage.pad_pr (u : Stage) : u.pad.pr = u.pr := by rw [u.pad_spec.1]
theorem Stage.pad_wx (u : Stage) : u.pad.wx = u.wx := by rw [u.pad_spec.1]
theorem Stage.pad_n (u : Stage) : u.pad.n = u.n := by rw [u.pad_spec.1]
theorem Stage.pad_m (u : Stage) : u.pad.m = u.m := by rw [u.pad_spec.1]
theorem Stage.pad_s (u : Stage) : u.pad.s = u.s := by rw [u.pad_spec.1]
theorem Stage.pad_w0 (u : Stage) : u.pad.w0 = u.w0 := by rw [u.pad_spec.1]
theorem Stage.pad_base (u : Stage) : u.pad.base = u.base := by rw [u.pad_spec.1]
theorem Stage.pad_cap (u : Stage) : u.pad.cap = u.cap := by simp only [Stage.cap, u.pad_n]
theorem Stage.pad_weight (u : Stage) (r k : Nat) : u.pad.weight r k = u.weight r k := by
  have h : u.pad.weightInit = u.weightInit := by funext a; simp only [Stage.weightInit, u.pad_w0]
  simp only [Stage.weight, h, u.pad_wx, u.pad_cap]

/-- A trained weight is a 16-bit value (43_mixer.md R88, 00_scope.md R11). -/
theorem weightStep_range (w x err : Int) : -32768 ≤ weightStep w x err ∧ weightStep w x err ≤ 32767 := by
  simp only [weightStep, clamp16]; omega

/-- The row at `r` after its first `k` weights are trained (43_mixer.md R88). -/
theorem Stage.trainRow_read (u : Stage) (r : Nat) (err : Int) (k : Nat) (wx : Memory 16) (a : Nat) :
    ((Stage.trainRow u r err k wx).read u.weightInit a).toInt =
      if r * u.cap ≤ a ∧ a < r * u.cap + k then
        weightStep (wx.read u.weightInit a).toInt (u.input (a - r * u.cap)) err
      else (wx.read u.weightInit a).toInt := by
  induction k with
  | zero => rw [if_neg (by omega)]; rfl
  | succ k ih =>
    simp only [Stage.trainRow, Memory.read_write]
    by_cases ha : a = r * u.cap + k
    · subst ha
      have hr := weightStep_range
        ((Stage.trainRow u r err k wx).read u.weightInit (r * u.cap + k)).toInt (u.input k) err
      rw [if_pos rfl, if_pos (by omega), toInt_ofInt16 _ hr.1 hr.2, ih, if_neg (by omega)]
      simp
    · rw [if_neg ha, ih]
      by_cases h : r * u.cap ≤ a ∧ a < r * u.cap + k
      · rw [if_pos h, if_pos (by omega)]
      · rw [if_neg h, if_neg (by omega)]

/-- `row * N + k` names its row and its place in the row. -/
theorem cell_row_eq {N r r' k : Nat} (hk : k < N) (h : r' * N ≤ r * N + k ∧ r * N + k < r' * N + N) : r' = r := by
  rcases lt_trichotomy r' r with hlt | heq | hgt
  · have := Nat.mul_le_mul_right N (Nat.succ_le_of_lt hlt); rw [Nat.succ_mul] at this; omega
  · exact heq
  · have := Nat.mul_le_mul_right N (Nat.succ_le_of_lt hgt); rw [Nat.succ_mul] at this; omega

/-- One weight after the first `i` selected rows are trained, in the order of selection (43_mixer.md R88). -/
theorem Stage.trainRows_read (u : Stage) (y : BitVec 1) (hn : u.nx ≤ u.cap) (i : Nat) (r k : Nat) (hk : k < u.cap) :
    ((Stage.trainRows u y i u.wx).read u.weightInit (r * u.cap + k)).toInt =
      if k < u.nx then
        (List.range i).foldl (fun w j =>
          if u.row j = r then weightStep w (u.input k) (trainErr y (u.pr.getD j 0)) else w) (u.weight r k)
      else u.weight r k := by
  induction i with
  | zero => simp [Stage.trainRows, Stage.weight]
  | succ i ih =>
    rw [List.range_succ, List.foldl_append]
    simp only [Stage.trainRows, Stage.trainRow_read, ih, List.foldl_cons, List.foldl_nil]
    by_cases hkn : k < u.nx
    · simp only [if_pos hkn]
      by_cases hr : u.row i = r
      · rw [hr, if_pos (by omega), if_pos rfl]; simp
      · rw [if_neg hr, if_neg]
        intro h
        exact hr (cell_row_eq hk ⟨h.1, by omega⟩)
    · simp only [if_neg hkn]
      split
      · rename_i h
        have := cell_row_eq hk ⟨h.1, by omega⟩
        rw [this] at h; omega
      · rfl

/-- `train` (43_mixer.md R88): the weights, and that the counters are cleared and the rest of the padded stage stays. -/
theorem Stage.train_spec (y : BitVec 1) (u : Stage) (hn : u.nx ≤ u.cap) :
    u.train y = { u with tx := u.pad.tx, wx := (u.train y).wx, nx := 0, base := 0, ncxt := 0 } ∧
    ∀ r k, k < u.cap → (u.train y).weight r k =
      if k < (u.nx + 7) / 8 * 8 then
        (List.range u.ncxt).foldl (fun w j =>
          if u.row j = r then weightStep w (u.pad.input k) (trainErr y (u.pr.getD j 0)) else w) (u.weight r k)
      else u.weight r k := by
  refine ⟨?_, fun r k hk => ?_⟩
  · simp only [Stage.train]
    rw [u.pad_spec.1]
  · have hcap : u.cap % 8 = 0 := by simp only [Stage.cap]; omega
    have h := Stage.trainRows_read u.pad y (by rw [u.pad_nx, u.pad_cap]; omega) u.pad.ncxt r k (by rw [u.pad_cap]; exact hk)
    rw [u.pad_nx, u.pad_ncxt, u.pad_weight, u.pad_cap, u.pad_pr] at h
    have hrow : ∀ j, u.pad.row j = u.row j := fun j => by simp only [Stage.row, u.pad_cxt]
    simp only [hrow] at h
    rw [← h]
    simp only [Stage.weight, Stage.train]
    rw [show Stage.weightInit { u.pad with
      wx := u.pad.trainRows y u.pad.ncxt u.pad.wx, nx := 0, base := 0, ncxt := 0 } = u.pad.weightInit from rfl]
    rw [show Stage.cap { u.pad with
      wx := u.pad.trainRows y u.pad.ncxt u.pad.wx, nx := 0, base := 0, ncxt := 0 } = u.pad.cap from rfl, u.pad_cap,
      u.pad_ncxt]

/-- The accumulator of the dot product as a fold (43_mixer.md R87). -/
theorem Stage.dotPairs_eq (u : Stage) (r k : Nat) :
    u.dotPairs r k = (List.range k).foldl (fun acc j => wraps32 (acc + u.pairTerm r j / 256)) 0 := by
  induction k with
  | zero => rfl
  | succ k ih => rw [List.range_succ, List.foldl_append, ← ih]; simp [Stage.dotPairs, shr_eq]

/-- The dot product as the statements give it (43_mixer.md R87). -/
theorem Stage.dot_eq_pairwiseDot (u : Stage) (r : Nat) : u.dot r = pairwiseDot u.input (u.weight r) u.nx := by
  simp only [Stage.dot, Stage.dotPairs_eq, pairwiseDot, Stage.pairTerm, wraps32, BitVec.toInt_ofInt]

/-- The dot product does not read the predictions. -/
theorem Stage.dot_pr (u : Stage) (pr : List (BitVec 12)) (r : Nat) : Stage.dot { u with pr := pr } r = u.dot r := by
  have h : ∀ k, Stage.dotPairs { u with pr := pr } r k = u.dotPairs r k := by
    intro k
    induction k with
    | zero => rfl
    | succ k ih => simp only [Stage.dotPairs, ih]; rfl
  exact h _

/-- A dot product of zeros. -/
theorem Stage.dot_eq_zero (u : Stage) (r : Nat) (h : ∀ k < u.nx, u.input k * u.weight r k = 0) : u.dot r = 0 := by
  have key : ∀ k, 2 * k ≤ u.nx → u.dotPairs r k = 0 := by
    intro k
    induction k with
    | zero => intro _; rfl
    | succ k ih =>
      intro hk
      simp only [Stage.dotPairs, ih (by omega), Stage.pairTerm, h (2 * k) (by omega), h (2 * k + 1) (by omega)]
      decide
  exact key _ (by omega)

theorem Stage.add_ok {u : Stage} (h : u.Ok) (x : Int) (hn : u.nx < u.cap) : (u.add x).Ok where
  tx := Memory.write_wf h.tx hn _
  wx := h.wx
  cxtLength := h.cxtLength
  cxt := h.cxt
  ncxt := h.ncxt
  base := h.base
  nx := hn
  prLength := h.prLength

theorem Stage.padLoop_ok (n : Nat) {u : Stage} (h : u.Ok) : (Stage.padLoop n u).Ok := by
  induction n generalizing u with
  | zero => exact h
  | succ n ih =>
    simp only [Stage.padLoop]
    split
    · exact h
    · rename_i h8
      have hcap : u.cap % 8 = 0 := by simp only [Stage.cap]; omega
      have := h.nx
      exact ih (Stage.add_ok h 0 (by omega))

theorem Stage.pad_ok {u : Stage} (h : u.Ok) : u.pad.Ok := Stage.padLoop_ok 8 h

/-- A selected row is a row of the weight matrix. -/
theorem Stage.row_lt {u : Stage} (h : u.Ok) (i : Nat) (hi : i < u.s) : u.row i < u.m := by
  have hl := h.cxtLength
  rw [Stage.row, List.getD_eq_getElem _ _ (by omega)]
  exact h.cxt _ (List.getElem_mem _)

theorem cell_lt {N r m k : Nat} (hr : r < m) (hk : k < N) : r * N + k < N * m := by
  have := Nat.mul_le_mul_right N (Nat.succ_le_of_lt hr)
  rw [Nat.succ_mul] at this
  rw [Nat.mul_comm N m]; omega

theorem Stage.trainRow_wf (u : Stage) {r : Nat} (hr : r < u.m) (err : Int) (k : Nat) (hk : k ≤ u.cap) {wx : Memory 16}
    (h : wx.wf u.weightInit (u.cap * u.m)) : (Stage.trainRow u r err k wx).wf u.weightInit (u.cap * u.m) := by
  induction k with
  | zero => exact h
  | succ k ih => exact Memory.write_wf (ih (by omega)) (cell_lt hr (by omega)) _

theorem Stage.trainRows_wf {u : Stage} (h : u.Ok) (y : BitVec 1) (i : Nat) (hi : i ≤ u.s) :
    (Stage.trainRows u y i u.wx).wf u.weightInit (u.cap * u.m) := by
  induction i with
  | zero => exact h.wx
  | succ i ih => exact Stage.trainRow_wf u (Stage.row_lt h i (by omega)) _ _ h.nx (ih (by omega))

theorem Stage.train_ok {u : Stage} (h : u.Ok) (y : BitVec 1) : (u.train y).Ok where
  tx := (Stage.pad_ok h).tx
  wx := Stage.trainRows_wf (Stage.pad_ok h) y _ (Stage.pad_ok h).ncxt
  cxtLength := (Stage.pad_ok h).cxtLength
  cxt := (Stage.pad_ok h).cxt
  ncxt := Nat.zero_le _
  base := Nat.zero_le _
  nx := Nat.zero_le _
  prLength := (Stage.pad_ok h).prLength

theorem Stage.select_ok {u : Stage} (h : u.Ok) {cx range : Nat} (hn : u.ncxt < u.s) (hc : cx < range)
    (hb : u.base + range ≤ u.m) : (u.select cx range).Ok where
  tx := h.tx
  wx := h.wx
  cxtLength := by simpa [Stage.select] using h.cxtLength
  cxt := fun r hr => by
    rcases List.mem_or_eq_of_mem_set hr with hr | rfl
    · exact h.cxt r hr
    · show u.base + cx < u.m; omega
  ncxt := hn
  base := hb
  nx := h.nx
  prLength := h.prLength

theorem Stage.predict_ok {u : Stage} (h : u.Ok) (c : Config) : (u.predict c).1.Ok where
  tx := (Stage.pad_ok h).tx
  wx := (Stage.pad_ok h).wx
  cxtLength := (Stage.pad_ok h).cxtLength
  cxt := (Stage.pad_ok h).cxt
  ncxt := (Stage.pad_ok h).ncxt
  base := (Stage.pad_ok h).base
  nx := (Stage.pad_ok h).nx
  prLength := by simpa [Stage.predict] using (Stage.pad_ok h).prLength

/-- The first-stage predictions and the child's inputs after the first `k` rows (43_mixer.md R91). -/
theorem Stage.firstStage_spec (c : Config) (u child : Stage) (k : Nat) (hk : k ≤ u.pr.length) (h0 : child.nx = 0) :
    (Stage.firstStage c u child k).1.length = u.pr.length ∧
    (∀ i, (Stage.firstStage c u child k).1.getD i 0 =
      if i < k then squash c (u.dot (u.row i) / 32) else u.pr.getD i 0) ∧
    (Stage.firstStage c u child k).2 = { child with tx := (Stage.firstStage c u child k).2.tx, nx := k } ∧
    (∀ i < k, (Stage.firstStage c u child k).2.input i = stretch c (squash c (u.dot (u.row i) / 32))) ∧
    ∀ i, k ≤ i → (Stage.firstStage c u child k).2.input i = child.input i := by
  induction k with
  | zero =>
    refine ⟨rfl, fun i => by simp [Stage.firstStage], ?_, fun i hi => by omega, fun _ _ => rfl⟩
    simp only [Stage.firstStage, ← h0]
  | succ k ih =>
    obtain ⟨i1, i2, i3, i4, i5⟩ := ih (by omega)
    have hnx : (Stage.firstStage c u child k).2.nx = k := by rw [i3]
    have hp : shr (u.dot (u.row k)) 5 = u.dot (u.row k) / 32 := by rw [shr_eq]; norm_num
    refine ⟨by simp [Stage.firstStage, i1], fun i => ?_, ?_, fun i hi => ?_, fun i hi => ?_⟩
    · simp only [Stage.firstStage, hp]
      by_cases hik : i = k
      · subst hik
        rw [if_pos (by omega), List.getD_eq_getElem _ _ (by simp; omega)]
        simp
      · have e : (((Stage.firstStage c u child k).1.set k (squash c (u.dot (u.row k) / 32))).getD i 0) =
            (Stage.firstStage c u child k).1.getD i 0 := by
          simp only [List.getD_eq_getElem?_getD]
          rw [List.getElem?_set_ne (by omega)]
        rw [e, i2]
        by_cases hi2 : i < k
        · rw [if_pos hi2, if_pos (by omega)]
        · rw [if_neg hi2, if_neg (by omega)]
    · simp only [Stage.firstStage, hp]
      obtain ⟨tx, htx⟩ : ∃ tx, (Stage.firstStage c u child k).2 = { child with tx := tx, nx := k } := ⟨_, i3⟩
      rw [htx]
      rfl
    · simp only [Stage.firstStage, hp]
      rw [(Stage.add_spec _ _).2, hnx]
      have hs := stretch_range c (squash c (u.dot (u.row k) / 32))
      by_cases hik : i = k
      · subst hik; rw [if_pos rfl, toInt_ofInt16 _ (by omega) (by omega)]
      · rw [if_neg hik, i4 i (by omega)]
    · simp only [Stage.firstStage]
      rw [(Stage.add_spec _ _).2, hnx, if_neg (by omega), i5 i (by omega)]

theorem Stage.firstStage_ok {c : Config} {u child : Stage} (h : child.Ok) (h0 : child.nx = 0) (k : Nat)
    (hp : k ≤ u.pr.length) (hk : k ≤ child.cap) : (Stage.firstStage c u child k).2.Ok := by
  induction k with
  | zero => exact h
  | succ k ih =>
    have hs := (Stage.firstStage_spec c u child k (by omega) h0).2.2.1
    refine Stage.add_ok (ih (by omega) (by omega)) _ ?_
    rw [hs]; show k < child.cap; omega

/-- A Mixer unit keeps its invariant under its prediction (43_mixer.md R91: the child's capacity is never exceeded). -/
theorem Mixer.predict_ok {m : Mixer} (h : m.Ok) (c : Config) (y : BitVec 1) : (m.predict c y).1.Ok := by
  unfold Mixer.predict
  split
  · rename_i hc
    exact ⟨Stage.predict_ok h.own c, fun u hu => by simp at hu, by
      have := h.second; rw [hc] at this; simpa [Stage.predict, Stage.pad_s] using this⟩
  · rename_i child hc
    obtain ⟨k1, k2, k3, k4, k5⟩ := h.child child hc
    have ht := (Stage.train_spec y child k1.nx).1
    have hn := (Stage.pad_ok h.own).ncxt
    have hl := (Stage.pad_ok h.own).prLength
    rw [Stage.pad_s] at hn hl
    have hcap : m.own.s ≤ (child.train y).cap := by
      rw [show (child.train y).cap = child.cap by rw [ht]; rfl, Stage.cap, k2]; omega
    have hf := Stage.firstStage_ok (c := c) (u := m.own.pad) (Stage.train_ok k1 y) (by rw [ht]) m.own.pad.ncxt
      (by omega) (by omega)
    obtain ⟨f1, f2, f3, f4, -⟩ := Stage.firstStage_spec c m.own.pad (child.train y) m.own.pad.ncxt (by omega) (by rw [ht])
    have hsel : (((m.own.pad).firstStage c (child.train y) m.own.pad.ncxt).2.select 0 1).Ok := by
      apply Stage.select_ok hf
      · rw [f3]; show (child.train y).ncxt < (child.train y).s; rw [ht]; show 0 < child.s; omega
      · omega
      · rw [f3]; show (child.train y).base + 1 ≤ (child.train y).m; rw [ht]; show 0 + 1 ≤ child.m; omega
    have hp := Stage.pad_ok h.own
    refine ⟨⟨hp.tx, hp.wx, hp.cxtLength, hp.cxt, hp.ncxt, hp.base, hp.nx, by rw [← hp.prLength]; exact f1⟩, ?_, ?_⟩
    · intro u hu
      simp only [Option.some.injEq] at hu
      subst hu
      refine ⟨Stage.predict_ok hsel c, ?_⟩
      simp only [Stage.predict, Stage.pad_n, Stage.pad_m, Stage.pad_s, Stage.pad_w0, Stage.select]
      rw [f3, ht]
      exact ⟨k2, k3, k4, k5⟩
    · have := h.second
      rw [hc] at this
      simpa [Stage.pad_s] using this

end Sys2Proof.Machine
end

