-- ==== Sys2Proof/Laws/ContextMap.lean ====
section
/-! SUPPORT. What the lookup of a ContextMap and the round of CM_MIX do, said once, and that they keep the invariant of
the unit: every address stays in the table. -/

namespace Sys2Proof.Machine

/-- The scan ends at the first slot with the checksum (45_contextmap.md R101). -/
theorem cmScan_hit (tab : Memory 8) (b : Nat) (ch : BitVec 16) (last : Nat) (pre : List Nat) (k : Nat)
    (post : List Nat) (best bi : Nat) (hpre : ∀ j ∈ pre, cmCheck tab b j ≠ ch) (hk : cmCheck tab b k = ch) :
    cmScan tab b ch last (pre ++ k :: post) best bi = .inl k := by
  induction pre generalizing best bi with
  | nil => simp only [List.nil_append, cmScan, if_pos hk]
  | cons j pre ih =>
    have ih' := fun best bi => ih best bi fun x hx => hpre x (by simp [hx])
    simp only [List.cons_append, cmScan, if_neg (hpre j (by simp))]
    split <;> exact ih' _ _

/-- A slot the scan may replace: no MRU slot (45_contextmap.md R101). -/
def cmFree (last k : Nat) : Prop := k ≠ last % 16 ∧ k ≠ last / 16

/-- Without a match the scan picks the first slot of least priority below `best`, if there is one (45_contextmap.md
R101). -/
theorem cmScan_miss (tab : Memory 8) (b : Nat) (ch : BitVec 16) (last : Nat) (ks : List Nat) (best bi : Nat)
    (hs : ks.Pairwise (· < ·)) (hno : ∀ j ∈ ks, cmCheck tab b j ≠ ch) :
    ∃ k, cmScan tab b ch last ks best bi = .inr k ∧
      ((k = bi ∧ ∀ j ∈ ks, cmFree last j → best ≤ (byteAt tab (cmCell b j)).toNat) ∨
       (k ∈ ks ∧ cmFree last k ∧ (byteAt tab (cmCell b k)).toNat < best ∧
        (∀ j ∈ ks, cmFree last j → (byteAt tab (cmCell b k)).toNat ≤ (byteAt tab (cmCell b j)).toNat) ∧
        ∀ j ∈ ks, j < k → cmFree last j → (byteAt tab (cmCell b k)).toNat < (byteAt tab (cmCell b j)).toNat)) := by
  induction ks generalizing best bi with
  | nil => exact ⟨bi, rfl, .inl ⟨rfl, by simp⟩⟩
  | cons x ks ih =>
    obtain ⟨hx, hks⟩ := List.pairwise_cons.1 hs
    have hno' : ∀ j ∈ ks, cmCheck tab b j ≠ ch := fun j hj => hno j (by simp [hj])
    simp only [cmScan, if_neg (hno x (by simp))]
    split
    · rename_i hc
      have hfx : cmFree last x := ⟨hc.1, hc.2.1⟩
      obtain ⟨k, e, h⟩ := ih (byteAt tab (cmCell b x)).toNat x hks hno'
      refine ⟨k, e, .inr ?_⟩
      rcases h with ⟨rfl, h⟩ | ⟨h1, h2, h3, h4, h5⟩
      · refine ⟨by simp, hfx, hc.2.2, fun j hj hf => ?_, fun j hj hlt hf => ?_⟩
        · obtain rfl | hj := List.mem_cons.1 hj
          · exact le_refl _
          · exact h j hj hf
        · obtain rfl | hj := List.mem_cons.1 hj
          · omega
          · exact absurd (hx j hj) (by omega)
      · refine ⟨by simp [h1], h2, by omega, fun j hj hf => ?_, fun j hj hlt hf => ?_⟩
        · obtain rfl | hj := List.mem_cons.1 hj
          · omega
          · exact h4 j hj hf
        · obtain rfl | hj := List.mem_cons.1 hj
          · exact h3
          · exact h5 j hj hlt hf
    · rename_i hc
      have hbig : cmFree last x → best ≤ (byteAt tab (cmCell b x)).toNat := fun hf => by
        by_contra hlt
        exact hc ⟨hf.1, hf.2, by omega⟩
      obtain ⟨k, e, h⟩ := ih best bi hks hno'
      refine ⟨k, e, ?_⟩
      rcases h with ⟨rfl, h⟩ | ⟨h1, h2, h3, h4, h5⟩
      · refine .inl ⟨rfl, fun j hj hf => ?_⟩
        obtain rfl | hj := List.mem_cons.1 hj
        · exact hbig hf
        · exact h j hj hf
      · refine .inr ⟨by simp [h1], h2, h3, fun j hj hf => ?_, fun j hj hlt hf => ?_⟩
        · obtain rfl | hj := List.mem_cons.1 hj
          · have := hbig hf; omega
          · exact h4 j hj hf
        · obtain rfl | hj := List.mem_cons.1 hj
          · have := hbig hf; omega
          · exact h5 j hj hlt hf

/-- The bytes after a slot is claimed (45_contextmap.md R101). -/
theorem byteAt_cmClaim (tab : Memory 8) (b k : Nat) (ch : BitVec 16) (a : Nat) :
    byteAt (cmClaim tab b k ch) a =
      if 64 * b + 15 + 7 * k ≤ a ∧ a < 64 * b + 22 + 7 * k then 0
      else if a = 64 * b + 2 * k then ch.extractLsb' 0 8
      else if a = 64 * b + 2 * k + 1 then ch.extractLsb' 8 8
      else if a = 64 * b + 14 then BitVec.ofNat 8 (0xF0 ||| k) else byteAt tab a := by
  simp only [cmClaim, byteAt_writeBytes, byteAt_write16, byteAt_putByte, cmCell, cmLast, List.length_replicate]
  by_cases h : 64 * b + 15 + 7 * k ≤ a ∧ a < 64 * b + 22 + 7 * k
  · rw [if_pos h, if_pos (by omega)]
    have hlt : a - (64 * b + 15 + 7 * k) < 7 := by omega
    generalize a - (64 * b + 15 + 7 * k) = z at hlt
    interval_cases z <;> rfl
  · rw [if_neg h, if_neg (by omega)]

/-- What a lookup can do: an MRU hit, a hit elsewhere, or a claim of a slot that is no MRU slot (45_contextmap.md
R101). -/
theorem cmGet_cases (tab : Memory 8) (b : Nat) (ch : BitVec 16) :
    (cmCheck tab b ((byteAt tab (cmLast b)).toNat % 16) = ch ∧
      cmGet tab b ch = (tab, cmCell b ((byteAt tab (cmLast b)).toNat % 16))) ∨
    (∃ k ≤ 6, cmCheck tab b k = ch ∧ (∀ j < k, cmCheck tab b j ≠ ch) ∧
      cmGet tab b ch =
        (putByte tab (cmLast b) (BitVec.ofNat 8 (((byteAt tab (cmLast b)).toNat * 16 ||| k) % 256)), cmCell b k)) ∨
    ((∀ j ≤ 6, cmCheck tab b j ≠ ch) ∧ ∃ k ≤ 6, cmFree (byteAt tab (cmLast b)).toNat k ∧
      (∀ j ≤ 6, cmFree (byteAt tab (cmLast b)).toNat j →
        (byteAt tab (cmCell b k)).toNat ≤ (byteAt tab (cmCell b j)).toNat) ∧
      (∀ j < k, cmFree (byteAt tab (cmLast b)).toNat j →
        (byteAt tab (cmCell b k)).toNat < (byteAt tab (cmCell b j)).toNat) ∧
      cmGet tab b ch = (cmClaim tab b k ch, cmCell b k)) := by
  generalize hl : (byteAt tab (cmLast b)).toNat = last
  by_cases hm : cmCheck tab b (last % 16) = ch
  · exact .inl ⟨hm, by simp only [cmGet, hl, if_pos hm]⟩
  by_cases hex : ∃ k, k ≤ 6 ∧ cmCheck tab b k = ch
  · refine .inr (.inl ?_)
    obtain ⟨k, ⟨hk, hkc⟩, hmin⟩ := (⟨_, Nat.find_spec hex, fun j hj => Nat.find_min hex hj⟩ :
      ∃ k, (k ≤ 6 ∧ cmCheck tab b k = ch) ∧ ∀ j < k, ¬(j ≤ 6 ∧ cmCheck tab b j = ch))
    have hlt : ∀ j < k, cmCheck tab b j ≠ ch := fun j hj e => hmin j hj ⟨by omega, e⟩
    refine ⟨k, hk, hkc, hlt, ?_⟩
    have hsplit : [0, 1, 2, 3, 4, 5, 6] = List.range k ++ k :: (List.range (6 - k)).map (· + (k + 1)) := by
      interval_cases k <;> rfl
    have hs := cmScan_hit tab b ch last (List.range k) k ((List.range (6 - k)).map (· + (k + 1))) 0xFFFF 0
      (fun j hj => hlt j (List.mem_range.1 hj)) hkc
    rw [← hsplit] at hs
    simp only [cmGet, hl, if_neg hm, hs]
  · refine .inr (.inr ?_)
    have hno : ∀ j ≤ 6, cmCheck tab b j ≠ ch := fun j hj e => hex ⟨j, hj, e⟩
    have hmem : ∀ j, j ∈ [0, 1, 2, 3, 4, 5, 6] ↔ j ≤ 6 := fun j => by simp; omega
    obtain ⟨k, e, h⟩ := cmScan_miss tab b ch last [0, 1, 2, 3, 4, 5, 6] 0xFFFF 0 (by decide)
      fun j hj => hno j ((hmem j).1 hj)
    refine ⟨hno, ?_⟩
    rcases h with ⟨-, h⟩ | ⟨h1, h2, h3, h4, h5⟩
    · exfalso
      obtain ⟨j, hj, hf⟩ : ∃ j ≤ 6, cmFree last j := by
        by_cases h0 : cmFree last 0
        · exact ⟨0, by omega, h0⟩
        · by_cases h1 : cmFree last 1
          · exact ⟨1, by omega, h1⟩
          · exact ⟨2, by omega, by unfold cmFree at *; omega⟩
      have h1 := h j ((hmem j).2 hj) hf
      have h2 := (byteAt tab (cmCell b j)).isLt
      omega
    · have hk := (hmem k).1 h1
      refine ⟨k, hk, h2, fun j hj hf => h4 j ((hmem j).2 hj) hf, fun j hj hf => h5 j ((hmem j).2 (by omega)) hj hf, ?_⟩
      simp only [cmGet, hl, if_neg hm, e]

/-- The low nibble of every MRU byte names a slot (45_contextmap.md R101). -/
def MruOk (e : Nat) (tab : Memory 8) : Prop := ∀ b < e, (byteAt tab (cmLast b)).toNat % 16 ≤ 6

theorem cmLast_ne {b b' z : Nat} (h : z < 64) (hz : z ≠ 14) : cmLast b ≠ 64 * b' + z := by
  unfold cmLast; omega

/-- A byte stored at an offset other than 14 of a bucket keeps the MRU bytes. -/
theorem MruOk.putByte {e : Nat} {tab : Memory 8} (h : MruOk e tab) {b z : Nat} (hz : z < 64) (h14 : z ≠ 14) (v : Byte) :
    MruOk e (putByte tab (64 * b + z) v) := fun b' hb' => by
  rw [byteAt_putByte, if_neg (cmLast_ne hz h14)]; exact h b' hb'

/-- A lookup keeps the table canonical and the MRU bytes legal, and gives cell 0 of a slot of the bucket. -/
theorem cmGet_ok {e : Nat} {tab : Memory 8} (hw : tab.wf zeros (64 * e)) (hm : MruOk e tab) {b : Nat} (hb : b < e)
    (ch : BitVec 16) :
    ((cmGet tab b ch).1).wf zeros (64 * e) ∧ MruOk e (cmGet tab b ch).1 ∧ IsCell0 e (cmGet tab b ch).2 := by
  have h64 : 64 * b + 64 ≤ 64 * e := by omega
  rcases cmGet_cases tab b ch with ⟨-, e1⟩ | ⟨k, hk, -, -, e1⟩ | ⟨-, k, hk, -, -, -, e1⟩ <;> rw [e1]
  · exact ⟨hw, hm, b, _, hb, hm b hb, rfl⟩
  · refine ⟨putByte_wf hw (by unfold cmLast; omega) _, fun b' hb' => ?_, b, k, hb, hk, rfl⟩
    rw [byteAt_putByte]
    split
    · have e2 : (byteAt tab (cmLast b)).toNat * 16 ||| k = (byteAt tab (cmLast b)).toNat * 16 + k := by
        rw [Nat.mul_comm, show (16 : Nat) = 2 ^ 4 from rfl, Nat.two_pow_add_eq_or_of_lt (by omega)]
      rw [e2, BitVec.toNat_ofNat]; omega
    · exact hm b' hb'
  · refine ⟨?_, fun b' hb' => ?_, b, k, hb, hk, rfl⟩
    · refine writeBytes_wf _ (write16_wf (putByte_wf hw (by unfold cmLast; omega) _) (by omega) _) ?_
      simp only [List.length_replicate, cmCell]; omega
    · have hcells : ¬(64 * b + 15 + 7 * k ≤ 64 * b' + 14 ∧ 64 * b' + 14 < 64 * b + 22 + 7 * k) := by
        rcases lt_trichotomy b b' with h | h | h <;> omega
      rw [byteAt_cmClaim, cmLast, if_neg hcells, if_neg (by omega), if_neg (by omega)]
      split
      · have e2 : 0xF0 ||| k = 0xF0 + k := by interval_cases k <;> rfl
        rw [e2, BitVec.toNat_ofNat]; omega
      · exact hm b' hb'

/-- A byte stored in a cell keeps the table canonical and the MRU bytes legal. -/
theorem cell_put_ok {e : Nat} {tab : Memory 8} (hw : tab.wf zeros (64 * e)) (hm : MruOk e tab) {p j : Nat}
    (hp : IsCell0 e p) (hj : j ≤ 6) (v : Byte) :
    (putByte tab (p + j) v).wf zeros (64 * e) ∧ MruOk e (putByte tab (p + j) v) := by
  obtain ⟨b, k, hb, hk, rfl⟩ := hp
  have e1 : cmCell b k + j = 64 * b + (15 + 7 * k + j) := by unfold cmCell; omega
  rw [e1]
  exact ⟨putByte_wf hw (by omega) v, hm.putByte (by omega) (by omega) v⟩

theorem cmSeed_ok {e : Nat} {tab : Memory 8} (hw : tab.wf zeros (64 * e)) (hm : MruOk e tab) {p : Nat}
    (hp : IsCell0 e p) (x : Nat) : (cmSeed tab p x).wf zeros (64 * e) ∧ MruOk e (cmSeed tab p x) := by
  obtain ⟨w1, m1⟩ := cell_put_ok hw hm hp (j := 0) (by omega) (BitVec.ofNat 8 (1 + x / 4 % 2))
  obtain ⟨w2, m2⟩ := cell_put_ok w1 m1 hp (j := 1 + x / 4 % 2) (by omega) (BitVec.ofNat 8 (1 + x / 2 % 2))
  have h3 := cell_put_ok w2 m2 hp (j := 3 + (2 * (x / 4 % 2) + x / 2 % 2)) (by omega) (BitVec.ofNat 8 (1 + x % 2))
  simpa only [cmSeed, Nat.add_zero, Nat.add_assoc] using h3

/-- The bytes after a slot is seeded: three cells on the path of the bits of `x` (45_contextmap.md R104). -/
theorem byteAt_cmSeed (tab : Memory 8) (p x a : Nat) :
    (byteAt (cmSeed tab p x) a).toNat =
      if a = p then 1 + x / 4 % 2
      else if a = p + 1 + x / 4 % 2 then 1 + x / 2 % 2
      else if a = p + 3 + x / 2 % 4 then 1 + x % 2
      else (byteAt tab a).toNat := by
  have e : 2 * (x / 4 % 2) + x / 2 % 2 = x / 2 % 4 := by omega
  have bit : ∀ n : Nat, (BitVec.ofNat 8 (1 + n % 2)).toNat = 1 + n % 2 := fun n => by simp only [BitVec.toNat_ofNat]; omega
  simp only [cmSeed, byteAt_putByte, e]
  by_cases h3 : a = p + 3 + x / 2 % 4
  · rw [if_pos h3, if_neg (by omega), if_neg (by omega), if_pos h3, bit]
  · rw [if_neg h3, if_neg h3]
    by_cases h2 : a = p + 1 + x / 4 % 2
    · rw [if_pos h2, if_neg (by omega), if_pos h2, bit]
    · rw [if_neg h2, if_neg h2]
      split
      · exact bit _
      · rfl

theorem cmBucket_lt {e : Nat} (h : 0 < e) (cxt : Word) (x : Nat) : cmBucket e cxt x < e := by
  have := Nat.and_le_right (n := cxt.toNat + x) (m := e - 1)
  unfold cmBucket; omega

theorem cmPending_ok {e : Nat} (he : 0 < e) {tab : Memory 8} (hw : tab.wf zeros (64 * e)) (hm : MruOk e tab) (cxt : Word)
    {p : Nat} (hp : IsCell0 e p) :
    (cmPending e tab cxt p).wf zeros (64 * e) ∧ MruOk e (cmPending e tab cxt p) := by
  obtain ⟨w1, m1, p1⟩ := cmGet_ok hw hm (cmBucket_lt he cxt (((byteAt tab (p + 4)).toNat + 256) / 64)) (cmTag cxt)
  obtain ⟨w2, m2⟩ := cmSeed_ok w1 m1 p1 (((byteAt tab (p + 4)).toNat + 256) / 8 % 8)
  obtain ⟨w3, m3, p3⟩ := cmGet_ok w2 m2 (cmBucket_lt he cxt (((byteAt tab (p + 4)).toNat + 256) / 8)) (cmTag cxt)
  obtain ⟨w4, m4⟩ := cmSeed_ok w3 m3 p3 (((byteAt tab (p + 4)).toNat + 256) % 8)
  exact cell_put_ok w4 m4 hp (by omega) 0

theorem runUpdate_cell_ok {e : Nat} {tab : Memory 8} (hw : tab.wf zeros (64 * e)) (hm : MruOk e tab) {p : Nat}
    (hp : IsCell0 e p) (prev : Byte) :
    (runUpdate tab (p + 3) prev).wf zeros (64 * e) ∧ MruOk e (runUpdate tab (p + 3) prev) := by
  obtain ⟨w1, m1⟩ := cell_put_ok hw hm hp (j := 3) (by omega)
    (runNext (byteAt tab (p + 3)) (byteAt tab (p + 3 + 1)) prev).1
  exact cell_put_ok w1 m1 hp (j := 4) (by omega) _

theorem ilog_le (x : Nat) (h : x ≤ 65536) : ilog x ≤ 256 := by
  unfold ilog
  have h0 : x ^ 32 ≤ (2 ^ 16) ^ 32 := Nat.pow_le_pow_left h 32
  rw [← pow_mul] at h0
  have h1 : x ^ 32 < 2 ^ 513 := lt_of_le_of_lt h0 (Nat.pow_lt_pow_right (by decide) (by decide))
  have h2 : Nat.log2 (x ^ 32) < 513 := by
    by_cases h0 : x ^ 32 = 0
    · rw [h0]; decide
    · exact (Nat.log2_lt h0).2 h1
  omega

theorem ilog_le_128 (x : Nat) (h : x ≤ 256) : ilog x ≤ 128 := by
  unfold ilog
  have h0 : x ^ 32 ≤ (2 ^ 8) ^ 32 := Nat.pow_le_pow_left h 32
  rw [← pow_mul] at h0
  have h1 : x ^ 32 < 2 ^ 257 := lt_of_le_of_lt h0 (Nat.pow_lt_pow_right (by decide) (by decide))
  have h2 : Nat.log2 (x ^ 32) < 257 := by
    by_cases h0 : x ^ 32 = 0
    · rw [h0]; decide
    · exact (Nat.log2_lt h0).2 h1
  omega

/-- The run score lies in [-1024, 1024] (45_contextmap.md R106). -/
theorem runScore_range (g : GlobalContext) (rc rb : Byte) : -1024 ≤ runScore g rc rb ∧ runScore g rc rb ≤ 1024 := by
  have hi := ilog_le_128 (rc.toNat + 1) (by have := rc.isLt; omega)
  simp only [runScore]
  split
  · rcases Nat.mod_two_eq_zero_or_one (rb.toNat / 2 ^ (7 - g.bpos.toNat)) with h | h <;>
      rcases Nat.mod_two_eq_zero_or_one rc.toNat with h' | h' <;> rw [h, h'] <;> push_cast <;> omega
  · omega

/-- Appending inputs to a stage changes its inputs and their number only (43_mixer.md R89). -/
theorem Stage.addAll_spec (u : Stage) (xs : List Int) :
    u.addAll xs = { u with tx := (u.addAll xs).tx, nx := u.nx + xs.length } ∧
    ∀ k, (u.addAll xs).input k =
      if u.nx ≤ k ∧ k < u.nx + xs.length then (BitVec.ofInt 16 (xs.getD (k - u.nx) 0)).toInt else u.input k := by
  induction xs generalizing u with
  | nil => exact ⟨rfl, fun k => by rw [if_neg (by simp only [List.length_nil]; omega)]; rfl⟩
  | cons x xs ih =>
    obtain ⟨h1, h2⟩ := ih (u.add x)
    have hn : (u.add x).nx = u.nx + 1 := rfl
    refine ⟨?_, fun k => ?_⟩
    · simp only [Stage.addAll, List.length_cons]
      rw [h1, hn, show u.nx + 1 + xs.length = u.nx + (xs.length + 1) by omega]
      rfl
    · simp only [Stage.addAll, List.length_cons]
      rw [h2, hn, (u.add_spec x).2]
      by_cases hk : k = u.nx
      · subst hk
        rw [if_neg (by omega), if_pos rfl, if_pos (by omega)]; simp
      · by_cases hk2 : u.nx + 1 ≤ k ∧ k < u.nx + 1 + xs.length
        · rw [if_pos hk2, if_pos (by omega)]
          obtain ⟨d, rfl⟩ : ∃ d, k = u.nx + 1 + d := ⟨k - (u.nx + 1), by omega⟩
          rw [show u.nx + 1 + d - (u.nx + 1) = d by omega, show u.nx + 1 + d - u.nx = d + 1 by omega]
          rfl
        · rw [if_neg hk2, if_neg hk, if_neg (by omega)]

theorem Stage.addAll_ok (xs : List Int) {u : Stage} (h : u.Ok) (hn : u.nx + xs.length ≤ u.cap) : (u.addAll xs).Ok := by
  induction xs generalizing u with
  | nil => exact h
  | cons x xs ih =>
    simp only [List.length_cons] at hn
    exact ih (Stage.add_ok h x (by omega)) (by show u.nx + 1 + xs.length ≤ u.cap; omega)

theorem smP_ok {c : Config} {u : StateMap} (h : u.Ok c) (y : BitVec 1) (cx : Byte) : (smP c y u cx).1.Ok c :=
  ⟨Memory.write_wf h.t u.prev.isLt _⟩

/-- One round of CM_MIX keeps the invariant of the unit and of the mixer that takes the inputs (45_contextmap.md R109,
70_reset_and_hazards.md R143: nothing is written outside the table). -/
theorem cmMixContext_ok {c : Config} {g : GlobalContext} {e : Nat} (he : 0 < e) {q : CmCarry} {k : CmContext}
    (hr : q.rng.Ok) (hw : q.tab.wf zeros (64 * e)) (hm : MruOk e q.tab) (hx : q.x.Ok) (hn : q.x.nx + 6 ≤ q.x.cap)
    (hk : k.Ok c e) :
    (cmMixContext c g e q k).1.rng.Ok ∧ ((cmMixContext c g e q k).1.tab).wf zeros (64 * e) ∧
    MruOk e (cmMixContext c g e q k).1.tab ∧ (cmMixContext c g e q k).1.x.Ok ∧
    (cmMixContext c g e q k).1.x = { q.x with tx := (cmMixContext c g e q k).1.x.tx, nx := q.x.nx + 6 } ∧
    (cmMixContext c g e q k).2.Ok c e := by
  obtain ⟨r, hr0, hrp⟩ := hk.runp
  -- step 1
  have h1 : (cmUpdateCell c g.y q.rng q.tab k).1.Ok ∧ ((cmUpdateCell c g.y q.rng q.tab k).2).wf zeros (64 * e) ∧
      MruOk e (cmUpdateCell c g.y q.rng q.tab k).2 := by
    unfold cmUpdateCell
    split
    · exact ⟨hr, hw, hm⟩
    · rename_i a ha
      obtain ⟨ha1, ha2⟩ := hk.cp a ha
      obtain ⟨w, m⟩ := cell_put_ok hw hm hk.cp0 (j := a - k.cp0) (by omega) (fsmStep c q.rng (byteAt q.tab a) g.y).2
      rw [show k.cp0 + (a - k.cp0) = a by omega] at w m
      exact ⟨fsmStep_ok hr _ _, w, m⟩
  obtain ⟨r1, w1, m1⟩ := h1
  -- step 2
  have hc0 : ∀ n : Nat, n ≤ 6 → ∀ a, some (k.cp0 + n) = some a → k.cp0 ≤ a ∧ a ≤ k.cp0 + 6 := fun n hn a h => by
    injection h with h; omega
  have h2 : ((cmAdvance g e (cmUpdateCell c g.y q.rng q.tab k).2 k).1).wf zeros (64 * e) ∧
      MruOk e (cmAdvance g e (cmUpdateCell c g.y q.rng q.tab k).2 k).1 ∧
      (cmAdvance g e (cmUpdateCell c g.y q.rng q.tab k).2 k).2.Ok c e := by
    generalize (cmUpdateCell c g.y q.rng q.tab k).2 = tab at w1 m1
    unfold cmAdvance
    split
    · exact ⟨w1, m1, hk.cp0, by simp, hk.runp, hk.sm⟩
    split
    · exact ⟨w1, m1, hk.cp0, fun a h => hc0 (1 + g.c0.toNat % 2) (by omega) a (by rw [← h]; simp; omega), hk.runp, hk.sm⟩
    split
    · exact ⟨w1, m1, hk.cp0, fun a h => hc0 (3 + g.c0.toNat % 4) (by omega) a (by rw [← h]; simp; omega), hk.runp, hk.sm⟩
    unfold cmLookup
    obtain ⟨w2, m2, p2⟩ := cmGet_ok w1 m1 (cmBucket_lt he k.cxt g.c0.toNat) (cmTag k.cxt)
    generalize cmGet tab (cmBucket e k.cxt g.c0.toNat) (cmTag k.cxt) = z at w2 m2 p2
    have hcp : ∀ a, some z.2 = some a → z.2 ≤ a ∧ a ≤ z.2 + 6 := fun a h => by injection h with h; omega
    dsimp only
    split
    · have h3 : (if byteAt z.1 (z.2 + 3) = 2 then cmPending e z.1 k.cxt z.2 else z.1).wf zeros (64 * e) ∧
          MruOk e (if byteAt z.1 (z.2 + 3) = 2 then cmPending e z.1 k.cxt z.2 else z.1) := by
        split
        · exact cmPending_ok he w2 m2 _ p2
        · exact ⟨w2, m2⟩
      rw [hrp]
      obtain ⟨w4, m4⟩ := runUpdate_cell_ok h3.1 h3.2 hr0 (g.bufBack 1)
      exact ⟨w4, m4, p2, hcp, ⟨z.2, p2, rfl⟩, hk.sm⟩
    · exact ⟨w2, m2, p2, hcp, hk.runp, hk.sm⟩
  obtain ⟨w2, m2, k2⟩ := h2
  refine ⟨r1, w2, m2, ?_, ?_, ⟨k2.cp0, k2.cp, k2.runp, smP_ok k2.sm _ _⟩⟩
  · exact Stage.addAll_ok _ (Stage.add_ok hx _ (by omega)) (by show q.x.nx + 1 + 5 ≤ q.x.cap; omega)
  · exact (Stage.addAll_spec (q.x.add _) (mix2Inputs c _ _)).1

/-- The loop of CM_MIX keeps the invariant (45_contextmap.md R109). -/
theorem cmMixLoop_ok {c : Config} {g : GlobalContext} {e : Nat} (he : 0 < e) (ks : List CmContext) {q : CmCarry}
    (hr : q.rng.Ok) (hw : q.tab.wf zeros (64 * e)) (hm : MruOk e q.tab) (hx : q.x.Ok)
    (hn : q.x.nx + 6 * ks.length ≤ q.x.cap) (hk : ∀ k ∈ ks, k.Ok c e) :
    (cmMixLoop c g e q ks).1.rng.Ok ∧ ((cmMixLoop c g e q ks).1.tab).wf zeros (64 * e) ∧
    MruOk e (cmMixLoop c g e q ks).1.tab ∧ (cmMixLoop c g e q ks).1.x.Ok ∧
    (cmMixLoop c g e q ks).1.x =
      { q.x with tx := (cmMixLoop c g e q ks).1.x.tx, nx := q.x.nx + 6 * ks.length } ∧
    (cmMixLoop c g e q ks).2.length = ks.length ∧ ∀ k ∈ (cmMixLoop c g e q ks).2, k.Ok c e := by
  induction ks generalizing q with
  | nil => exact ⟨hr, hw, hm, hx, rfl, rfl, by simp [cmMixLoop]⟩
  | cons k ks ih =>
    simp only [List.length_cons] at hn ⊢
    obtain ⟨a1, a2, a3, a4, a5, a6⟩ := cmMixContext_ok (g := g) he hr hw hm hx (by omega) (hk k (by simp))
    generalize hz : cmMixContext c g e q k = z at a1 a2 a3 a4 a5 a6
    have hnx : z.1.x.nx = q.x.nx + 6 := by rw [a5]
    have hcap : z.1.x.cap = q.x.cap := by rw [a5]; rfl
    obtain ⟨b1, b2, b3, b4, b5, b6, b7⟩ := ih (q := z.1) a1 a2 a3 a4 (by omega) fun x hx => hk x (by simp [hx])
    simp only [cmMixLoop, hz]
    refine ⟨b1, b2, b3, b4, ?_, by simp [b6], ?_⟩
    · rw [b5, hnx, show q.x.nx + 6 + 6 * ks.length = q.x.nx + 6 * (ks.length + 1) by omega]
      obtain ⟨tx, htx⟩ : ∃ tx, z.1.x = { q.x with tx := tx, nx := q.x.nx + 6 } := ⟨_, a5⟩
      rw [htx]
    · intro x hx
      obtain rfl | hx := List.mem_cons.1 hx
      · exact a6
      · exact b7 x hx

end Sys2Proof.Machine
end

