-- ==== Sys2Proof/Laws/PerInstr.lean ====
section
/-! SUPPORT. The family `EncodeOpcode`: field OP of the word of a command is the command's opcode (30_encoding.md R57). -/

namespace Sys2Proof.Laws.EncodeOpcode

/-- Field OP of the word of `i` is the opcode of `i`. -/
def Statement (i : Instr) : Prop := opField (encode i) = i.opcode

theorem nop : Statement .nop := opField_formatC _ _ _ _
theorem bitBegin (b : BitVec 1) : Statement (.bitBegin b) := opField_formatC _ _ _ _
theorem bitEnd : Statement .bitEnd := opField_formatC _ _ _ _
theorem probRead : Statement .probRead := opField_formatC _ _ _ _
theorem dbgRd (c : DbgClass) (u x : BitVec 8) : Statement (.dbgRd c u x) := opField_formatC _ _ _ _
theorem squash : Statement .squash := opField_formatC _ _ _ _
theorem stretch : Statement .stretch := opField_formatC _ _ _ _
theorem ilog : Statement .ilog := opField_formatC _ _ _ _
theorem fsmNext (b : BitVec 1) : Statement (.fsmNext b) := opField_formatC _ _ _ _
theorem fsmCounts : Statement .fsmCounts := opField_formatC _ _ _ _
theorem fsmNextp (b : BitVec 1) : Statement (.fsmNextp b) := opField_formatC _ _ _ _
theorem rngNext : Statement .rngNext := opField_formatC _ _ _ _
theorem smP (u : BitVec 8) : Statement (.smP u) := opField_formatC _ _ _ _
theorem apmP (u r : BitVec 8) : Statement (.apmP u r) := opField_formatC _ _ _ _
theorem mixUpdate (u : BitVec 8) : Statement (.mixUpdate u) := opField_formatC _ _ _ _
theorem mixAdd (u : BitVec 8) : Statement (.mixAdd u) := opField_formatC _ _ _ _
theorem mixSet (u : BitVec 8) : Statement (.mixSet u) := opField_formatC _ _ _ _
theorem mixP (u : BitVec 8) : Statement (.mixP u) := opField_formatC _ _ _ _
theorem bhLookup (u : BitVec 8) : Statement (.bhLookup u) := opField_formatC _ _ _ _
theorem bhRd (u : BitVec 8) : Statement (.bhRd u) := opField_formatC _ _ _ _
theorem bhWr (u : BitVec 8) : Statement (.bhWr u) := opField_formatC _ _ _ _
theorem cmSet (u : BitVec 8) : Statement (.cmSet u) := opField_formatC _ _ _ _
theorem cmMix (u x : BitVec 8) : Statement (.cmMix u x) := opField_formatC _ _ _ _
theorem rcmSet (u : BitVec 8) : Statement (.rcmSet u) := opField_formatC _ _ _ _
theorem rcmMix (u x : BitVec 8) : Statement (.rcmMix u x) := opField_formatC _ _ _ _
theorem sscmSet (u : BitVec 8) : Statement (.sscmSet u) := opField_formatC _ _ _ _
theorem sscmMix (u x r : BitVec 8) : Statement (.sscmMix u x r) := opField_formatC _ _ _ _

end Sys2Proof.Laws.EncodeOpcode
end

