-- ==== Sys2Proof/Laws/State.lean ====
section
/-! SUPPORT. What every named update of State leaves in every field, and what raising an error can do. -/

namespace Sys2Proof.Machine

@[simp] theorem State.setRes0_cfg (s : State) (v : Word) : (s.setRes0 v).cfg = s.cfg := rfl
@[simp] theorem State.setRes0_cmd (s : State) (v : Word) : (s.setRes0 v).cmd = s.cmd := rfl
@[simp] theorem State.setRes0_arg0 (s : State) (v : Word) : (s.setRes0 v).arg0 = s.arg0 := rfl
@[simp] theorem State.setRes0_arg1 (s : State) (v : Word) : (s.setRes0 v).arg1 = s.arg1 := rfl
@[simp] theorem State.setRes0_arg2 (s : State) (v : Word) : (s.setRes0 v).arg2 = s.arg2 := rfl
@[simp] theorem State.setRes0_res0 (s : State) (v : Word) : (s.setRes0 v).res0 = v := rfl
@[simp] theorem State.setRes0_res1 (s : State) (v : Word) : (s.setRes0 v).res1 = s.res1 := rfl
@[simp] theorem State.setRes0_busy (s : State) (v : Word) : (s.setRes0 v).busy = s.busy := rfl
@[simp] theorem State.setRes0_err (s : State) (v : Word) : (s.setRes0 v).err = s.err := rfl
@[simp] theorem State.setRes0_latch (s : State) (v : Word) : (s.setRes0 v).latch = s.latch := rfl
@[simp] theorem State.setRes0_g (s : State) (v : Word) : (s.setRes0 v).g = s.g := rfl
@[simp] theorem State.setRes0_rng (s : State) (v : Word) : (s.setRes0 v).rng = s.rng := rfl
@[simp] theorem State.setRes0_sm (s : State) (v : Word) : (s.setRes0 v).sm = s.sm := rfl
@[simp] theorem State.setRes0_apm (s : State) (v : Word) : (s.setRes0 v).apm = s.apm := rfl
@[simp] theorem State.setRes0_mix (s : State) (v : Word) : (s.setRes0 v).mix = s.mix := rfl
@[simp] theorem State.setRes0_bh (s : State) (v : Word) : (s.setRes0 v).bh = s.bh := rfl
@[simp] theorem State.setRes0_cm (s : State) (v : Word) : (s.setRes0 v).cm = s.cm := rfl
@[simp] theorem State.setRes0_rcm (s : State) (v : Word) : (s.setRes0 v).rcm = s.rcm := rfl
@[simp] theorem State.setRes0_sscm (s : State) (v : Word) : (s.setRes0 v).sscm = s.sscm := rfl
@[simp] theorem State.setRes0_host (s : State) (v : Word) : (s.setRes0 v).host = s.host := rfl
@[simp] theorem State.setRes0_busOut (s : State) (v : Word) : (s.setRes0 v).busOut = s.busOut := rfl

@[simp] theorem State.setRes_cfg (s : State) (v w : Word) : (s.setRes v w).cfg = s.cfg := rfl
@[simp] theorem State.setRes_cmd (s : State) (v w : Word) : (s.setRes v w).cmd = s.cmd := rfl
@[simp] theorem State.setRes_arg0 (s : State) (v w : Word) : (s.setRes v w).arg0 = s.arg0 := rfl
@[simp] theorem State.setRes_arg1 (s : State) (v w : Word) : (s.setRes v w).arg1 = s.arg1 := rfl
@[simp] theorem State.setRes_arg2 (s : State) (v w : Word) : (s.setRes v w).arg2 = s.arg2 := rfl
@[simp] theorem State.setRes_res0 (s : State) (v w : Word) : (s.setRes v w).res0 = v := rfl
@[simp] theorem State.setRes_res1 (s : State) (v w : Word) : (s.setRes v w).res1 = w := rfl
@[simp] theorem State.setRes_busy (s : State) (v w : Word) : (s.setRes v w).busy = s.busy := rfl
@[simp] theorem State.setRes_err (s : State) (v w : Word) : (s.setRes v w).err = s.err := rfl
@[simp] theorem State.setRes_latch (s : State) (v w : Word) : (s.setRes v w).latch = s.latch := rfl
@[simp] theorem State.setRes_g (s : State) (v w : Word) : (s.setRes v w).g = s.g := rfl
@[simp] theorem State.setRes_rng (s : State) (v w : Word) : (s.setRes v w).rng = s.rng := rfl
@[simp] theorem State.setRes_sm (s : State) (v w : Word) : (s.setRes v w).sm = s.sm := rfl
@[simp] theorem State.setRes_apm (s : State) (v w : Word) : (s.setRes v w).apm = s.apm := rfl
@[simp] theorem State.setRes_mix (s : State) (v w : Word) : (s.setRes v w).mix = s.mix := rfl
@[simp] theorem State.setRes_bh (s : State) (v w : Word) : (s.setRes v w).bh = s.bh := rfl
@[simp] theorem State.setRes_cm (s : State) (v w : Word) : (s.setRes v w).cm = s.cm := rfl
@[simp] theorem State.setRes_rcm (s : State) (v w : Word) : (s.setRes v w).rcm = s.rcm := rfl
@[simp] theorem State.setRes_sscm (s : State) (v w : Word) : (s.setRes v w).sscm = s.sscm := rfl
@[simp] theorem State.setRes_host (s : State) (v w : Word) : (s.setRes v w).host = s.host := rfl
@[simp] theorem State.setRes_busOut (s : State) (v w : Word) : (s.setRes v w).busOut = s.busOut := rfl

@[simp] theorem State.setG_cfg (s : State) (g : GlobalContext) : (s.setG g).cfg = s.cfg := rfl
@[simp] theorem State.setG_cmd (s : State) (g : GlobalContext) : (s.setG g).cmd = s.cmd := rfl
@[simp] theorem State.setG_arg0 (s : State) (g : GlobalContext) : (s.setG g).arg0 = s.arg0 := rfl
@[simp] theorem State.setG_arg1 (s : State) (g : GlobalContext) : (s.setG g).arg1 = s.arg1 := rfl
@[simp] theorem State.setG_arg2 (s : State) (g : GlobalContext) : (s.setG g).arg2 = s.arg2 := rfl
@[simp] theorem State.setG_res0 (s : State) (g : GlobalContext) : (s.setG g).res0 = s.res0 := rfl
@[simp] theorem State.setG_res1 (s : State) (g : GlobalContext) : (s.setG g).res1 = s.res1 := rfl
@[simp] theorem State.setG_busy (s : State) (g : GlobalContext) : (s.setG g).busy = s.busy := rfl
@[simp] theorem State.setG_err (s : State) (g : GlobalContext) : (s.setG g).err = s.err := rfl
@[simp] theorem State.setG_latch (s : State) (g : GlobalContext) : (s.setG g).latch = s.latch := rfl
@[simp] theorem State.setG_g (s : State) (g : GlobalContext) : (s.setG g).g = g := rfl
@[simp] theorem State.setG_rng (s : State) (g : GlobalContext) : (s.setG g).rng = s.rng := rfl
@[simp] theorem State.setG_sm (s : State) (g : GlobalContext) : (s.setG g).sm = s.sm := rfl
@[simp] theorem State.setG_apm (s : State) (g : GlobalContext) : (s.setG g).apm = s.apm := rfl
@[simp] theorem State.setG_mix (s : State) (g : GlobalContext) : (s.setG g).mix = s.mix := rfl
@[simp] theorem State.setG_bh (s : State) (g : GlobalContext) : (s.setG g).bh = s.bh := rfl
@[simp] theorem State.setG_cm (s : State) (g : GlobalContext) : (s.setG g).cm = s.cm := rfl
@[simp] theorem State.setG_rcm (s : State) (g : GlobalContext) : (s.setG g).rcm = s.rcm := rfl
@[simp] theorem State.setG_sscm (s : State) (g : GlobalContext) : (s.setG g).sscm = s.sscm := rfl
@[simp] theorem State.setG_host (s : State) (g : GlobalContext) : (s.setG g).host = s.host := rfl
@[simp] theorem State.setG_busOut (s : State) (g : GlobalContext) : (s.setG g).busOut = s.busOut := rfl

@[simp] theorem State.setRng_cfg (s : State) (r : Generator) : (s.setRng r).cfg = s.cfg := rfl
@[simp] theorem State.setRng_cmd (s : State) (r : Generator) : (s.setRng r).cmd = s.cmd := rfl
@[simp] theorem State.setRng_arg0 (s : State) (r : Generator) : (s.setRng r).arg0 = s.arg0 := rfl
@[simp] theorem State.setRng_arg1 (s : State) (r : Generator) : (s.setRng r).arg1 = s.arg1 := rfl
@[simp] theorem State.setRng_arg2 (s : State) (r : Generator) : (s.setRng r).arg2 = s.arg2 := rfl
@[simp] theorem State.setRng_res0 (s : State) (r : Generator) : (s.setRng r).res0 = s.res0 := rfl
@[simp] theorem State.setRng_res1 (s : State) (r : Generator) : (s.setRng r).res1 = s.res1 := rfl
@[simp] theorem State.setRng_busy (s : State) (r : Generator) : (s.setRng r).busy = s.busy := rfl
@[simp] theorem State.setRng_err (s : State) (r : Generator) : (s.setRng r).err = s.err := rfl
@[simp] theorem State.setRng_latch (s : State) (r : Generator) : (s.setRng r).latch = s.latch := rfl
@[simp] theorem State.setRng_g (s : State) (r : Generator) : (s.setRng r).g = s.g := rfl
@[simp] theorem State.setRng_rng (s : State) (r : Generator) : (s.setRng r).rng = r := rfl
@[simp] theorem State.setRng_sm (s : State) (r : Generator) : (s.setRng r).sm = s.sm := rfl
@[simp] theorem State.setRng_apm (s : State) (r : Generator) : (s.setRng r).apm = s.apm := rfl
@[simp] theorem State.setRng_mix (s : State) (r : Generator) : (s.setRng r).mix = s.mix := rfl
@[simp] theorem State.setRng_bh (s : State) (r : Generator) : (s.setRng r).bh = s.bh := rfl
@[simp] theorem State.setRng_cm (s : State) (r : Generator) : (s.setRng r).cm = s.cm := rfl
@[simp] theorem State.setRng_rcm (s : State) (r : Generator) : (s.setRng r).rcm = s.rcm := rfl
@[simp] theorem State.setRng_sscm (s : State) (r : Generator) : (s.setRng r).sscm = s.sscm := rfl
@[simp] theorem State.setRng_host (s : State) (r : Generator) : (s.setRng r).host = s.host := rfl
@[simp] theorem State.setRng_busOut (s : State) (r : Generator) : (s.setRng r).busOut = s.busOut := rfl

@[simp] theorem State.setSm_cfg (s : State) (k : Nat) (u : StateMap) : (s.setSm k u).cfg = s.cfg := rfl
@[simp] theorem State.setSm_cmd (s : State) (k : Nat) (u : StateMap) : (s.setSm k u).cmd = s.cmd := rfl
@[simp] theorem State.setSm_arg0 (s : State) (k : Nat) (u : StateMap) : (s.setSm k u).arg0 = s.arg0 := rfl
@[simp] theorem State.setSm_arg1 (s : State) (k : Nat) (u : StateMap) : (s.setSm k u).arg1 = s.arg1 := rfl
@[simp] theorem State.setSm_arg2 (s : State) (k : Nat) (u : StateMap) : (s.setSm k u).arg2 = s.arg2 := rfl
@[simp] theorem State.setSm_res0 (s : State) (k : Nat) (u : StateMap) : (s.setSm k u).res0 = s.res0 := rfl
@[simp] theorem State.setSm_res1 (s : State) (k : Nat) (u : StateMap) : (s.setSm k u).res1 = s.res1 := rfl
@[simp] theorem State.setSm_busy (s : State) (k : Nat) (u : StateMap) : (s.setSm k u).busy = s.busy := rfl
@[simp] theorem State.setSm_err (s : State) (k : Nat) (u : StateMap) : (s.setSm k u).err = s.err := rfl
@[simp] theorem State.setSm_latch (s : State) (k : Nat) (u : StateMap) : (s.setSm k u).latch = s.latch := rfl
@[simp] theorem State.setSm_g (s : State) (k : Nat) (u : StateMap) : (s.setSm k u).g = s.g := rfl
@[simp] theorem State.setSm_rng (s : State) (k : Nat) (u : StateMap) : (s.setSm k u).rng = s.rng := rfl
@[simp] theorem State.setSm_sm (s : State) (k : Nat) (u : StateMap) : (s.setSm k u).sm = s.sm.set k u := rfl
@[simp] theorem State.setSm_apm (s : State) (k : Nat) (u : StateMap) : (s.setSm k u).apm = s.apm := rfl
@[simp] theorem State.setSm_mix (s : State) (k : Nat) (u : StateMap) : (s.setSm k u).mix = s.mix := rfl
@[simp] theorem State.setSm_bh (s : State) (k : Nat) (u : StateMap) : (s.setSm k u).bh = s.bh := rfl
@[simp] theorem State.setSm_cm (s : State) (k : Nat) (u : StateMap) : (s.setSm k u).cm = s.cm := rfl
@[simp] theorem State.setSm_rcm (s : State) (k : Nat) (u : StateMap) : (s.setSm k u).rcm = s.rcm := rfl
@[simp] theorem State.setSm_sscm (s : State) (k : Nat) (u : StateMap) : (s.setSm k u).sscm = s.sscm := rfl
@[simp] theorem State.setSm_host (s : State) (k : Nat) (u : StateMap) : (s.setSm k u).host = s.host := rfl
@[simp] theorem State.setSm_busOut (s : State) (k : Nat) (u : StateMap) : (s.setSm k u).busOut = s.busOut := rfl

@[simp] theorem State.setApm_cfg (s : State) (k : Nat) (u : Apm) : (s.setApm k u).cfg = s.cfg := rfl
@[simp] theorem State.setApm_cmd (s : State) (k : Nat) (u : Apm) : (s.setApm k u).cmd = s.cmd := rfl
@[simp] theorem State.setApm_arg0 (s : State) (k : Nat) (u : Apm) : (s.setApm k u).arg0 = s.arg0 := rfl
@[simp] theorem State.setApm_arg1 (s : State) (k : Nat) (u : Apm) : (s.setApm k u).arg1 = s.arg1 := rfl
@[simp] theorem State.setApm_arg2 (s : State) (k : Nat) (u : Apm) : (s.setApm k u).arg2 = s.arg2 := rfl
@[simp] theorem State.setApm_res0 (s : State) (k : Nat) (u : Apm) : (s.setApm k u).res0 = s.res0 := rfl
@[simp] theorem State.setApm_res1 (s : State) (k : Nat) (u : Apm) : (s.setApm k u).res1 = s.res1 := rfl
@[simp] theorem State.setApm_busy (s : State) (k : Nat) (u : Apm) : (s.setApm k u).busy = s.busy := rfl
@[simp] theorem State.setApm_err (s : State) (k : Nat) (u : Apm) : (s.setApm k u).err = s.err := rfl
@[simp] theorem State.setApm_latch (s : State) (k : Nat) (u : Apm) : (s.setApm k u).latch = s.latch := rfl
@[simp] theorem State.setApm_g (s : State) (k : Nat) (u : Apm) : (s.setApm k u).g = s.g := rfl
@[simp] theorem State.setApm_rng (s : State) (k : Nat) (u : Apm) : (s.setApm k u).rng = s.rng := rfl
@[simp] theorem State.setApm_sm (s : State) (k : Nat) (u : Apm) : (s.setApm k u).sm = s.sm := rfl
@[simp] theorem State.setApm_apm (s : State) (k : Nat) (u : Apm) : (s.setApm k u).apm = s.apm.set k u := rfl
@[simp] theorem State.setApm_mix (s : State) (k : Nat) (u : Apm) : (s.setApm k u).mix = s.mix := rfl
@[simp] theorem State.setApm_bh (s : State) (k : Nat) (u : Apm) : (s.setApm k u).bh = s.bh := rfl
@[simp] theorem State.setApm_cm (s : State) (k : Nat) (u : Apm) : (s.setApm k u).cm = s.cm := rfl
@[simp] theorem State.setApm_rcm (s : State) (k : Nat) (u : Apm) : (s.setApm k u).rcm = s.rcm := rfl
@[simp] theorem State.setApm_sscm (s : State) (k : Nat) (u : Apm) : (s.setApm k u).sscm = s.sscm := rfl
@[simp] theorem State.setApm_host (s : State) (k : Nat) (u : Apm) : (s.setApm k u).host = s.host := rfl
@[simp] theorem State.setApm_busOut (s : State) (k : Nat) (u : Apm) : (s.setApm k u).busOut = s.busOut := rfl

@[simp] theorem State.setMix_cfg (s : State) (k : Nat) (u : Mixer) : (s.setMix k u).cfg = s.cfg := rfl
@[simp] theorem State.setMix_cmd (s : State) (k : Nat) (u : Mixer) : (s.setMix k u).cmd = s.cmd := rfl
@[simp] theorem State.setMix_arg0 (s : State) (k : Nat) (u : Mixer) : (s.setMix k u).arg0 = s.arg0 := rfl
@[simp] theorem State.setMix_arg1 (s : State) (k : Nat) (u : Mixer) : (s.setMix k u).arg1 = s.arg1 := rfl
@[simp] theorem State.setMix_arg2 (s : State) (k : Nat) (u : Mixer) : (s.setMix k u).arg2 = s.arg2 := rfl
@[simp] theorem State.setMix_res0 (s : State) (k : Nat) (u : Mixer) : (s.setMix k u).res0 = s.res0 := rfl
@[simp] theorem State.setMix_res1 (s : State) (k : Nat) (u : Mixer) : (s.setMix k u).res1 = s.res1 := rfl
@[simp] theorem State.setMix_busy (s : State) (k : Nat) (u : Mixer) : (s.setMix k u).busy = s.busy := rfl
@[simp] theorem State.setMix_err (s : State) (k : Nat) (u : Mixer) : (s.setMix k u).err = s.err := rfl
@[simp] theorem State.setMix_latch (s : State) (k : Nat) (u : Mixer) : (s.setMix k u).latch = s.latch := rfl
@[simp] theorem State.setMix_g (s : State) (k : Nat) (u : Mixer) : (s.setMix k u).g = s.g := rfl
@[simp] theorem State.setMix_rng (s : State) (k : Nat) (u : Mixer) : (s.setMix k u).rng = s.rng := rfl
@[simp] theorem State.setMix_sm (s : State) (k : Nat) (u : Mixer) : (s.setMix k u).sm = s.sm := rfl
@[simp] theorem State.setMix_apm (s : State) (k : Nat) (u : Mixer) : (s.setMix k u).apm = s.apm := rfl
@[simp] theorem State.setMix_mix (s : State) (k : Nat) (u : Mixer) : (s.setMix k u).mix = s.mix.set k u := rfl
@[simp] theorem State.setMix_bh (s : State) (k : Nat) (u : Mixer) : (s.setMix k u).bh = s.bh := rfl
@[simp] theorem State.setMix_cm (s : State) (k : Nat) (u : Mixer) : (s.setMix k u).cm = s.cm := rfl
@[simp] theorem State.setMix_rcm (s : State) (k : Nat) (u : Mixer) : (s.setMix k u).rcm = s.rcm := rfl
@[simp] theorem State.setMix_sscm (s : State) (k : Nat) (u : Mixer) : (s.setMix k u).sscm = s.sscm := rfl
@[simp] theorem State.setMix_host (s : State) (k : Nat) (u : Mixer) : (s.setMix k u).host = s.host := rfl
@[simp] theorem State.setMix_busOut (s : State) (k : Nat) (u : Mixer) : (s.setMix k u).busOut = s.busOut := rfl

@[simp] theorem State.setBh_cfg (s : State) (k : Nat) (u : BhTable) : (s.setBh k u).cfg = s.cfg := rfl
@[simp] theorem State.setBh_cmd (s : State) (k : Nat) (u : BhTable) : (s.setBh k u).cmd = s.cmd := rfl
@[simp] theorem State.setBh_arg0 (s : State) (k : Nat) (u : BhTable) : (s.setBh k u).arg0 = s.arg0 := rfl
@[simp] theorem State.setBh_arg1 (s : State) (k : Nat) (u : BhTable) : (s.setBh k u).arg1 = s.arg1 := rfl
@[simp] theorem State.setBh_arg2 (s : State) (k : Nat) (u : BhTable) : (s.setBh k u).arg2 = s.arg2 := rfl
@[simp] theorem State.setBh_res0 (s : State) (k : Nat) (u : BhTable) : (s.setBh k u).res0 = s.res0 := rfl
@[simp] theorem State.setBh_res1 (s : State) (k : Nat) (u : BhTable) : (s.setBh k u).res1 = s.res1 := rfl
@[simp] theorem State.setBh_busy (s : State) (k : Nat) (u : BhTable) : (s.setBh k u).busy = s.busy := rfl
@[simp] theorem State.setBh_err (s : State) (k : Nat) (u : BhTable) : (s.setBh k u).err = s.err := rfl
@[simp] theorem State.setBh_latch (s : State) (k : Nat) (u : BhTable) : (s.setBh k u).latch = s.latch := rfl
@[simp] theorem State.setBh_g (s : State) (k : Nat) (u : BhTable) : (s.setBh k u).g = s.g := rfl
@[simp] theorem State.setBh_rng (s : State) (k : Nat) (u : BhTable) : (s.setBh k u).rng = s.rng := rfl
@[simp] theorem State.setBh_sm (s : State) (k : Nat) (u : BhTable) : (s.setBh k u).sm = s.sm := rfl
@[simp] theorem State.setBh_apm (s : State) (k : Nat) (u : BhTable) : (s.setBh k u).apm = s.apm := rfl
@[simp] theorem State.setBh_mix (s : State) (k : Nat) (u : BhTable) : (s.setBh k u).mix = s.mix := rfl
@[simp] theorem State.setBh_bh (s : State) (k : Nat) (u : BhTable) : (s.setBh k u).bh = s.bh.set k u := rfl
@[simp] theorem State.setBh_cm (s : State) (k : Nat) (u : BhTable) : (s.setBh k u).cm = s.cm := rfl
@[simp] theorem State.setBh_rcm (s : State) (k : Nat) (u : BhTable) : (s.setBh k u).rcm = s.rcm := rfl
@[simp] theorem State.setBh_sscm (s : State) (k : Nat) (u : BhTable) : (s.setBh k u).sscm = s.sscm := rfl
@[simp] theorem State.setBh_host (s : State) (k : Nat) (u : BhTable) : (s.setBh k u).host = s.host := rfl
@[simp] theorem State.setBh_busOut (s : State) (k : Nat) (u : BhTable) : (s.setBh k u).busOut = s.busOut := rfl

@[simp] theorem State.setCm_cfg (s : State) (k : Nat) (u : ContextMap) : (s.setCm k u).cfg = s.cfg := rfl
@[simp] theorem State.setCm_cmd (s : State) (k : Nat) (u : ContextMap) : (s.setCm k u).cmd = s.cmd := rfl
@[simp] theorem State.setCm_arg0 (s : State) (k : Nat) (u : ContextMap) : (s.setCm k u).arg0 = s.arg0 := rfl
@[simp] theorem State.setCm_arg1 (s : State) (k : Nat) (u : ContextMap) : (s.setCm k u).arg1 = s.arg1 := rfl
@[simp] theorem State.setCm_arg2 (s : State) (k : Nat) (u : ContextMap) : (s.setCm k u).arg2 = s.arg2 := rfl
@[simp] theorem State.setCm_res0 (s : State) (k : Nat) (u : ContextMap) : (s.setCm k u).res0 = s.res0 := rfl
@[simp] theorem State.setCm_res1 (s : State) (k : Nat) (u : ContextMap) : (s.setCm k u).res1 = s.res1 := rfl
@[simp] theorem State.setCm_busy (s : State) (k : Nat) (u : ContextMap) : (s.setCm k u).busy = s.busy := rfl
@[simp] theorem State.setCm_err (s : State) (k : Nat) (u : ContextMap) : (s.setCm k u).err = s.err := rfl
@[simp] theorem State.setCm_latch (s : State) (k : Nat) (u : ContextMap) : (s.setCm k u).latch = s.latch := rfl
@[simp] theorem State.setCm_g (s : State) (k : Nat) (u : ContextMap) : (s.setCm k u).g = s.g := rfl
@[simp] theorem State.setCm_rng (s : State) (k : Nat) (u : ContextMap) : (s.setCm k u).rng = s.rng := rfl
@[simp] theorem State.setCm_sm (s : State) (k : Nat) (u : ContextMap) : (s.setCm k u).sm = s.sm := rfl
@[simp] theorem State.setCm_apm (s : State) (k : Nat) (u : ContextMap) : (s.setCm k u).apm = s.apm := rfl
@[simp] theorem State.setCm_mix (s : State) (k : Nat) (u : ContextMap) : (s.setCm k u).mix = s.mix := rfl
@[simp] theorem State.setCm_bh (s : State) (k : Nat) (u : ContextMap) : (s.setCm k u).bh = s.bh := rfl
@[simp] theorem State.setCm_cm (s : State) (k : Nat) (u : ContextMap) : (s.setCm k u).cm = s.cm.set k u := rfl
@[simp] theorem State.setCm_rcm (s : State) (k : Nat) (u : ContextMap) : (s.setCm k u).rcm = s.rcm := rfl
@[simp] theorem State.setCm_sscm (s : State) (k : Nat) (u : ContextMap) : (s.setCm k u).sscm = s.sscm := rfl
@[simp] theorem State.setCm_host (s : State) (k : Nat) (u : ContextMap) : (s.setCm k u).host = s.host := rfl
@[simp] theorem State.setCm_busOut (s : State) (k : Nat) (u : ContextMap) : (s.setCm k u).busOut = s.busOut := rfl

@[simp] theorem State.setRcm_cfg (s : State) (k : Nat) (u : RunMap) : (s.setRcm k u).cfg = s.cfg := rfl
@[simp] theorem State.setRcm_cmd (s : State) (k : Nat) (u : RunMap) : (s.setRcm k u).cmd = s.cmd := rfl
@[simp] theorem State.setRcm_arg0 (s : State) (k : Nat) (u : RunMap) : (s.setRcm k u).arg0 = s.arg0 := rfl
@[simp] theorem State.setRcm_arg1 (s : State) (k : Nat) (u : RunMap) : (s.setRcm k u).arg1 = s.arg1 := rfl
@[simp] theorem State.setRcm_arg2 (s : State) (k : Nat) (u : RunMap) : (s.setRcm k u).arg2 = s.arg2 := rfl
@[simp] theorem State.setRcm_res0 (s : State) (k : Nat) (u : RunMap) : (s.setRcm k u).res0 = s.res0 := rfl
@[simp] theorem State.setRcm_res1 (s : State) (k : Nat) (u : RunMap) : (s.setRcm k u).res1 = s.res1 := rfl
@[simp] theorem State.setRcm_busy (s : State) (k : Nat) (u : RunMap) : (s.setRcm k u).busy = s.busy := rfl
@[simp] theorem State.setRcm_err (s : State) (k : Nat) (u : RunMap) : (s.setRcm k u).err = s.err := rfl
@[simp] theorem State.setRcm_latch (s : State) (k : Nat) (u : RunMap) : (s.setRcm k u).latch = s.latch := rfl
@[simp] theorem State.setRcm_g (s : State) (k : Nat) (u : RunMap) : (s.setRcm k u).g = s.g := rfl
@[simp] theorem State.setRcm_rng (s : State) (k : Nat) (u : RunMap) : (s.setRcm k u).rng = s.rng := rfl
@[simp] theorem State.setRcm_sm (s : State) (k : Nat) (u : RunMap) : (s.setRcm k u).sm = s.sm := rfl
@[simp] theorem State.setRcm_apm (s : State) (k : Nat) (u : RunMap) : (s.setRcm k u).apm = s.apm := rfl
@[simp] theorem State.setRcm_mix (s : State) (k : Nat) (u : RunMap) : (s.setRcm k u).mix = s.mix := rfl
@[simp] theorem State.setRcm_bh (s : State) (k : Nat) (u : RunMap) : (s.setRcm k u).bh = s.bh := rfl
@[simp] theorem State.setRcm_cm (s : State) (k : Nat) (u : RunMap) : (s.setRcm k u).cm = s.cm := rfl
@[simp] theorem State.setRcm_rcm (s : State) (k : Nat) (u : RunMap) : (s.setRcm k u).rcm = s.rcm.set k u := rfl
@[simp] theorem State.setRcm_sscm (s : State) (k : Nat) (u : RunMap) : (s.setRcm k u).sscm = s.sscm := rfl
@[simp] theorem State.setRcm_host (s : State) (k : Nat) (u : RunMap) : (s.setRcm k u).host = s.host := rfl
@[simp] theorem State.setRcm_busOut (s : State) (k : Nat) (u : RunMap) : (s.setRcm k u).busOut = s.busOut := rfl

@[simp] theorem State.setSscm_cfg (s : State) (k : Nat) (u : Sscm) : (s.setSscm k u).cfg = s.cfg := rfl
@[simp] theorem State.setSscm_cmd (s : State) (k : Nat) (u : Sscm) : (s.setSscm k u).cmd = s.cmd := rfl
@[simp] theorem State.setSscm_arg0 (s : State) (k : Nat) (u : Sscm) : (s.setSscm k u).arg0 = s.arg0 := rfl
@[simp] theorem State.setSscm_arg1 (s : State) (k : Nat) (u : Sscm) : (s.setSscm k u).arg1 = s.arg1 := rfl
@[simp] theorem State.setSscm_arg2 (s : State) (k : Nat) (u : Sscm) : (s.setSscm k u).arg2 = s.arg2 := rfl
@[simp] theorem State.setSscm_res0 (s : State) (k : Nat) (u : Sscm) : (s.setSscm k u).res0 = s.res0 := rfl
@[simp] theorem State.setSscm_res1 (s : State) (k : Nat) (u : Sscm) : (s.setSscm k u).res1 = s.res1 := rfl
@[simp] theorem State.setSscm_busy (s : State) (k : Nat) (u : Sscm) : (s.setSscm k u).busy = s.busy := rfl
@[simp] theorem State.setSscm_err (s : State) (k : Nat) (u : Sscm) : (s.setSscm k u).err = s.err := rfl
@[simp] theorem State.setSscm_latch (s : State) (k : Nat) (u : Sscm) : (s.setSscm k u).latch = s.latch := rfl
@[simp] theorem State.setSscm_g (s : State) (k : Nat) (u : Sscm) : (s.setSscm k u).g = s.g := rfl
@[simp] theorem State.setSscm_rng (s : State) (k : Nat) (u : Sscm) : (s.setSscm k u).rng = s.rng := rfl
@[simp] theorem State.setSscm_sm (s : State) (k : Nat) (u : Sscm) : (s.setSscm k u).sm = s.sm := rfl
@[simp] theorem State.setSscm_apm (s : State) (k : Nat) (u : Sscm) : (s.setSscm k u).apm = s.apm := rfl
@[simp] theorem State.setSscm_mix (s : State) (k : Nat) (u : Sscm) : (s.setSscm k u).mix = s.mix := rfl
@[simp] theorem State.setSscm_bh (s : State) (k : Nat) (u : Sscm) : (s.setSscm k u).bh = s.bh := rfl
@[simp] theorem State.setSscm_cm (s : State) (k : Nat) (u : Sscm) : (s.setSscm k u).cm = s.cm := rfl
@[simp] theorem State.setSscm_rcm (s : State) (k : Nat) (u : Sscm) : (s.setSscm k u).rcm = s.rcm := rfl
@[simp] theorem State.setSscm_sscm (s : State) (k : Nat) (u : Sscm) : (s.setSscm k u).sscm = s.sscm.set k u := rfl
@[simp] theorem State.setSscm_host (s : State) (k : Nat) (u : Sscm) : (s.setSscm k u).host = s.host := rfl
@[simp] theorem State.setSscm_busOut (s : State) (k : Nat) (u : Sscm) : (s.setSscm k u).busOut = s.busOut := rfl

@[simp] theorem State.endCommand_cfg (s : State) : s.endCommand.cfg = s.cfg := rfl
@[simp] theorem State.endCommand_cmd (s : State) : s.endCommand.cmd = s.cmd := rfl
@[simp] theorem State.endCommand_arg0 (s : State) : s.endCommand.arg0 = s.arg0 := rfl
@[simp] theorem State.endCommand_arg1 (s : State) : s.endCommand.arg1 = s.arg1 := rfl
@[simp] theorem State.endCommand_arg2 (s : State) : s.endCommand.arg2 = s.arg2 := rfl
@[simp] theorem State.endCommand_res0 (s : State) : s.endCommand.res0 = s.res0 := rfl
@[simp] theorem State.endCommand_res1 (s : State) : s.endCommand.res1 = s.res1 := rfl
@[simp] theorem State.endCommand_busy (s : State) : s.endCommand.busy = false := rfl
@[simp] theorem State.endCommand_err (s : State) : s.endCommand.err = s.err := rfl
@[simp] theorem State.endCommand_latch (s : State) : s.endCommand.latch = s.latch := rfl
@[simp] theorem State.endCommand_g (s : State) : s.endCommand.g = s.g := rfl
@[simp] theorem State.endCommand_rng (s : State) : s.endCommand.rng = s.rng := rfl
@[simp] theorem State.endCommand_sm (s : State) : s.endCommand.sm = s.sm := rfl
@[simp] theorem State.endCommand_apm (s : State) : s.endCommand.apm = s.apm := rfl
@[simp] theorem State.endCommand_mix (s : State) : s.endCommand.mix = s.mix := rfl
@[simp] theorem State.endCommand_bh (s : State) : s.endCommand.bh = s.bh := rfl
@[simp] theorem State.endCommand_cm (s : State) : s.endCommand.cm = s.cm := rfl
@[simp] theorem State.endCommand_rcm (s : State) : s.endCommand.rcm = s.rcm := rfl
@[simp] theorem State.endCommand_sscm (s : State) : s.endCommand.sscm = s.sscm := rfl
@[simp] theorem State.endCommand_host (s : State) : s.endCommand.host = s.host := rfl
@[simp] theorem State.endCommand_busOut (s : State) : s.endCommand.busOut = s.busOut := rfl

@[simp] theorem State.clearErr_cfg (s : State) : s.clearErr.cfg = s.cfg := rfl
@[simp] theorem State.clearErr_cmd (s : State) : s.clearErr.cmd = s.cmd := rfl
@[simp] theorem State.clearErr_arg0 (s : State) : s.clearErr.arg0 = s.arg0 := rfl
@[simp] theorem State.clearErr_arg1 (s : State) : s.clearErr.arg1 = s.arg1 := rfl
@[simp] theorem State.clearErr_arg2 (s : State) : s.clearErr.arg2 = s.arg2 := rfl
@[simp] theorem State.clearErr_res0 (s : State) : s.clearErr.res0 = s.res0 := rfl
@[simp] theorem State.clearErr_res1 (s : State) : s.clearErr.res1 = s.res1 := rfl
@[simp] theorem State.clearErr_busy (s : State) : s.clearErr.busy = s.busy := rfl
@[simp] theorem State.clearErr_err (s : State) : s.clearErr.err = none := rfl
@[simp] theorem State.clearErr_latch (s : State) : s.clearErr.latch = s.latch := rfl
@[simp] theorem State.clearErr_g (s : State) : s.clearErr.g = s.g := rfl
@[simp] theorem State.clearErr_rng (s : State) : s.clearErr.rng = s.rng := rfl
@[simp] theorem State.clearErr_sm (s : State) : s.clearErr.sm = s.sm := rfl
@[simp] theorem State.clearErr_apm (s : State) : s.clearErr.apm = s.apm := rfl
@[simp] theorem State.clearErr_mix (s : State) : s.clearErr.mix = s.mix := rfl
@[simp] theorem State.clearErr_bh (s : State) : s.clearErr.bh = s.bh := rfl
@[simp] theorem State.clearErr_cm (s : State) : s.clearErr.cm = s.cm := rfl
@[simp] theorem State.clearErr_rcm (s : State) : s.clearErr.rcm = s.rcm := rfl
@[simp] theorem State.clearErr_sscm (s : State) : s.clearErr.sscm = s.sscm := rfl
@[simp] theorem State.clearErr_host (s : State) : s.clearErr.host = s.host := rfl
@[simp] theorem State.clearErr_busOut (s : State) : s.clearErr.busOut = s.busOut := rfl

/-- Raising an error as one record update: the first error is kept (60_exceptions.md R120). -/
theorem State.raise_eq (s : State) (code : ErrCode) (v : Word) :
    s.raise code v = { s with err := some (s.err.getD ⟨code, v⟩) } := by
  cases s with
  | mk cfg cmd arg0 arg1 arg2 res0 res1 busy err latch g rng sm apm mix bh cm rcm sscm host busOut =>
    cases err <;> rfl

/-- A command's error as one record update (60_exceptions.md R120). -/
theorem State.refuse_eq (s : State) (code : ErrCode) :
    s.refuse code = { s with err := some (s.err.getD ⟨code, s.latch.word⟩) } :=
  s.raise_eq code s.latch.word

@[simp] theorem State.raise_cfg (s : State) (c : ErrCode) (v : Word) : (s.raise c v).cfg = s.cfg := by
  rw [s.raise_eq]
@[simp] theorem State.raise_cmd (s : State) (c : ErrCode) (v : Word) : (s.raise c v).cmd = s.cmd := by
  rw [s.raise_eq]
@[simp] theorem State.raise_arg0 (s : State) (c : ErrCode) (v : Word) : (s.raise c v).arg0 = s.arg0 := by
  rw [s.raise_eq]
@[simp] theorem State.raise_arg1 (s : State) (c : ErrCode) (v : Word) : (s.raise c v).arg1 = s.arg1 := by
  rw [s.raise_eq]
@[simp] theorem State.raise_arg2 (s : State) (c : ErrCode) (v : Word) : (s.raise c v).arg2 = s.arg2 := by
  rw [s.raise_eq]
@[simp] theorem State.raise_res0 (s : State) (c : ErrCode) (v : Word) : (s.raise c v).res0 = s.res0 := by
  rw [s.raise_eq]
@[simp] theorem State.raise_res1 (s : State) (c : ErrCode) (v : Word) : (s.raise c v).res1 = s.res1 := by
  rw [s.raise_eq]
@[simp] theorem State.raise_busy (s : State) (c : ErrCode) (v : Word) : (s.raise c v).busy = s.busy := by
  rw [s.raise_eq]
@[simp] theorem State.raise_latch (s : State) (c : ErrCode) (v : Word) : (s.raise c v).latch = s.latch := by
  rw [s.raise_eq]
@[simp] theorem State.raise_g (s : State) (c : ErrCode) (v : Word) : (s.raise c v).g = s.g := by
  rw [s.raise_eq]
@[simp] theorem State.raise_rng (s : State) (c : ErrCode) (v : Word) : (s.raise c v).rng = s.rng := by
  rw [s.raise_eq]
@[simp] theorem State.raise_sm (s : State) (c : ErrCode) (v : Word) : (s.raise c v).sm = s.sm := by
  rw [s.raise_eq]
@[simp] theorem State.raise_apm (s : State) (c : ErrCode) (v : Word) : (s.raise c v).apm = s.apm := by
  rw [s.raise_eq]
@[simp] theorem State.raise_mix (s : State) (c : ErrCode) (v : Word) : (s.raise c v).mix = s.mix := by
  rw [s.raise_eq]
@[simp] theorem State.raise_bh (s : State) (c : ErrCode) (v : Word) : (s.raise c v).bh = s.bh := by
  rw [s.raise_eq]
@[simp] theorem State.raise_cm (s : State) (c : ErrCode) (v : Word) : (s.raise c v).cm = s.cm := by
  rw [s.raise_eq]
@[simp] theorem State.raise_rcm (s : State) (c : ErrCode) (v : Word) : (s.raise c v).rcm = s.rcm := by
  rw [s.raise_eq]
@[simp] theorem State.raise_sscm (s : State) (c : ErrCode) (v : Word) : (s.raise c v).sscm = s.sscm := by
  rw [s.raise_eq]
@[simp] theorem State.raise_host (s : State) (c : ErrCode) (v : Word) : (s.raise c v).host = s.host := by
  rw [s.raise_eq]
@[simp] theorem State.raise_busOut (s : State) (c : ErrCode) (v : Word) : (s.raise c v).busOut = s.busOut := by
  rw [s.raise_eq]

@[simp] theorem State.refuse_cfg (s : State) (c : ErrCode) : (s.refuse c).cfg = s.cfg := by
  rw [s.refuse_eq]
@[simp] theorem State.refuse_cmd (s : State) (c : ErrCode) : (s.refuse c).cmd = s.cmd := by
  rw [s.refuse_eq]
@[simp] theorem State.refuse_arg0 (s : State) (c : ErrCode) : (s.refuse c).arg0 = s.arg0 := by
  rw [s.refuse_eq]
@[simp] theorem State.refuse_arg1 (s : State) (c : ErrCode) : (s.refuse c).arg1 = s.arg1 := by
  rw [s.refuse_eq]
@[simp] theorem State.refuse_arg2 (s : State) (c : ErrCode) : (s.refuse c).arg2 = s.arg2 := by
  rw [s.refuse_eq]
@[simp] theorem State.refuse_res0 (s : State) (c : ErrCode) : (s.refuse c).res0 = s.res0 := by
  rw [s.refuse_eq]
@[simp] theorem State.refuse_res1 (s : State) (c : ErrCode) : (s.refuse c).res1 = s.res1 := by
  rw [s.refuse_eq]
@[simp] theorem State.refuse_busy (s : State) (c : ErrCode) : (s.refuse c).busy = s.busy := by
  rw [s.refuse_eq]
@[simp] theorem State.refuse_latch (s : State) (c : ErrCode) : (s.refuse c).latch = s.latch := by
  rw [s.refuse_eq]
@[simp] theorem State.refuse_g (s : State) (c : ErrCode) : (s.refuse c).g = s.g := by
  rw [s.refuse_eq]
@[simp] theorem State.refuse_rng (s : State) (c : ErrCode) : (s.refuse c).rng = s.rng := by
  rw [s.refuse_eq]
@[simp] theorem State.refuse_sm (s : State) (c : ErrCode) : (s.refuse c).sm = s.sm := by
  rw [s.refuse_eq]
@[simp] theorem State.refuse_apm (s : State) (c : ErrCode) : (s.refuse c).apm = s.apm := by
  rw [s.refuse_eq]
@[simp] theorem State.refuse_mix (s : State) (c : ErrCode) : (s.refuse c).mix = s.mix := by
  rw [s.refuse_eq]
@[simp] theorem State.refuse_bh (s : State) (c : ErrCode) : (s.refuse c).bh = s.bh := by
  rw [s.refuse_eq]
@[simp] theorem State.refuse_cm (s : State) (c : ErrCode) : (s.refuse c).cm = s.cm := by
  rw [s.refuse_eq]
@[simp] theorem State.refuse_rcm (s : State) (c : ErrCode) : (s.refuse c).rcm = s.rcm := by
  rw [s.refuse_eq]
@[simp] theorem State.refuse_sscm (s : State) (c : ErrCode) : (s.refuse c).sscm = s.sscm := by
  rw [s.refuse_eq]
@[simp] theorem State.refuse_host (s : State) (c : ErrCode) : (s.refuse c).host = s.host := by
  rw [s.refuse_eq]
@[simp] theorem State.refuse_busOut (s : State) (c : ErrCode) : (s.refuse c).busOut = s.busOut := by
  rw [s.refuse_eq]

@[simp] theorem mapNext_next (f : State → State) (s : State) : mapNext f (.next s) = .next (f s) := rfl

/-- What a mapped outcome can be. -/
theorem mapNext_eq_next {f : State → State} {o : Result} {t : State} (h : mapNext f o = .next t) :
    ∃ s, o = .next s ∧ t = f s := by
  cases o with
  | next s => exact ⟨s, rfl, by simpa [mapNext] using h.symm⟩
  | fault r => exact absurd h (by simp [mapNext])
  | refused r => exact absurd h (by simp [mapNext])

end Sys2Proof.Machine
end

