-- ==== Sys2Proof/Machine/Program.lean ====
section
/-! DEFINITION. Host programs (30_encoding.md R59, R60): the lines of the assembler syntax and the bus accesses they
expand to. A program is what the host does; the block itself holds none (10_state.md R24; log 1). -/

namespace Sys2Proof.Machine

/-- The registers of the window (10_state.md R14). -/
inductive HostReg where
  | CMD | ARG0 | ARG1 | ARG2 | RES0 | RES1 | STATUS | ERRCMD | CTRL | PR | GCTX | POS | C4 | ID
deriving DecidableEq, Repr

/-- The offset of a register (10_state.md R14). -/
def HostReg.offset : HostReg → Nat
  | .CMD => 0x00 | .ARG0 => 0x04 | .ARG1 => 0x08 | .ARG2 => 0x0C | .RES0 => 0x10 | .RES1 => 0x14
  | .STATUS => 0x18 | .ERRCMD => 0x1C | .CTRL => 0x20 | .PR => 0x24 | .GCTX => 0x28 | .POS => 0x2C
  | .C4 => 0x30 | .ID => 0x34

/-- A line of a program (R59): a register write, a register read, or a command with the operands it sets. -/
inductive Line where
  | wr (r : HostReg) (v : Word)
  | rd (r : HostReg)
  | command (op unit mixu imm : BitVec 8) (a0 a1 a2 : Option Word)
deriving DecidableEq, Repr

/-- `APM7 uK a0=p a1=c` (R60). -/
def Line.apm7 (k : BitVec 8) (p c : Word) : Line := .command 0x24 k 0 7 (some p) (some c) none

/-- `SSCM7 uK mJ` (R60). -/
def Line.sscm7 (k j : BitVec 8) : Line := .command 0x61 k j 7 none none none

/-- `OBS #y` (R60): the first command of the source's `observe`. -/
def Line.obs (y : BitVec 1) : Line := .command 0x01 0 0 (y.setWidth 8) none none none

/-- `CLRERR` (R60). -/
def Line.clrErr : Line := .wr .CTRL 0x2

/-- `SRST` (R60). -/
def Line.srst : Line := .wr .CTRL 0x1

/-- `WAIT` (R60): its last read of STATUS, the one that comes after the command in progress is complete. -/
def Line.waitDone : Line := .rd .STATUS

/-- A 32-bit write of a register of the window at `base`. -/
def writeAccess (base : Nat) (r : HostReg) (v : Word) : Access := .write (base + r.offset) 32 v

/-- The write of an operand, if the line sets it (R59). -/
def operandWrite (base : Nat) (r : HostReg) (a : Option Word) : List Access :=
  match a with
  | none => []
  | some v => [writeAccess base r v]

/-- The accesses of a line, operands first, in the order a0, a1, a2 (R59). -/
def Line.accesses (base : Nat) : Line → List Access
  | .wr r v => [writeAccess base r v]
  | .rd r => [.read (base + r.offset) 32]
  | .command op unit mixu imm a0 a1 a2 =>
    operandWrite base .ARG0 a0 ++ operandWrite base .ARG1 a1 ++ operandWrite base .ARG2 a2
      ++ [writeAccess base .CMD (formatC op unit mixu imm)]

/-- The encoding of a program: its accesses, each made after the command in progress is complete (R59). -/
def hostProgram (base : Nat) (p : List Line) : List HostAccess :=
  p.flatMap fun l => (l.accesses base).map fun a => { whileBusy := false, access := a }

end Sys2Proof.Machine
end

