-- ==== Sys2Proof/Tests/Slice0.lean ====
section
/-! SUPPORT. Tests on fixed values: the well-formedness smoke test, one word for every constructor written out from
30_encoding.md R52 and R57, the spec's own examples, and a witness for the hypotheses of every statement. The test
instance has the tables `spotStateTable` and `rampSquash`; no expected value below depends on their open entries. -/

-- The kernel checks of this file run one after another, so that they need few threads.
set_option Elab.async false

open Sys2Proof Sys2Proof.Machine

namespace Sys2Proof.Tests

/-- The configuration of the test instance. -/
def cfg : Config :=
  { stateTable := spotStateTable, squash := rampSquash, rngInit := rngDefault, hash2 := [], hash3 := [], blockBase := 64 }

/-- The geometry of the test instance. -/
def geo : Geometry :=
  { nSm := 1, apm := [256, 65536, 65536, 65536, 65536, 65536, 65536, 1], mix := [⟨6, 1, 1, 0⟩, ⟨2, 3, 3, 32767⟩]
    bh := [(4, 16)], cm := [(1, 16)], rcm := [16], sscm := [1024] }

/-- The test instance after reset, with operands latched. -/
def st (a0 a1 a2 : Word) : State := { State.fresh cfg geo with latch := ⟨0, a0, a1, a2⟩ }

/-- The test instance with the command `w` in progress. -/
def running (w : Word) : State := { st 0 0 0 with busy := true, latch := ⟨w, 0, 0, 0⟩ }

/-- The test instance with one access to come. -/
def facing (busy : Bool) (a : Access) : State := { st 0 0 0 with busy := busy, host := [⟨busy, a⟩] }

/-- The outcome is a next state with property `p`. -/
def gives (r : Result) (p : State → Bool) : Bool :=
  match r with
  | .next t => p t
  | .fault _ => false
  | .refused _ => false

/-- The state of a next outcome. -/
def after (r : Result) : State :=
  match r with
  | .next t => t
  | .fault _ => st 0 0 0
  | .refused _ => st 0 0 0

/-! Well-formedness: the one check refuses a stage on a class without stages. -/

theorem test_wf_dbg_buf_stage_refused : (Instr.dbgRd .buf 0 1).wellFormed = false := by decide
theorem test_wf_dbg_rngWord_stage_refused : (Instr.dbgRd .rngWord 0 255).wellFormed = false := by decide
theorem test_wf_dbg_mixWeight_stage : (Instr.dbgRd .mixWeight 0 1).wellFormed = true := by decide
theorem test_exec_illformed_is_illegal :
    gives (exec (.dbgRd .buf 0 1) (st 0 0 0)) (fun t => t.err == some ⟨.illegalOp, 0⟩) = true := by decide +kernel

/-! Decoding: OP in bits 31:24, UNIT 23:16, MIXU 15:8, IMM 7:0 (30_encoding.md R52, R57). -/

theorem test_decode_nop : decodeTableWord 32 0x00000000 = some .nop := by decide
theorem test_decode_bitBegin : decodeTableWord 32 0x01000001 = some (.bitBegin 1) := by decide
theorem test_decode_bitEnd : decodeTableWord 32 0x02000000 = some .bitEnd := by decide
theorem test_decode_probRead : decodeTableWord 32 0x03000000 = some .probRead := by decide
theorem test_decode_dbgRd : decodeTableWord 32 0x04050106 = some (.dbgRd .mixCounters 5 1) := by decide
theorem test_decode_squash : decodeTableWord 32 0x10000000 = some .squash := by decide
theorem test_decode_stretch : decodeTableWord 32 0x11000000 = some .stretch := by decide
theorem test_decode_ilog : decodeTableWord 32 0x12000000 = some .ilog := by decide
theorem test_decode_fsmNext : decodeTableWord 32 0x13000001 = some (.fsmNext 1) := by decide
theorem test_decode_fsmCounts : decodeTableWord 32 0x14000000 = some .fsmCounts := by decide
theorem test_decode_fsmNextp : decodeTableWord 32 0x15000000 = some (.fsmNextp 0) := by decide
theorem test_decode_rngNext : decodeTableWord 32 0x16000000 = some .rngNext := by decide
theorem test_decode_smP : decodeTableWord 32 0x20FF0000 = some (.smP 255) := by decide
theorem test_decode_apmP : decodeTableWord 32 0x24070009 = some (.apmP 7 9) := by decide
theorem test_decode_mixUpdate : decodeTableWord 32 0x30010000 = some (.mixUpdate 1) := by decide
theorem test_decode_mixAdd : decodeTableWord 32 0x31020000 = some (.mixAdd 2) := by decide
theorem test_decode_mixSet : decodeTableWord 32 0x32030000 = some (.mixSet 3) := by decide
theorem test_decode_mixP : decodeTableWord 32 0x33040000 = some (.mixP 4) := by decide
theorem test_decode_bhLookup : decodeTableWord 32 0x40050000 = some (.bhLookup 5) := by decide
theorem test_decode_bhRd : decodeTableWord 32 0x41060000 = some (.bhRd 6) := by decide
theorem test_decode_bhWr : decodeTableWord 32 0x42070000 = some (.bhWr 7) := by decide
theorem test_decode_cmSet : decodeTableWord 32 0x50080000 = some (.cmSet 8) := by decide
theorem test_decode_cmMix : decodeTableWord 32 0x51090A00 = some (.cmMix 9 10) := by decide
theorem test_decode_rcmSet : decodeTableWord 32 0x580B0000 = some (.rcmSet 11) := by decide
theorem test_decode_rcmMix : decodeTableWord 32 0x590C0D00 = some (.rcmMix 12 13) := by decide
theorem test_decode_sscmSet : decodeTableWord 32 0x600E0000 = some (.sscmSet 14) := by decide
theorem test_decode_sscmMix : decodeTableWord 32 0x61010207 = some (.sscmMix 1 2 7) := by decide
theorem test_decode_reserved_opcode : decode 0xFF010000 = .error .reservedOpcode := by decide
theorem test_decode_reserved_field : decode 0x10000001 = .error .reservedField := by decide
theorem test_decode_reserved_class : decode 0x04000010 = .error .reservedClass := by decide
theorem test_decode_class_without_stage : decode 0x04000100 = .error .classHasNoStage := by decide

/-! The examples of the family files. -/

/-- R62 -/
theorem test_nop : exec .nop (st 1 2 3) = .next (st 1 2 3) := rfl
/-- R63: from reset `BIT_BEGIN #0` gives `c0 = 2`, `bpos = 1`, `pos = 0` -/
theorem test_bitBegin_first :
    gives (exec (.bitBegin 0) (st 0 0 0)) (fun t => t.g.c0 == 2 && t.g.bpos == 1 && t.g.pos == 0) = true := by
  decide +kernel
/-- R63: the eighth bit stores the byte; `c0 = 0b10100000` and bit 1 make the byte 0x41 -/
theorem test_bitBegin_byte :
    gives (exec (.bitBegin 1) ((st 0 0 0).setG { GlobalContext.fresh with c0 := 0xA0, bpos := 7, pos := 0xFFFFFFFF }))
      (fun t => byteAt t.g.buf 0xFFFFFF == 0x41 && t.g.pos == 0 && t.g.c4 == 0x41 && t.g.c0 == 1 && t.g.bpos == 0)
      = true := by
  decide +kernel
/-- R64 -/
theorem test_probRead : gives (exec .probRead (st 0 0 0)) (fun t => t.res0 == 2048) = true := by decide +kernel
/-- R65: `DBG_RD #9 u0 a0=1 a1=0` gives 15 and 0 -/
theorem test_dbgRd :
    gives (exec (.dbgRd .cmContext 0 0) (st 1 0 0)) (fun t => t.res0 == 15 && t.res1 == 0) = true := by decide +kernel
/-- R73 -/
theorem test_squash_zero : gives (exec .squash (st 0 0 0)) (fun t => t.res0 == 2048) = true := by decide +kernel
/-- R73: `SQUASH a0=-2048` gives 0 -/
theorem test_squash_low : gives (exec .squash (st 0xFFFFF800 0 0)) (fun t => t.res0 == 0) = true := by decide +kernel
/-- R74 -/
theorem test_stretch_zero : gives (exec .stretch (st 0 0 0)) (fun t => t.res0 == 0xFFFFF801) = true := by decide +kernel
/-- R74 -/
theorem test_stretch_top : gives (exec .stretch (st 4095 0 0)) (fun t => t.res0 == 2047) = true := by decide +kernel
/-- R75: 45, not the 44 of the integrated table -/
theorem test_ilog_7 : gives (exec .ilog (st 7 0 0)) (fun t => t.res0 == 45) = true := by decide +kernel
/-- R75 -/
theorem test_ilog_65535 : gives (exec .ilog (st 65535 0 0)) (fun t => t.res0 == 256) = true := by decide +kernel
/-- R76 -/
theorem test_fsmNext : gives (exec (.fsmNext 1) (st 1 0 0)) (fun t => t.res0 == 5) = true := by decide +kernel
/-- R77 -/
theorem test_fsmCounts : gives (exec .fsmCounts (st 0 0 0)) (fun t => t.res0 == 0 && t.res1 == 0) = true := by
  decide +kernel
/-- R78: the draw 0x906D9AB0 shifted left by 25 is not 0, so 252 becomes 248 -/
theorem test_fsmNextp :
    gives (exec (.fsmNextp 1) (st 252 0 0)) (fun t => t.res0 == 248 && t.rng.i == 1) = true := by decide +kernel
/-- R70, R79: the words the default warm-up gives -/
theorem test_rng_default : rngDefault.getD 2 0 = 0x92227669 ∧ rngDefault.getD 63 0 = 0xE947E2A3 := by decide +kernel
/-- R78, R79 -/
theorem test_rngNext : gives (exec .rngNext (st 0 0 0)) (fun t => t.res0 == 0x906D9AB0) = true := by decide +kernel
/-- R82 -/
theorem test_smP :
    gives (exec (.smP 0) (st 0 0 0)) (fun t => t.res0 == 2040 &&
      (t.sm.map fun u => u.entry cfg 0) == [32640]) = true := by decide +kernel
/-- R85 -/
theorem test_apmP :
    gives (exec (.apmP 7 7) (after (exec (.bitBegin 1) (after (exec (.apmP 7 7) (st 2048 0 0))))))
      (fun t => t.res0 == 2064 && ((t.apm.getD 7 (Apm.fresh 1)).entry cfg 16) == 33024) = true := by decide +kernel
/-- R92 -/
theorem test_mixUpdate :
    gives (exec (.mixUpdate 0) ((after (exec (.mixSet 0) { after (exec (.mixAdd 0) (st 256 0 0)) with
      latch := ⟨0, 0, 1, 0⟩ })).setG { GlobalContext.fresh with y := 1 }))
      (fun t => (t.mix.map fun m => (m.own.weight 0 0, m.own.nx, m.own.ncxt)) == [(112, 0, 0), (32767, 0, 0)])
      = true := by decide +kernel
/-- R93 -/
theorem test_mixAdd :
    gives (exec (.mixAdd 0) (st 0xFFFF8000 0 0)) (fun t => (t.mix.map fun m => m.own.input 0) == [-32768, 0]) = true := by
  decide +kernel
/-- R94: the sum is not wrapped -/
theorem test_mixSet_not_wrapped :
    gives (exec (.mixSet 1) { after (exec (.mixSet 1) (st 0 1 0)) with latch := ⟨9, 0, 0xFFFFFFFF, 0⟩ })
      (fun t => t.err == some ⟨.mixSetRange, 9⟩) = true := by decide +kernel
/-- R95 -/
theorem test_mixP :
    gives (exec (.mixP 0) (after (exec (.mixAdd 0) (st 256 0 0))))
      (fun t => t.res0 == 2048 && (t.mix.map fun m => m.own.nx) == [8, 0]) = true := by decide +kernel
/-- R98: two keys in one bucket; the first gets priority 5 in between -/
theorem test_bhLookup :
    gives (exec (.bhLookup 0) { after (exec (.bhWr 0) { after (exec (.bhLookup 0) (st 2 0 0)) with
      latch := ⟨0, 0, 2, 5⟩ }) with latch := ⟨0, 4, 0, 0⟩ })
      (fun t => t.res0 == 0 && t.res1 == 1 && (t.bh.map fun u => readBytes u.t 0 8) == [[4, 0, 0, 0, 2, 0, 5, 0]])
      = true := by decide +kernel
/-- R99 -/
theorem test_bhRd :
    gives (exec (.bhRd 0) { after (exec (.bhWr 0) (st 1 2 5)) with latch := ⟨0, 1, 2, 0⟩ }) (fun t => t.res0 == 5)
      = true := by decide +kernel
/-- R100: a checksum byte is refused -/
theorem test_bhWr_checksum :
    gives (exec (.bhWr 0) (st 0 1 5)) (fun t => t.err == some ⟨.argRange, 0⟩) = true := by decide +kernel
/-- R108: `perm(1, 1) = 0xBA3F0FF3`; R109: `perm(1, 0) = 0xED280FF2` -/
theorem test_perm : cmPerm 1 1 = 0xBA3F0FF3 ∧ cmPerm 1 0 = 0xED280FF2 := by decide
/-- R108 -/
theorem test_cmSet :
    gives (exec (.cmSet 0) (st 1 0 0)) (fun t => (t.cm.map fun u => (u.cn, u.ctxs.map CmContext.cxt)) ==
      [(1, [0xED280FF2])]) = true := by decide +kernel
/-- R109: the first bit after reset -/
theorem test_cmMix :
    gives (exec (.cmMix 0 0) (after (exec (.bitBegin 0) (after (exec (.cmSet 0) (st 1 0 0))))))
      (fun t => t.res0 == 0 && (t.cm.map fun u => (byteAt u.tab 15, u.ctxs.map CmContext.cp)) == [(1, [some 16])] &&
        (t.mix.map fun m => m.own.nx) == [6, 0]) = true := by decide +kernel
/-- R104: the pending update at bit 24 of program P3 (95_test_vectors.md), before buckets 7 and 10 have a slot -/
theorem test_cmPending :
    cmPending 16 [(194, 0x28), (195, 0xED), (206, 0xF1), (214, 1), (217, 2), (218, 0x41), (220, 9)] 0xED280FF2 214 =
      [(194, 0x28), (195, 0xED), (206, 0xF1), (214, 1), (217, 2), (218, 0x41), (450, 0x28), (451, 0xED), (462, 0xF1),
       (470, 1), (471, 1), (473, 1), (642, 0x28), (643, 0xED), (654, 0xF1), (662, 1), (663, 1), (665, 2)] := by
  decide +kernel
/-- R111: `buf(1) = 0x41` -/
theorem test_rcmSet :
    gives (exec (.rcmSet 0) ((st 2 0 0).setG { GlobalContext.fresh with pos := 1, buf := [(0, 0x41)] }))
      (fun t => (t.rcm.map fun u => (u.cp, readBytes u.t 0 8)) == [(0, [2, 0, 0, 0, 0, 0, 2, 0x41])]) = true := by
  decide +kernel
/-- R112: `rc = 2`, `rb = 0x41` at `bpos = 1`, `c0 = 2` give +200 -/
theorem test_rcmMix :
    gives (exec (.rcmMix 0 0) ({ st 0 0 0 with rcm := [⟨16, [(2, 2), (3, 0x41)], 0⟩] }.setG
      { GlobalContext.fresh with bpos := 1, c0 := 2 }))
      (fun t => t.res0 == 1 && (t.mix.map fun m => m.own.input 0) == [200, 0]) = true := by decide +kernel
/-- R113: `NE = 1024`, `cx = 5` -/
theorem test_sscmSet :
    gives (exec (.sscmSet 0) (st 5 0 0)) (fun t => (t.sscm.map Sscm.cxt) == [256]) = true := by decide +kernel
/-- R114 -/
theorem test_sscmMix :
    gives (exec (.sscmMix 0 0 7) (st 0 0 0)) (fun t => (t.sscm.map fun u => (u.entry 0, u.cp)) == [(32512, 1)] &&
      (t.mix.map fun m => (m.own.input 0, m.own.nx)) == [(0, 1), (0, 0)]) = true := by decide +kernel
/-- R116: right after reset `BIT_END a0=2048` gives 2048 -/
theorem test_bitEnd :
    gives (exec .bitEnd (st 2048 0 0)) (fun t => t.res0 == 2048 && t.g.pr == 2048) = true := by decide +kernel
/-- R120: the first error is kept, R121: a reserved opcode is reported before a unit -/
theorem test_first_error_kept :
    gives (step { running 0xFF010000 with err := some ⟨.bus, 3⟩ }) (fun t => t.err == some ⟨.bus, 3⟩ && !t.busy) = true ∧
    gives (step (running 0xFF010000)) (fun t => t.err == some ⟨.illegalOp, 0xFF010000⟩) = true := by decide +kernel
/-- R17, R40: STATUS after a misaligned read reads ERR and code 10 -/
theorem test_status_after_bus_error :
    gives (step (facing false (.read 66 32))) (fun t => t.statusWord == 0x0A02 && t.errCmdWord == 2) = true := by
  decide +kernel
/-- R60: `CLRERR` as a program -/
theorem test_program_clrerr :
    hostProgram 64 [.clrErr] = [⟨false, .write 96 32 2⟩] := by decide

/-! Witnesses: a concrete state that meets all hypotheses of a statement, clause by clause at boundary values. -/

theorem admissible_of (t : List StateRow) (q : List (BitVec 12)) (r : List Word) (ht : StateTableOk t)
    (hq : SquashOk q) (hr : r.length = 64) :
    Config.Admissible { stateTable := t, squash := q, rngInit := r, hash2 := [], hash3 := [], blockBase := 64 } :=
  ⟨ht, hq, hr, (by decide : 64 % 64 = 0)⟩

theorem cfg_admissible : cfg.Admissible :=
  admissible_of spotStateTable rampSquash rngDefault spotStateTable_ok rampSquash_ok (by decide +kernel)

theorem geo_valid : geo.Valid where
  nSm := by decide
  nApm := by decide
  apm0 := by decide
  apmStack := by intro k h1 h6; interval_cases k <;> rfl
  apmRows := by decide
  nMix := by decide
  mix := by decide
  nBh := by decide
  bh := by decide +kernel
  nCm := by decide
  cm := by decide +kernel
  nRcm := by decide
  rcm := by decide +kernel
  nSscm := by decide
  sscm := by decide +kernel

/-- A mixer stage of the test instance with two inputs, weights and a selection. -/
def stage : Stage :=
  { n := 6, m := 1, s := 1, w0 := 0, tx := [(0, 256), (1, 7)], wx := [(0, 5)], cxt := [0], ncxt := 1, base := 1, nx := 2
    pr := [100] }

theorem stage_ok : stage.Ok where
  tx := by decide
  wx := by decide
  cxtLength := rfl
  cxt := by decide
  ncxt := by decide
  base := by decide
  nx := by decide
  prLength := rfl

theorem fresh_child_ok : (Stage.fresh 3 1 1 0x7FFF).Ok where
  tx := by decide
  wx := by decide
  cxtLength := rfl
  cxt := by decide
  ncxt := by decide
  base := by decide
  nx := by decide
  prLength := rfl

/-- A mixer of the test instance with two stages, one selection made. -/
def twoStages : Mixer :=
  { own := { n := 2, m := 3, s := 3, w0 := 32767, tx := [(0, 9)], wx := [], cxt := [1, 0, 0], ncxt := 1, base := 2, nx := 1
             pr := [2048, 2048, 2048] }
    child := some (Stage.fresh 3 1 1 0x7FFF) }

theorem twoStages_ok : twoStages.Ok where
  own :=
    { tx := by decide, wx := by decide, cxtLength := rfl, cxt := by decide, ncxt := by decide, base := by decide
      nx := by decide, prLength := rfl }
  child := by
    intro u hu
    obtain rfl : Stage.fresh 3 1 1 0x7FFF = u := by injection hu
    exact ⟨fresh_child_ok, rfl, rfl, rfl, rfl⟩
  second := by decide

/-- A state of the test instance in mid-run: a byte in the ring, a trained entry, a used mixer, a run record, tables with
contents, a command in progress. -/
def mid : State :=
  { running 0x20000000 with
    g := { GlobalContext.fresh with c0 := 5, bpos := 2, y := 1, pos := 1, buf := [(0, 0x41)], pr := 9 }
    sm := [⟨[(7, 3)], 7⟩]
    mix := [⟨stage, none⟩, twoStages]
    bh := [⟨4, 16, [(0, 1), (2, 5)]⟩]
    cm := [⟨16, [(15, 1), (18, 2)], 1, [CmContext.fresh]⟩]
    rcm := [⟨16, [(2, 2), (3, 0x41)], 0⟩]
    sscm := [⟨1024, [(0, 5)], 256, 3⟩] }

theorem mid_inv : mid.Inv where
  cfg := cfg_admissible
  geometry := geo_valid
  g := ⟨by decide, by decide, ⟨by decide, by
    intro c hc
    obtain rfl : c = (0, 0x41) := List.mem_singleton.1 hc
    exact ⟨Nat.two_pow_pos bufLog2, by decide⟩⟩⟩
  rng := ⟨by decide +kernel⟩
  sm := by
    intro u hu
    obtain rfl : u = ⟨[(7, 3)], 7⟩ := List.mem_singleton.1 hu
    exact ⟨by decide +kernel⟩
  apm := by
    intro u hu
    obtain ⟨r, hr, rfl⟩ := List.mem_map.1 hu
    have h1 := geo_valid.apmRows r hr
    exact ⟨⟨List.Pairwise.nil, by simp [Apm.fresh]⟩, by simp only [Apm.fresh]; omega, by simp [Apm.fresh]⟩
  mix := by
    intro m hm
    rcases List.mem_cons.1 hm with rfl | hm
    · exact ⟨stage_ok, by simp, by decide⟩
    · obtain rfl := List.mem_singleton.1 hm
      exact twoStages_ok
  bh := by
    intro u hu
    obtain rfl := List.mem_singleton.1 hu
    exact ⟨by decide⟩
  cm := by
    intro u hu
    obtain rfl := List.mem_singleton.1 hu
    refine ⟨by decide, by decide, by decide, fun k hk => ?_⟩
    obtain rfl := List.mem_singleton.1 hk
    refine ⟨⟨0, 0, by decide, by decide, rfl⟩, fun a ha => ?_, ⟨15, ⟨0, 0, by decide, by decide, rfl⟩, rfl⟩, ⟨?_⟩⟩
    · obtain rfl : 15 = a := by injection ha
      decide
    · exact ⟨List.Pairwise.nil, by simp [CmContext.fresh, StateMap.fresh]⟩
  rcm := by
    intro u hu
    obtain rfl := List.mem_singleton.1 hu
    exact ⟨by decide, by decide⟩
  sscm := by
    intro u hu
    obtain rfl := List.mem_singleton.1 hu
    exact ⟨by decide, by decide, by decide, by decide⟩

theorem mid_next : ∃ t, step mid = .next t := ⟨_, rfl⟩

/-- `mid` with other operands latched. -/
def midWith (a0 a1 a2 : Word) : State := { mid with latch := ⟨0, a0, a1, a2⟩ }

theorem next_of_gives {r : Result} {p : State → Bool} (h : gives r p = true) : ∃ t, r = .next t ∧ p t = true := by
  cases r with
  | next t => exact ⟨t, rfl, h⟩
  | fault f => cases h
  | refused f => cases h

theorem facing_access (busy : Bool) (a : Access) : NextAccess (facing busy a) a [] := ⟨busy, rfl, id⟩

theorem running_performs (w : Word) : Performs (running w) := ⟨rfl, rfl⟩

theorem witness_EncodeThenDecode :
    (Instr.dbgRd .mixWeight 255 255).WellFormed ∧ (Instr.dbgRd .rngWord 255 0).WellFormed ∧
    (Instr.sscmMix 255 255 255).WellFormed ∧ (Instr.bitBegin 1).WellFormed := by decide

theorem witness_DecodeThenEncode :
    decode 0x04FFFF03 = .ok (.dbgRd .mixWeight 255 255) ∧ decode 0x61FFFFFF = .ok (.sscmMix 255 255 255) ∧
    decode 0 = .ok .nop := by decide

/-- For every class of illegal words the two ends of its range. -/
def illegalWords : List Word :=
  [0x05000000, 0x0FFFFFFF, 0x17000000, 0x1FFFFFFF, 0x21000000, 0x23FFFFFF, 0x25000000, 0x2FFFFFFF, 0x34000000,
   0x3FFFFFFF, 0x43000000, 0x4FFFFFFF, 0x52000000, 0x57FFFFFF, 0x5A000000, 0x5FFFFFFF, 0x62000000, 0xFFFFFFFF,
   0x00000001, 0x00FFFFFF, 0x16000001, 0x16800000, 0x01000002, 0x15800001, 0x20000001, 0x60008000, 0x24000100,
   0x24FF8007, 0x51000001, 0x59FFFF80, 0x04000010, 0x040000FF, 0x04000100, 0x0400010F]

theorem witness_IllegalWordOnlyRaisesIllegalOp :
    (∀ w ∈ illegalWords, Performs (running w) ∧ IllegalWord (running w).latch.word.toNat) ∧
    (Instr.dbgRd .mixWeight 0 1).WellFormed ∧ Instr.dbgRd .mixWeight 0 1 ≠ .nop := by
  refine ⟨fun w hw => ⟨running_performs w, ?_⟩, by decide, by decide⟩
  exact of_decide_eq_true (List.all_eq_true.1
    (by decide +kernel : illegalWords.all (fun w => decide (IllegalWord w.toNat)) = true) w hw)

theorem witness_StepRunsTheDecodedCommand :
    Performs mid ∧ decode mid.latch.word = .ok (.smP 0) := ⟨⟨rfl, rfl⟩, by decide⟩

theorem witness_CmdWriteStartsACommand :
    (facing false (.write 64 32 0x20000000)).busy = false ∧
    NextAccess (facing false (.write 64 32 0x20000000)) (.write 64 32 0x20000000) [] :=
  ⟨rfl, facing_access _ _⟩

theorem witness_CmdWriteWhileBusyIsRefused :
    (facing true (.write 64 32 0xFFFFFFFF)).busy = true ∧
    NextAccess (facing true (.write 64 32 0xFFFFFFFF)) (.write 64 32 0xFFFFFFFF) [] :=
  ⟨rfl, facing_access _ _⟩

theorem witness_BadAccessIsABusError :
    ∀ x ∈ [(0, 16), (1, 32), (60, 8), (62, 32), (63, 32)],
      (x.1 < 64 ∧ ¬(x.2 = 32 ∧ x.1 % 4 = 0)) ∧ ∀ busy,
      NextAccess (facing busy (.write (64 + x.1) x.2 5)) (.write (64 + x.1) x.2 5) [] ∧
      NextAccess (facing busy (.read (64 + x.1) x.2)) (.read (64 + x.1) x.2) [] :=
  fun x hx => ⟨(by decide : ∀ x ∈ [(0, 16), (1, 32), (60, 8), (62, 32), (63, 32)],
    x.1 < 64 ∧ ¬(x.2 = 32 ∧ x.1 % 4 = 0)) x hx, fun busy => ⟨facing_access busy _, facing_access busy _⟩⟩

theorem witness_OtherAddressesAreNotSeen :
    ((63 : Nat) < cfg.blockBase ∧ NextAccess (facing false (.write 63 32 5)) (.write 63 32 5) []) ∧
    (cfg.blockBase + 64 ≤ 128 ∧ NextAccess (facing true (.read 128 32)) (.read 128 32) []) :=
  ⟨⟨by decide, facing_access _ _⟩, by decide, facing_access _ _⟩

theorem witness_ReadsReturnTheRegisters :
    ∀ k < 16, 4 * k < 64 ∧ 4 * k % 4 = 0 ∧
      ∀ busy, NextAccess (facing busy (.read (64 + 4 * k) 32)) (.read (64 + 4 * k) 32) [] :=
  fun k hk => ⟨by omega, by omega, fun busy => facing_access busy _⟩

theorem witness_OtherWritesStoreOrAreIgnored :
    ∀ k < 16, 4 * k < 64 ∧ 4 * k % 4 = 0 ∧
      ∀ busy, NextAccess (facing busy (.write (64 + 4 * k) 32 7)) (.write (64 + 4 * k) 32 7) [] :=
  fun k hk => ⟨by omega, by omega, fun busy => facing_access busy _⟩

theorem witness_CtrlResetsAndClears :
    ((1 : Word).toNat % 2 = 1 ∧ (3 : Word).toNat % 2 = 1 ∧ (2 : Word).toNat % 4 = 2 ∧ (0 : Word).toNat % 4 = 0 ∧
      (0xFFFFFFFC : Word).toNat % 4 = 0) ∧
    (∀ v ∈ [(1 : Word), 3, 2, 0, 0xFFFFFFFC], ∀ busy,
      NextAccess (facing busy (.write (64 + 0x20) 32 v)) (.write (64 + 0x20) 32 v) []) ∧
    NextAccess (facing true (.read (64 + 0x20) 32)) (.read (64 + 0x20) 32) [] :=
  ⟨by decide, fun _ _ busy => facing_access busy _, facing_access _ _⟩

theorem witness_ResetGivesEveryResetValue :
    (0xFFFFFFFF : Word).toNat % 2 = 1 ∧
    NextAccess (facing true (.write (64 + 0x20) 32 0xFFFFFFFF)) (.write (64 + 0x20) 32 0xFFFFFFFF) [] :=
  ⟨by decide, facing_access _ _⟩

theorem witness_IdleBlockWaits : (st 0 0 0).busy = false ∧ (st 0 0 0).host = [] := ⟨rfl, rfl⟩

theorem witness_StepKeepsTheInvariant : mid.Inv ∧ ∃ t, step mid = .next t := ⟨mid_inv, mid_next⟩

theorem witness_InstanceNeverStops : mid.Inv := mid_inv

theorem witness_StepKeepsTheConfiguration : ∃ t, step mid = .next t := mid_next

theorem witness_CommandsKeepTheHostSide : ∃ t, exec (.smP 0) mid = .next t := ⟨_, rfl⟩

theorem witness_ErrorIsTheWholeEffect :
    (∃ t, exec (.smP 255) { mid with err := some ⟨.bus, 3⟩ } = .next t) ∧
    ∃ t, exec (.smP 255) mid = .next t ∧ t.err ≠ mid.err :=
  ⟨⟨_, rfl⟩, _, rfl, by decide⟩

theorem witness_OnlyBitEndAndResetWritePr :
    (∃ t, step { running 0x02000000 with latch := ⟨0x02000000, 4095, 0, 0⟩ } = .next t ∧ (t.g.pr != 2048) = true) ∧
    ∃ t, step { mid with host := [⟨true, .write (64 + 0x20) 32 1⟩] } = .next t ∧ (t.g.pr != mid.g.pr) = true :=
  ⟨next_of_gives (by decide +kernel), next_of_gives (by decide +kernel)⟩

theorem witness_ContextAndGeneratorWriters :
    (∃ t, exec (.sscmSet 0) mid = .next t) ∧ (∀ b, Instr.sscmSet 0 ≠ .bitBegin b) ∧ Instr.sscmSet 0 ≠ .bitEnd ∧
    Instr.sscmSet 0 ≠ .rngNext ∧ (∀ b, Instr.sscmSet 0 ≠ .fsmNextp b) ∧ ∀ u x, Instr.sscmSet 0 ≠ .cmMix u x :=
  ⟨⟨_, rfl⟩, by simp, by simp, by simp, by simp, by simp⟩

theorem witness_UnitWriters :
    ((∃ t, exec (.smP 0) mid = .next t) ∧ ∀ u, Instr.smP 0 = .smP u → 1 ≠ u.toNat) ∧
    ((∃ t, exec .bitEnd (st 2048 0 0) = .next t) ∧ (∀ u r, Instr.bitEnd = .apmP u r → 7 ≠ u.toNat) ∧ 7 ≤ 7) ∧
    ((∃ t, exec (.mixAdd 0) mid = .next t) ∧ (∀ u, Instr.mixAdd 0 = .mixAdd u → 1 ≠ u.toNat) ∧
      (∀ u, Instr.mixAdd 0 ≠ .mixUpdate u) ∧ (∀ u, Instr.mixAdd 0 ≠ .mixSet u) ∧ (∀ u, Instr.mixAdd 0 ≠ .mixP u) ∧
      (∀ u x, Instr.mixAdd 0 ≠ .cmMix u x) ∧ (∀ u x, Instr.mixAdd 0 ≠ .rcmMix u x) ∧
      ∀ u x r, Instr.mixAdd 0 ≠ .sscmMix u x r) ∧
    ((∃ t, exec (.bhLookup 0) mid = .next t) ∧ (∀ u, Instr.bhLookup 0 = .bhLookup u → 255 ≠ u.toNat) ∧
      ∀ u, Instr.bhLookup 0 ≠ .bhWr u) ∧
    ((∃ t, exec (.cmSet 0) mid = .next t) ∧ (∀ u, Instr.cmSet 0 = .cmSet u → 1 ≠ u.toNat) ∧
      ∀ u x, Instr.cmSet 0 ≠ .cmMix u x) ∧
    ((∃ t, exec (.rcmSet 0) mid = .next t) ∧ ∀ u, Instr.rcmSet 0 = .rcmSet u → 1 ≠ u.toNat) ∧
    (∃ t, exec (.sscmSet 0) mid = .next t) ∧ (∀ u, Instr.sscmSet 0 = .sscmSet u → 1 ≠ u.toNat) ∧
      ∀ u x r, Instr.sscmSet 0 ≠ .sscmMix u x r := by
  refine ⟨⟨⟨_, rfl⟩, ?_⟩, ⟨⟨_, rfl⟩, ?_, le_refl 7⟩, ⟨⟨_, rfl⟩, ?_⟩, ⟨⟨_, rfl⟩, ?_⟩, ⟨⟨_, rfl⟩, ?_⟩, ⟨⟨_, rfl⟩, ?_⟩,
    ⟨_, rfl⟩, ?_⟩ <;> simp

theorem witness_SquashSaturatesOrReads :
    2047 < (st 2048 0 0).latch.a0.toInt ∧ 2047 < (st 0x7FFFFFFF 0 0).latch.a0.toInt ∧
    (st 0xFFFFF800 0 0).latch.a0.toInt < -2047 ∧ (st 0x80000000 0 0).latch.a0.toInt < -2047 ∧
    ((0 : Nat) : Int) = (st 0xFFFFF801 0 0).latch.a0.toInt + 2047 ∧
    ((4094 : Nat) : Int) = (st 2047 0 0).latch.a0.toInt + 2047 := by decide

theorem witness_StretchFindsTheLeastEntry :
    SquashOk cfg.squash ∧ (st 0 0 0).latch.a0.toNat ≤ 4095 ∧ (st 2048 0 0).latch.a0.toNat ≤ 4095 ∧
    (st 4095 0 0).latch.a0.toNat ≤ 4095 :=
  ⟨cfg_admissible.squash, by decide⟩

theorem witness_StretchIsAnInverseOfSquash :
    SquashOk cfg.squash ∧ (0 : BitVec 12) ≤ 0 ∧ (2047 : BitVec 12) ≤ 2048 ∧ (4094 : BitVec 12) ≤ 4095 ∧
    ∀ d ∈ [(-2047 : Int), -2046, 0, 2047], -2047 ≤ d ∧ d ≤ 2047 :=
  ⟨cfg_admissible.squash, by decide⟩

theorem witness_IlogRoundsTheLogarithm :
    (st 0 0 0).latch.a0.toNat ≤ 65535 ∧ (st 1 0 0).latch.a0.toNat ≤ 65535 ∧ (st 65535 0 0).latch.a0.toNat ≤ 65535 := by
  decide

theorem witness_FsmCommandsReadTheRow :
    (st 0 0 0).latch.a0.toNat ≤ 252 ∧ (st 252 0 0).latch.a0.toNat ≤ 252 := by decide

theorem witness_LiveStatesStayLive :
    StateTableOk cfg.stateTable ∧ (st 252 0 0).latch.a0.toNat ≤ 252 ∧
    (∃ t, exec (.fsmNext 1) (st 252 0 0) = .next t) ∧ ∃ t, exec (.fsmNextp 1) (st 252 0 0) = .next t :=
  ⟨spotStateTable_ok, by decide, ⟨_, rfl⟩, _, rfl⟩

/-- The successors 203 and 204 of state 0, where the draw 0x906D9AB0 shifted by 31 is 0; the draw for 252 is not. -/
theorem witness_FsmNextpDrawsAndDecrements :
    (let r : StateRow := ⟨203, 204, 0, 0⟩
     let s : State := { st 0 0 0 with cfg := { cfg with stateTable := [r] } }
     s.latch.a0.toNat ≤ 252 ∧ s.cfg.stateTable.getD s.latch.a0.toNat default = r ∧ r.nex0.toNat < 204 ∧
       204 ≤ r.nex1.toNat ∧ (rngNext s.rng).2.toNat * 2 ^ ((452 - r.nex1.toNat) / 8) % 2 ^ 32 = 0) ∧
    (let s := st 252 0 0
     let r := s.cfg.stateTable.getD s.latch.a0.toNat default
     s.latch.a0.toNat ≤ 252 ∧ 204 ≤ r.nex1.toNat ∧
       (rngNext s.rng).2.toNat * 2 ^ ((452 - r.nex1.toNat) / 8) % 2 ^ 32 ≠ 0) := by decide +kernel

theorem witness_RngNextAdvancesTheRing :
    (st 0 0 0).rng.t.length = 64 ∧ ({ st 0 0 0 with rng := ⟨rngDefault, 63⟩ } : State).rng.t.length = 64 := by
  decide +kernel

theorem witness_SmPTrainsThenReads :
    (midWith 255 0 0).sm[(0 : BitVec 8).toNat]? = some ⟨[(7, 3)], 7⟩ ∧ (midWith 255 0 0).latch.a0.toNat ≤ 255 := by
  decide +kernel

theorem witness_ApmPTrainsThenInterpolates :
    (st 4095 65535 0).apm[(6 : BitVec 8).toNat]? = some (Apm.fresh 65536) ∧
    (st 4095 65535 0).latch.a0.toNat ≤ 4095 ∧ (st 4095 65535 0).latch.a1.toNat < (Apm.fresh 65536).rows ∧
    ∀ rate ∈ [(1 : BitVec 8), 15], 1 ≤ rate.toNat ∧ rate.toNat ≤ 15 := by decide +kernel

theorem witness_MixUpdateTrainsTheSelectedRows :
    (mid.mix[(0 : BitVec 8).toNat]? = some ⟨stage, none⟩ ∧ stage.nx ≤ stage.cap) ∧
    mid.mix[(1 : BitVec 8).toNat]? = some twoStages ∧ twoStages.own.nx ≤ twoStages.own.cap := by decide +kernel

theorem witness_MixAddAndMixSet :
    ((midWith 0x7FFF 0 0).mix[(0 : BitVec 8).toNat]? = some ⟨stage, none⟩ ∧ stage.nx < stage.cap ∧
      (midWith 0x7FFF 0 0).latch.a0.toInt = 32767 ∧ (midWith 0xFFFF8000 0 0).latch.a0.toInt = -32768) ∧
    (midWith 0 1 0).mix[(1 : BitVec 8).toNat]? = some twoStages ∧ twoStages.own.ncxt < twoStages.own.s ∧
    (midWith 0 1 0).latch.a0.toNat < (midWith 0 1 0).latch.a1.toNat ∧
    twoStages.own.base + (midWith 0 1 0).latch.a1.toNat ≤ twoStages.own.m := by decide +kernel

theorem witness_MixPOfOneSelection :
    mid.mix[(0 : BitVec 8).toNat]? = some ⟨stage, none⟩ ∧ (⟨stage, none⟩ : Mixer).child = none := ⟨rfl, rfl⟩

theorem witness_MixPOfTwoStages :
    mid.mix[(1 : BitVec 8).toNat]? = some twoStages ∧ twoStages.Ok ∧ twoStages.child = some (Stage.fresh 3 1 1 0x7FFF) :=
  ⟨rfl, twoStages_ok, rfl⟩

theorem witness_ZeroWeightsGive2048 :
    SquashOk cfg.squash ∧
    (let m : Mixer := ⟨{ stage with wx := [] }, none⟩
     ({ st 0 0 0 with mix := [m] } : State).mix[(0 : BitVec 8).toNat]? = some m ∧ m.Ok ∧
       ∀ r < m.own.m, ∀ k < m.own.cap, m.own.weight r k = 0) ∧
    (let m : Mixer := { twoStages with own := { twoStages.own with w0 := 0 } }
     ({ st 0 0 0 with mix := [m] } : State).mix[(0 : BitVec 8).toNat]? = some m ∧ m.Ok ∧
       ∀ r < m.own.m, ∀ k < m.own.cap, m.own.weight r k = 0) := by
  refine ⟨cfg_admissible.squash, ⟨rfl, ⟨{ stage_ok with wx := by decide }, by simp, by decide⟩, by decide⟩,
    rfl, ⟨?_, ?_, twoStages_ok.second⟩, by decide⟩
  · exact { twoStages_ok.own with wx := by decide }
  · exact twoStages_ok.child

/-- An empty bucket, and a full one without the checksum. -/
theorem witness_BhLookupFindsOrEvicts :
    (∀ t : Memory 8, ({ st 0xFFFFFFFF 0 0 with bh := [⟨4, 8, t⟩] } : State).bh[(0 : BitVec 8).toNat]? = some ⟨4, 8, t⟩) ∧
    3 ≤ 4 ∧ IsPow2 8 ∧ 8 ≤ 8 ∧ (bhLookup 4 8 [] 0xFFFFFFFF).2 = (0, 0) ∧
    (bhLookup 4 8 ((List.range 8).flatMap fun q => [(4 * q, 9), (4 * q + 2, 1)]) 0xFFFFFFFF).2 = (0, 8) :=
  ⟨fun _ => rfl, by decide +kernel⟩

theorem witness_BhReadAndWriteOneByte :
    (let s := midWith 15 3 255
     s.bh[(0 : BitVec 8).toNat]? = some ⟨4, 16, [(0, 1), (2, 5)]⟩ ∧ s.latch.a0.toNat < 16 ∧ s.latch.a1.toNat < 4 ∧
       2 ≤ s.latch.a1.toNat ∧ s.latch.a2.toNat ≤ 255) := by decide +kernel

theorem witness_CmSetStoresThePermutedContext :
    (st 0xFFFFFFFF 0 0).cm[(0 : BitVec 8).toNat]? = some (ContextMap.fresh 1 16) ∧
    (ContextMap.fresh 1 16).ctxs[(ContextMap.fresh 1 16).cn]? = some CmContext.fresh := ⟨rfl, rfl⟩

theorem witness_CmMixRunsEveryContext :
    (let u : ContextMap := ⟨16, [(15, 1), (18, 2)], 1, [CmContext.fresh]⟩
     mid.cm[(0 : BitVec 8).toNat]? = some u ∧ mid.mix[(0 : BitVec 8).toNat]? = some ⟨stage, none⟩ ∧
       stage.nx + 6 * u.ctxs.length ≤ stage.cap) := ⟨rfl, rfl, by decide⟩

/-- What the first round of a CM_MIX works on in `mid`, with a given table. -/
def carry (tab : Memory 8) : CmCarry := { rng := mid.rng, tab := tab, x := stage, res := 0 }

/-- With and without a cell to update, with and without a run record, at every bit position. -/
theorem witness_CmMixMovesThePointers :
    ∀ (b : BitVec 3), ∀ tab ∈ [([] : Memory 8), [(15, 252), (18, 2)]],
      (∃ q' k', cmMixContext cfg { mid.g with bpos := b } 16 (carry tab) { CmContext.fresh with cp := none } = (q', k')) ∧
      ∃ q' k' rng1 tab1 st,
        cmMixContext cfg { mid.g with bpos := b } 16 (carry tab) CmContext.fresh = (q', k') ∧
        CmContext.fresh.cp = some 15 ∧ fsmStep cfg (carry tab).rng (byteAt tab 15) mid.g.y = (rng1, st) ∧
        tab1 = putByte tab 15 st :=
  fun _ _ _ => ⟨⟨_, _, rfl⟩, _, _, _, _, _, rfl, rfl, rfl, rfl⟩

theorem witness_CmMixAddsSixInputs :
    ∀ tab ∈ [([] : Memory 8), [(15, 252), (18, 2)]], ∃ q' k' st p,
      cmMixContext cfg mid.g 16 (carry tab) CmContext.fresh = (q', k') ∧
      st = (match k'.cp with | none => 0 | some a => byteAt q'.tab a) ∧
      p = (smP cfg mid.g.y CmContext.fresh.sm st).2 :=
  fun _ _ => ⟨_, _, _, _, rfl, rfl, rfl⟩

/-- A hit of the MRU slot, a hit of another slot, a replacement with slot 0 the MRU slot and one with slots 6 and 5. -/
theorem witness_CmGetFindsOrReplaces :
    cmGet [(12, 7), (14, 6)] 0 7 = ([(12, 7), (14, 6)], 57) ∧
    cmGet [(2, 7)] 0 7 = ([(2, 7), (14, 0x01)], 22) ∧
    cmGet [] 0 5 = ([(2, 5), (14, 0xF1)], 22) ∧
    cmGet [(14, 0x56), (15, 1), (22, 1), (29, 1), (36, 1)] 0 5 =
      ([(8, 5), (14, 0xF4), (15, 1), (22, 1), (29, 1), (36, 1)], 43) := by decide +kernel

theorem witness_RcmSetAndSscmSet :
    mid.rcm[(0 : BitVec 8).toNat]? = some ⟨16, [(2, 2), (3, 0x41)], 0⟩ ∧
    (∀ ne ∈ [256, 1024], IsPow2 ne ∧ 256 ≤ ne) ∧
    (∀ ne, ({ st 0xFFFFFFFF 0 0 with sscm := [Sscm.fresh ne] } : State).sscm[(0 : BitVec 8).toNat]? =
      some (Sscm.fresh ne)) := ⟨rfl, by decide, fun _ => rfl⟩

theorem witness_RcmMixAddsTheRunScore :
    mid.rcm[(0 : BitVec 8).toNat]? = some ⟨16, [(2, 2), (3, 0x41)], 0⟩ ∧
    mid.mix[(0 : BitVec 8).toNat]? = some ⟨stage, none⟩ ∧ stage.nx < stage.cap ∧
    (let full : Mixer := ⟨{ stage with nx := 7 }, none⟩
     ({ mid with mix := [full] } : State).mix[(0 : BitVec 8).toNat]? = some full ∧ full.own.nx < full.own.cap) :=
  ⟨rfl, rfl, by decide, rfl, by decide⟩

theorem witness_SscmMixTrainsThenAdds :
    mid.sscm[(0 : BitVec 8).toNat]? = some ⟨1024, [(0, 5)], 256, 3⟩ ∧
    mid.mix[(0 : BitVec 8).toNat]? = some ⟨stage, none⟩ ∧ stage.nx < stage.cap ∧
    ∀ rate ∈ [(2 : BitVec 8), 15], 2 ≤ rate.toNat ∧ rate.toNat ≤ 15 := ⟨rfl, rfl, by decide, by decide⟩

theorem witness_BitEndRunsTheApmStack :
    (∃ a0 a1 a2 a3 a4 a5 a6 others, (st 4095 0 0).apm = a0 :: a1 :: a2 :: a3 :: a4 :: a5 :: a6 :: others) ∧
    (st 4095 0 0).latch.a0.toNat ≤ 4095 := ⟨⟨_, _, _, _, _, _, _, _, rfl⟩, by decide⟩

theorem witness_BitEndAfterResetGives2048 :
    cfg.Admissible ∧ geo.Valid ∧ st 2048 0 0 = { State.fresh cfg geo with latch := (st 2048 0 0).latch } ∧
    (st 2048 0 0).latch.a0 = 2048 := ⟨cfg_admissible, geo_valid, rfl, rfl⟩

/-- Every class at the last index it admits. -/
theorem witness_DbgReadsTablesAndPointers :
    (st 0xFFFFFF 0 0).latch.a0.toNat < 2 ^ 24 ∧ (st 63 0 0).latch.a0.toNat < 64 ∧
    ((st 255 0 0).sm[(0 : BitVec 8).toNat]? = some StateMap.fresh ∧ (st 255 0 0).latch.a0.toNat < 256) ∧
    ((st 2162687 0 0).apm[(6 : BitVec 8).toNat]? = some (Apm.fresh 65536) ∧
      (st 2162687 0 0).latch.a0.toNat < 33 * (Apm.fresh 65536).rows) ∧
    ((st 63 0 0).bh[(0 : BitVec 8).toNat]? = some (BhTable.fresh 4 16) ∧ (st 63 0 0).latch.a0.toNat < 16 * 4) ∧
    ((st 63 0 0).rcm[(0 : BitVec 8).toNat]? = some (RunMap.fresh 16) ∧ (st 63 0 0).latch.a0.toNat < 4 * 16 ∧
      (st 0 0 0).latch.a0.toNat = 0) ∧
    ((st 1023 0 0).sscm[(0 : BitVec 8).toNat]? = some (Sscm.fresh 1024) ∧ (st 1023 0 0).latch.a0.toNat < 1024 ∧
      (st 1 0 0).latch.a0.toNat = 1) := by decide +kernel

/-- Stage 0 of a mixer and stage 1 of one that has a child, every class at the last index it admits. -/
theorem witness_DbgReadsMixersAndContextMaps :
    ((0 : BitVec 8) = 0 ∧ stage = (⟨stage, none⟩ : Mixer).own) ∧
    ((1 : BitVec 8) = 1 ∧ twoStages.child = some (Stage.fresh 3 1 1 0x7FFF)) ∧
    ((midWith 7 0 0).mix[(0 : BitVec 8).toNat]? = some ⟨stage, none⟩ ∧
      (midWith 7 0 0).latch.a0.toNat < stage.cap * stage.m ∧ 0 < stage.m ∧ 7 < stage.cap ∧
      (midWith 7 0 0).latch.a0.toNat = 0 * stage.cap + 7 ∧ (midWith 7 0 0).latch.a0.toNat < stage.cap) ∧
    ((midWith 0 0 0).mix[(1 : BitVec 8).toNat]? = some twoStages ∧
      (midWith 0 0 0).latch.a0.toNat < (Stage.fresh 3 1 1 0x7FFF).s ∧ (midWith 0 0 0).latch.a0.toNat = 0 ∧
      (midWith 1 0 0).latch.a0.toNat = 1 ∧ (midWith 2 0 0).latch.a0.toNat = 2) ∧
    ((st 1023 0 0).cm[(0 : BitVec 8).toNat]? = some (ContextMap.fresh 1 16) ∧
      (st 1023 0 0).latch.a0.toNat < 64 * (ContextMap.fresh 1 16).e ∧
      (ContextMap.fresh 1 16).ctxs[(st 1023 0 0).latch.a1.toNat]? = some CmContext.fresh ∧
      (st 3 0 0).latch.a0.toNat = 3 ∧ (st 4 0 0).latch.a0.toNat = 4 ∧ (st 255 0 0).latch.a0.toNat < 256) := by
  decide +kernel

theorem witness_MissingUnitsAreRefused :
    mid.sm.length ≤ (1 : BitVec 8).toNat ∧ mid.apm.length ≤ (8 : BitVec 8).toNat ∧
    mid.mix.length ≤ (2 : BitVec 8).toNat ∧ mid.bh.length ≤ (1 : BitVec 8).toNat ∧
    mid.cm.length ≤ (1 : BitVec 8).toNat ∧ mid.rcm.length ≤ (1 : BitVec 8).toNat ∧
    mid.sscm.length ≤ (255 : BitVec 8).toNat ∧ (0 : BitVec 8).toNat < mid.cm.length ∧
    (0 : BitVec 8).toNat < mid.rcm.length ∧ (0 : BitVec 8).toNat < mid.sscm.length := by decide +kernel

theorem witness_OperandsOutOfRangeAreRefused :
    4095 < (midWith 4096 0 0).latch.a0.toNat ∧ 65535 < (midWith 65536 0 0).latch.a0.toNat ∧
    252 < (midWith 253 0 0).latch.a0.toNat ∧ 255 < (midWith 256 0 0).latch.a0.toNat ∧
    (0 : BitVec 8).toNat < mid.sm.length ∧
    (mid.apm[(7 : BitVec 8).toNat]? = some (Apm.fresh 1) ∧ (0 : BitVec 8).toNat = 0 ∧ 15 < (16 : BitVec 8).toNat ∧
      (Apm.fresh 1).rows ≤ (midWith 0 1 0).latch.a1.toNat) ∧
    ((0 : BitVec 8).toNat < mid.mix.length ∧ (midWith 0xFFFF7FFF 0 0).latch.a0.toInt < -32768 ∧
      32767 < (midWith 32768 0 0).latch.a0.toInt) ∧
    (mid.bh[(0 : BitVec 8).toNat]? = some ⟨4, 16, [(0, 1), (2, 5)]⟩ ∧ 16 ≤ (midWith 16 0 0).latch.a0.toNat ∧
      4 ≤ (midWith 0 4 0).latch.a1.toNat ∧ (midWith 0 1 0).latch.a1.toNat < 2 ∧
      255 < (midWith 0 2 256).latch.a2.toNat) ∧
    ((0 : BitVec 8).toNat < mid.sscm.length ∧ (1 : BitVec 8).toNat < 2 ∧ 15 < (16 : BitVec 8).toNat) := by
  decide +kernel

/-- A mixer full of inputs and selections. -/
def fullMixer : Mixer := ⟨{ stage with nx := 8 }, none⟩

theorem witness_CapacityErrorsAreRefused :
    (let s : State := { mid with mix := [fullMixer, twoStages], cm := [⟨16, [], 1, [CmContext.fresh]⟩] }
     s.mix[(0 : BitVec 8).toNat]? = some fullMixer ∧
     (-32768 ≤ s.latch.a0.toInt ∧ s.latch.a0.toInt ≤ 32767 ∧ fullMixer.own.cap ≤ fullMixer.own.nx) ∧
     fullMixer.own.s ≤ fullMixer.own.ncxt ∧
     s.cm[(0 : BitVec 8).toNat]? = some ⟨16, [], 1, [CmContext.fresh]⟩ ∧ [CmContext.fresh].length ≤ 1 ∧
     fullMixer.own.cap < fullMixer.own.nx + 6 * [CmContext.fresh].length ∧
     (0 : BitVec 8).toNat < s.rcm.length ∧ (0 : BitVec 8).toNat < s.sscm.length ∧
     2 ≤ (2 : BitVec 8).toNat ∧ (2 : BitVec 8).toNat ≤ 15) ∧
    mid.mix[(1 : BitVec 8).toNat]? = some twoStages ∧ twoStages.own.ncxt < twoStages.own.s ∧
    (midWith 0 0 0).latch.a1 = 0 ∧ (midWith 1 1 0).latch.a1.toNat ≤ (midWith 1 1 0).latch.a0.toNat ∧
    twoStages.own.m < twoStages.own.base + (midWith 0 2 0).latch.a1.toNat := by decide +kernel

/-- Every class at the first index it refuses; a mixer without a child and one with a child for the stages. -/
theorem witness_DbgErrorsAreRefused :
    ((1 : BitVec 8) ≠ 0 ∧ mid.sm.length ≤ (1 : BitVec 8).toNat ∧ mid.apm.length ≤ (8 : BitVec 8).toNat ∧
      mid.bh.length ≤ (1 : BitVec 8).toNat ∧ mid.cm.length ≤ (1 : BitVec 8).toNat ∧
      mid.rcm.length ≤ (1 : BitVec 8).toNat ∧ mid.sscm.length ≤ (1 : BitVec 8).toNat ∧
      mid.mix.length ≤ (2 : BitVec 8).toNat) ∧
    (mid.mix[(0 : BitVec 8).toNat]? = some ⟨stage, none⟩ ∧ 1 < (2 : BitVec 8).toNat) ∧
    (2 ^ 24 ≤ (midWith 0x1000000 0 0).latch.a0.toNat ∧ 64 ≤ (midWith 64 0 0).latch.a0.toNat ∧
      (0 : BitVec 8).toNat < mid.sm.length ∧ 256 ≤ (midWith 256 0 0).latch.a0.toNat ∧
      mid.apm[(7 : BitVec 8).toNat]? = some (Apm.fresh 1) ∧ 33 * 1 ≤ (midWith 33 0 0).latch.a0.toNat ∧
      mid.bh[(0 : BitVec 8).toNat]? = some ⟨4, 16, [(0, 1), (2, 5)]⟩ ∧ 16 * 4 ≤ (midWith 64 0 0).latch.a0.toNat) ∧
    (mid.cm[(0 : BitVec 8).toNat]? = some ⟨16, [(15, 1), (18, 2)], 1, [CmContext.fresh]⟩ ∧
      64 * 16 ≤ (midWith 1024 0 0).latch.a0.toNat ∧ 5 ≤ (midWith 5 0 0).latch.a0.toNat ∧
      [CmContext.fresh].length ≤ (midWith 0 1 0).latch.a1.toNat) ∧
    (mid.rcm[(0 : BitVec 8).toNat]? = some ⟨16, [(2, 2), (3, 0x41)], 0⟩ ∧
      4 * 16 ≤ (midWith 64 0 0).latch.a0.toNat ∧ (midWith 1 0 0).latch.a0.toNat ≠ 0) ∧
    (mid.sscm[(0 : BitVec 8).toNat]? = some ⟨1024, [(0, 5)], 256, 3⟩ ∧ 1024 ≤ (midWith 1024 0 0).latch.a0.toNat ∧
      2 ≤ (midWith 2 0 0).latch.a0.toNat) ∧
    (stage.cap * stage.m ≤ (midWith 8 0 0).latch.a0.toNat ∧ stage.cap ≤ (midWith 8 0 0).latch.a0.toNat ∧
      stage.s ≤ (midWith 1 0 0).latch.a0.toNat ∧ 3 ≤ (midWith 3 0 0).latch.a0.toNat ∧
      mid.mix[(1 : BitVec 8).toNat]? = some twoStages ∧
      twoStages.child = some (Stage.fresh 3 1 1 0x7FFF) ∧
      (Stage.fresh 3 1 1 0x7FFF).cap * 1 ≤ (midWith 8 0 0).latch.a0.toNat) := by decide +kernel

end Sys2Proof.Tests
end

section
/-! PROOF. The configuration: no step changes it (00_scope.md R7, 10_state.md R27), and the reset state satisfies the
invariant (70_reset_and_hazards.md R134, R135). -/

namespace Sys2Proof.Machine

/-! ### The configured sizes of a unit under the unit's operations -/

/-- The configured sizes of a mixer stage (10_state.md R31). -/
def Stage.geometry (u : Stage) : MixerGeometry := { n := u.n, m := u.m, s := u.s, w0 := u.w0 }

@[simp] theorem Stage.geometry_add (u : Stage) (x : Int) : (u.add x).geometry = u.geometry := rfl

@[simp] theorem Stage.geometry_select (u : Stage) (cx range : Nat) : (u.select cx range).geometry = u.geometry := rfl

@[simp] theorem Stage.geometry_pad (u : Stage) : u.pad.geometry = u.geometry := by
  rw [u.pad_spec.1]; rfl

@[simp] theorem Stage.geometry_addAll (u : Stage) (xs : List Int) : (u.addAll xs).geometry = u.geometry := by
  rw [(u.addAll_spec xs).1]; rfl

@[simp] theorem Stage.geometry_train (y : BitVec 1) (u : Stage) : (u.train y).geometry = u.geometry :=
  u.geometry_pad

@[simp] theorem Stage.geometry_predict (c : Config) (u : Stage) : (u.predict c).1.geometry = u.geometry :=
  u.geometry_pad

/-- A prediction of a Mixer unit keeps the sizes, with and without a child (43_mixer.md R91). -/
@[simp] theorem Mixer.geometry_predict (c : Config) (y : BitVec 1) (m : Mixer) :
    (m.predict c y).1.geometry = m.geometry := by
  unfold Mixer.predict
  split
  next => exact m.own.geometry_predict c
  next => exact m.own.geometry_pad

/-- The seven calls of BIT_END keep the rows of every APM (47_predictor.md R116). -/
theorem rows_stackRun (c : Config) (g : GlobalContext) (a0 a1 a2 a3 a4 a5 a6 : Apm) (p : BitVec 12) :
    (stackRun c g a0 a1 a2 a3 a4 a5 a6 p).1.map Apm.rows = [a0, a1, a2, a3, a4, a5, a6].map Apm.rows := rfl

/-- A round of CM_MIX appends to the mixer stage only (45_contextmap.md R109). -/
theorem Stage.geometry_cmMixContext (c : Config) (g : GlobalContext) (e : Nat) (q : CmCarry) (k : CmContext) :
    (cmMixContext c g e q k).1.x.geometry = q.x.geometry :=
  Stage.geometry_addAll (q.x.add _) _

theorem Stage.geometry_cmMixLoop (c : Config) (g : GlobalContext) (e : Nat) (ks : List CmContext) (q : CmCarry) :
    (cmMixLoop c g e q ks).1.x.geometry = q.x.geometry := by
  induction ks generalizing q with
  | nil => rfl
  | cons k ks ih => exact (ih _).trans (Stage.geometry_cmMixContext c g e q k)

theorem length_cmMixLoop (c : Config) (g : GlobalContext) (e : Nat) (ks : List CmContext) (q : CmCarry) :
    (cmMixLoop c g e q ks).2.length = ks.length := by
  induction ks generalizing q with
  | nil => rfl
  | cons k ks ih => exact congrArg (· + 1) (ih _)

/-! ### The geometry of a state under the updates of the state -/

/-- A list of sizes stays when one unit is replaced by a unit of the same size. -/
theorem map_set_of_size_eq {α β : Type} (f : α → β) {l : List α} {k : Nat} {u v : α} (hu : l[k]? = some u)
    (h : f v = f u) : (l.set k v).map f = l.map f := by
  obtain ⟨hk, rfl⟩ := List.getElem?_eq_some_iff.1 hu
  rw [List.map_set, h, ← List.getElem_map f (h := by simpa using hk), List.set_getElem_self]

/-- A constructed state has the geometry it is constructed with (70_reset_and_hazards.md R134). -/
theorem State.geometry_fresh (c : Config) (geo : Geometry) : (State.fresh c geo).geometry = geo := by
  have hApm : Apm.rows ∘ Apm.fresh = id := rfl
  have hMix : Mixer.geometry ∘ Mixer.fresh = id := rfl
  have hBh : ((fun u : BhTable => (u.b, u.ns)) ∘ fun x : Nat × Nat => BhTable.fresh x.1 x.2) = id := rfl
  have hCm : ((fun u : ContextMap => (u.ctxs.length, u.e)) ∘ fun x : Nat × Nat => ContextMap.fresh x.1 x.2) = id := by
    funext x
    simp [ContextMap.fresh]
  have hRcm : RunMap.ns ∘ RunMap.fresh = id := rfl
  have hSscm : Sscm.ne ∘ Sscm.fresh = id := rfl
  simp only [State.geometry, State.fresh, List.map_map, List.length_replicate, hApm, hMix, hBh, hCm, hRcm, hSscm,
    List.map_id]

/-- `t` is a state of the same block as `s`: the configuration and the unit counts and sizes agree (00_scope.md R7). -/
structure SameInstance (s t : State) : Prop where
  cfg : t.cfg = s.cfg
  geometry : t.geometry = s.geometry

namespace SameInstance

variable {s t : State} {k : Nat}

theorem refl (s : State) : SameInstance s s := ⟨rfl, rfl⟩

theorem raise (h : SameInstance s t) (code : ErrCode) (v : Word) : SameInstance s (t.raise code v) := by
  rw [State.raise_eq]; exact ⟨h.cfg, h.geometry⟩

theorem refuse (h : SameInstance s t) (code : ErrCode) : SameInstance s (t.refuse code) := h.raise code _

theorem setRes0 (h : SameInstance s t) (v : Word) : SameInstance s (t.setRes0 v) := ⟨h.cfg, h.geometry⟩

theorem setRes (h : SameInstance s t) (v w : Word) : SameInstance s (t.setRes v w) := ⟨h.cfg, h.geometry⟩

theorem setG (h : SameInstance s t) (g : GlobalContext) : SameInstance s (t.setG g) := ⟨h.cfg, h.geometry⟩

theorem setRng (h : SameInstance s t) (r : Generator) : SameInstance s (t.setRng r) := ⟨h.cfg, h.geometry⟩

theorem endCommand (h : SameInstance s t) : SameInstance s t.endCommand := ⟨h.cfg, h.geometry⟩

theorem clearErr (h : SameInstance s t) : SameInstance s t.clearErr := ⟨h.cfg, h.geometry⟩

theorem setSm (h : SameInstance s t) (u : StateMap) : SameInstance s (t.setSm k u) :=
  ⟨h.cfg, by rw [← h.geometry]; simp [State.geometry]⟩

/-- Replacing the APM units by units with the same rows. -/
theorem withApm (h : SameInstance s t) {l : List Apm} (hl : l.map Apm.rows = t.apm.map Apm.rows) :
    SameInstance s { t with apm := l } :=
  ⟨h.cfg, by rw [← h.geometry]; simp [State.geometry, hl]⟩

theorem setApm (h : SameInstance s t) {u v : Apm} (hu : t.apm[k]? = some u) (hv : v.rows = u.rows) :
    SameInstance s (t.setApm k v) :=
  h.withApm (map_set_of_size_eq _ hu hv)

theorem setMix (h : SameInstance s t) {u v : Mixer} (hu : t.mix[k]? = some u) (hv : v.geometry = u.geometry) :
    SameInstance s (t.setMix k v) :=
  ⟨h.cfg, by rw [← h.geometry]; simp [State.geometry, map_set_of_size_eq _ hu hv]⟩

/-- Replacing the own stage of a Mixer unit by a stage of the same sizes. -/
theorem setMixOwn (h : SameInstance s t) {m : Mixer} {u : Stage} (hm : t.mix[k]? = some m)
    (hu : u.geometry = m.own.geometry) : SameInstance s (t.setMix k (m.setOwn u)) :=
  h.setMix hm hu

theorem setBh (h : SameInstance s t) {u v : BhTable} (hu : t.bh[k]? = some u) (hv : (v.b, v.ns) = (u.b, u.ns)) :
    SameInstance s (t.setBh k v) :=
  ⟨h.cfg, by
    rw [← h.geometry]; simp only [State.geometry, State.setBh, map_set_of_size_eq (fun u => (u.b, u.ns)) hu hv]⟩

theorem setCm (h : SameInstance s t) {u v : ContextMap} (hu : t.cm[k]? = some u)
    (hv : (v.ctxs.length, v.e) = (u.ctxs.length, u.e)) : SameInstance s (t.setCm k v) :=
  ⟨h.cfg, by
    rw [← h.geometry]; simp only [State.geometry, State.setCm, map_set_of_size_eq (fun u => (u.ctxs.length, u.e)) hu hv]⟩

theorem setRcm (h : SameInstance s t) {u v : RunMap} (hu : t.rcm[k]? = some u) (hv : v.ns = u.ns) :
    SameInstance s (t.setRcm k v) :=
  ⟨h.cfg, by rw [← h.geometry]; simp [State.geometry, map_set_of_size_eq _ hu hv]⟩

theorem setSscm (h : SameInstance s t) {u v : Sscm} (hu : t.sscm[k]? = some u) (hv : v.ne = u.ne) :
    SameInstance s (t.setSscm k v) :=
  ⟨h.cfg, by rw [← h.geometry]; simp [State.geometry, map_set_of_size_eq _ hu hv]⟩

/-- A soft reset builds every unit anew in its configured size (70_reset_and_hazards.md R134). -/
theorem softReset (h : SameInstance s t) : SameInstance s t.softReset :=
  ⟨h.cfg, (State.geometry_fresh t.cfg t.geometry).trans h.geometry⟩

end SameInstance

/-! ### Commands -/

/-- A next state the outcome `o` gives has the configuration and the unit counts and sizes of `s`. -/
def StaysInInstance (s : State) (o : Result) : Prop := ∀ t, o = .next t → SameInstance s t

theorem StaysInInstance.next {s t : State} (h : SameInstance s t) : StaysInInstance s (.next t) := by
  rintro _ ⟨⟩
  exact h

theorem StaysInInstance.fault (s : State) (r : Fault) : StaysInInstance s (.fault r) := nofun

/-- A refused command changes nothing but the error record (60_exceptions.md R120). -/
theorem StaysInInstance.refuse (s : State) (code : ErrCode) : StaysInInstance s (.next (s.refuse code)) :=
  .next ((SameInstance.refl s).refuse code)

/-- An operand check before an outcome. -/
theorem StaysInInstance.refuseOr {s : State} {p : Prop} [Decidable p] {code : ErrCode} {o : Result}
    (h : StaysInInstance s o) : StaysInInstance s (if p then .next (s.refuse code) else o) := by
  split_ifs
  · exact .refuse s code
  · exact h

section commands

variable (s : State) (unit mixu rate : BitVec 8)

theorem execBitEnd_staysInInstance : StaysInInstance s (execBitEnd s) := by
  unfold execBitEnd
  split_ifs
  · exact .refuse s _
  split
  next a0 a1 a2 a3 a4 a5 a6 rest ha =>
    have hrows : ((stackRun s.cfg s.g a0 a1 a2 a3 a4 a5 a6 (s.latch.a0.setWidth 12)).1 ++ rest).map Apm.rows =
        s.apm.map Apm.rows := by
      rw [List.map_append, rows_stackRun, ← List.map_append, ha]; rfl
    exact .next ((((SameInstance.refl s).withApm hrows).setG _).setRes0 _)
  next => exact .fault s _

theorem execDbgRd_staysInInstance (cls : DbgClass) : StaysInInstance s (execDbgRd cls unit mixu s) := by
  unfold execDbgRd
  split_ifs
  · exact .refuse s _
  split
  next => exact .refuse s _
  next => exact .next ((SameInstance.refl s).setRes _ _)

theorem execSmP_staysInInstance : StaysInInstance s (execSmP unit s) := by
  unfold execSmP
  split
  next => exact .refuse s _
  next => exact .refuseOr (.next (((SameInstance.refl s).setSm _).setRes0 _))

theorem execApmP_staysInInstance : StaysInInstance s (execApmP unit rate s) := by
  unfold execApmP
  split
  next => exact .refuse s _
  next hu => exact .refuseOr (.next (((SameInstance.refl s).setApm hu (by rfl)).setRes0 _))

theorem execMixUpdate_staysInInstance : StaysInInstance s (execMixUpdate unit s) := by
  unfold execMixUpdate
  split
  next => exact .refuse s _
  next m hm => exact .next ((SameInstance.refl s).setMixOwn hm (m.own.geometry_train _))

theorem execMixAdd_staysInInstance : StaysInInstance s (execMixAdd unit s) := by
  unfold execMixAdd
  split
  next => exact .refuse s _
  next m hm => exact .refuseOr (.refuseOr (.next ((SameInstance.refl s).setMixOwn hm (m.own.geometry_add _))))

theorem execMixSet_staysInInstance : StaysInInstance s (execMixSet unit s) := by
  unfold execMixSet
  split
  next => exact .refuse s _
  next m hm => exact .refuseOr (.refuseOr (.next ((SameInstance.refl s).setMixOwn hm (m.own.geometry_select _ _))))

theorem execMixP_staysInInstance : StaysInInstance s (execMixP unit s) := by
  unfold execMixP
  split
  next => exact .refuse s _
  next m hm => exact .next (((SameInstance.refl s).setMix hm (m.geometry_predict _ _)).setRes0 _)

theorem execBhLookup_staysInInstance : StaysInInstance s (execBhLookup unit s) := by
  unfold execBhLookup
  split
  next => exact .refuse s _
  next hu => exact .next (((SameInstance.refl s).setBh hu (by rfl)).setRes _ _)

theorem execBhRd_staysInInstance : StaysInInstance s (execBhRd unit s) := by
  unfold execBhRd
  split
  next => exact .refuse s _
  next => exact .refuseOr (.next ((SameInstance.refl s).setRes0 _))

theorem execBhWr_staysInInstance : StaysInInstance s (execBhWr unit s) := by
  unfold execBhWr
  split
  next => exact .refuse s _
  next hu => exact .refuseOr (.next ((SameInstance.refl s).setBh hu (by rfl)))

theorem execCmSet_staysInInstance : StaysInInstance s (execCmSet unit s) := by
  unfold execCmSet
  split
  next => exact .refuse s _
  next hu => exact .refuseOr (.next ((SameInstance.refl s).setCm hu (by simp [ContextMap.setContext])))

theorem execCmMix_staysInInstance : StaysInInstance s (execCmMix unit mixu s) := by
  unfold execCmMix
  split
  next => exact .refuse s _
  next hu =>
    split
    next => exact .refuse s _
    next hm =>
      exact .refuseOr (.next (((((SameInstance.refl s).setCm hu (by rw [length_cmMixLoop])).setMixOwn hm
        (Stage.geometry_cmMixLoop _ _ _ _ _)).setRng _).setRes0 _))

theorem execRcmSet_staysInInstance : StaysInInstance s (execRcmSet unit s) := by
  unfold execRcmSet
  split
  next => exact .refuse s _
  next hu => exact .next ((SameInstance.refl s).setRcm hu (by rfl))

theorem execRcmMix_staysInInstance : StaysInInstance s (execRcmMix unit mixu s) := by
  unfold execRcmMix
  split
  next => exact .refuse s _
  next =>
    split
    next => exact .refuse s _
    next m hm => exact .refuseOr (.next (((SameInstance.refl s).setMixOwn hm (m.own.geometry_add _)).setRes0 _))

theorem execSscmSet_staysInInstance : StaysInInstance s (execSscmSet unit s) := by
  unfold execSscmSet
  split
  next => exact .refuse s _
  next hu => exact .next ((SameInstance.refl s).setSscm hu (by rfl))

theorem execSscmMix_staysInInstance : StaysInInstance s (execSscmMix unit mixu rate s) := by
  unfold execSscmMix
  split
  next => exact .refuse s _
  next hu =>
    split
    next => exact .refuse s _
    next m hm =>
      exact .refuseOr (.refuseOr (.next ((((SameInstance.refl s).setSscm hu (by rfl)).setMixOwn hm
        (m.own.geometry_add _)).setRes0 _)))

end commands

/-- No command changes the configuration (00_scope.md R7). -/
theorem exec_staysInInstance (i : Instr) (s : State) : StaysInInstance s (exec i s) := by
  cases i with
  | nop => exact .next (.refl s)
  | bitBegin b => exact .next ((SameInstance.refl s).setG _)
  | bitEnd => exact execBitEnd_staysInInstance s
  | probRead => exact .next ((SameInstance.refl s).setRes0 _)
  | dbgRd cls unit mixu => exact execDbgRd_staysInInstance s unit mixu cls
  | squash => exact .next ((SameInstance.refl s).setRes0 _)
  | stretch => exact .refuseOr (.next ((SameInstance.refl s).setRes0 _))
  | ilog => exact .refuseOr (.next ((SameInstance.refl s).setRes0 _))
  | fsmNext b => exact .refuseOr (.next ((SameInstance.refl s).setRes0 _))
  | fsmCounts => exact .refuseOr (.next ((SameInstance.refl s).setRes _ _))
  | fsmNextp b => exact .refuseOr (.next (((SameInstance.refl s).setRng _).setRes0 _))
  | rngNext => exact .next (((SameInstance.refl s).setRng _).setRes0 _)
  | smP unit => exact execSmP_staysInInstance s unit
  | apmP unit rate => exact execApmP_staysInInstance s unit rate
  | mixUpdate unit => exact execMixUpdate_staysInInstance s unit
  | mixAdd unit => exact execMixAdd_staysInInstance s unit
  | mixSet unit => exact execMixSet_staysInInstance s unit
  | mixP unit => exact execMixP_staysInInstance s unit
  | bhLookup unit => exact execBhLookup_staysInInstance s unit
  | bhRd unit => exact execBhRd_staysInInstance s unit
  | bhWr unit => exact execBhWr_staysInInstance s unit
  | cmSet unit => exact execCmSet_staysInInstance s unit
  | cmMix unit mixu => exact execCmMix_staysInInstance s unit mixu
  | rcmSet unit => exact execRcmSet_staysInInstance s unit
  | rcmMix unit mixu => exact execRcmMix_staysInInstance s unit mixu
  | sscmSet unit => exact execSscmSet_staysInInstance s unit
  | sscmMix unit mixu rate => exact execSscmMix_staysInInstance s unit mixu rate

theorem performCommand_staysInInstance (s : State) : StaysInInstance s (performCommand s) := by
  unfold performCommand
  split
  next i _ =>
    intro t ht
    obtain ⟨t', ht', rfl⟩ := mapNext_eq_next ht
    exact (exec_staysInInstance i s t' ht').endCommand
  next => exact .next ((SameInstance.refl s).refuse _).endCommand

/-! ### Host accesses -/

theorem State.writeCmd_sameInstance (s : State) (w : Word) : SameInstance s (s.writeCmd w) := by
  have hRaise := (SameInstance.refl s).raise .busy w
  unfold State.writeCmd
  split_ifs
  · exact ⟨hRaise.cfg, hRaise.geometry⟩
  · exact ⟨rfl, rfl⟩

theorem State.writeCtrl_sameInstance (s : State) (w : Word) : SameInstance s (s.writeCtrl w) := by
  unfold State.writeCtrl
  split_ifs
  · exact (SameInstance.refl s).softReset
  · exact (SameInstance.refl s).clearErr
  · exact .refl s

theorem State.writeReg_sameInstance (s : State) (off : Nat) (w : Word) : SameInstance s (s.writeReg off w) := by
  unfold State.writeReg
  split
  next => exact s.writeCmd_sameInstance w
  next => exact ⟨rfl, rfl⟩
  next => exact ⟨rfl, rfl⟩
  next => exact ⟨rfl, rfl⟩
  next => exact s.writeCtrl_sameInstance w
  next => exact .refl s

/-- No access changes the configuration, the write to CTRL that resets included (00_scope.md R7). -/
theorem State.access_sameInstance (s : State) (a : Access) : SameInstance s (s.access a) := by
  have hRaise := fun v => (SameInstance.refl s).raise .bus v
  cases a with
  | write addr width v =>
    simp only [State.access]
    split
    next => exact .refl s
    next off _ =>
      split_ifs
      · exact s.writeReg_sameInstance off v
      · exact hRaise _
  | read addr width =>
    simp only [State.access]
    split
    next => exact .refl s
    next off _ =>
      split_ifs
      · exact ⟨rfl, rfl⟩
      · exact ⟨(hRaise _).cfg, (hRaise _).geometry⟩

theorem State.hostStep_sameInstance (s : State) : SameInstance s s.hostStep := by
  unfold State.hostStep
  split
  next => exact .refl s
  next a rest _ =>
    have h := State.access_sameInstance { s with host := rest } a.access
    exact ⟨h.cfg, h.geometry⟩

/-- No step changes the configuration (00_scope.md R7, 10_state.md R27). -/
theorem step_staysInInstance (s : State) : StaysInInstance s (step s) := by
  unfold step
  split_ifs
  · exact performCommand_staysInInstance s
  · exact .next s.hostStep_sameInstance

/-- Settles O18, from `step_staysInInstance`: the case split is over the commands and the host accesses. -/
theorem stepKeepsTheConfiguration : Obligations.StepKeepsTheConfiguration := fun s t h =>
  have hSame := step_staysInInstance s t h
  ⟨hSame.cfg, hSame.geometry⟩

/-! ### The units after reset -/

theorem GlobalContext.fresh_ok : GlobalContext.fresh.Ok where
  c0 := by decide
  bpos := by decide
  buf := Memory.nil_wf _ _

theorem StateMap.fresh_ok (c : Config) : StateMap.fresh.Ok c := ⟨Memory.nil_wf _ _⟩

theorem Apm.fresh_ok (c : Config) {rows : Nat} (h : 1 ≤ rows) : (Apm.fresh rows).Ok c where
  t := Memory.nil_wf _ _
  index := by simp only [Apm.fresh]; omega
  inRow := by simp [Apm.fresh]

theorem Stage.fresh_ok (n : Nat) {m : Nat} (hm : 1 ≤ m) (s : Nat) (w0 : BitVec 16) : (Stage.fresh n m s w0).Ok where
  tx := Memory.nil_wf _ _
  wx := Memory.nil_wf _ _
  cxtLength := List.length_replicate
  cxt r hr := by rw [List.eq_of_mem_replicate hr]; exact hm
  ncxt := Nat.zero_le _
  base := Nat.zero_le _
  nx := Nat.zero_le _
  prLength := List.length_replicate

/-- A Mixer unit after reset has a child iff `S > 1` (10_state.md R31). -/
theorem Mixer.fresh_ok (x : MixerGeometry) (hm : 1 ≤ x.m) : (Mixer.fresh x).Ok where
  own := Stage.fresh_ok x.n hm x.s x.w0
  child u hu := by
    obtain ⟨-, rfl⟩ : 1 < x.s ∧ Stage.fresh x.s 1 1 0x7FFF = u := by simpa [Mixer.fresh] using hu
    exact ⟨Stage.fresh_ok x.s le_rfl 1 _, rfl, rfl, rfl, rfl⟩
  second := by simp [Mixer.fresh, Stage.fresh]

theorem BhTable.fresh_ok (b ns : Nat) : (BhTable.fresh b ns).Ok := ⟨Memory.nil_wf _ _⟩

/-- The pointers after reset name cells of slot 0 of bucket 0 (10_state.md R33). -/
theorem CmContext.fresh_ok (c : Config) {e : Nat} (he : 0 < e) : CmContext.fresh.Ok c e := by
  have hCell : IsCell0 e 15 := ⟨0, 0, he, by omega, rfl⟩
  refine ⟨hCell, ?_, ⟨15, hCell, rfl⟩, StateMap.fresh_ok c⟩
  rintro a ⟨⟩
  decide

theorem ContextMap.fresh_ok (c : Config) (n : Nat) {e : Nat} (he : 0 < e) : (ContextMap.fresh n e).Ok c where
  tab := Memory.nil_wf _ _
  mru b _ := by simp [ContextMap.fresh]
  cn := Nat.zero_le _
  ctxs k hk := by rw [List.eq_of_mem_replicate hk]; exact CmContext.fresh_ok c he

theorem RunMap.fresh_ok {ns : Nat} (h : 0 < ns) : (RunMap.fresh ns).Ok := ⟨Memory.nil_wf _ _, h⟩

theorem Sscm.fresh_ok {ne : Nat} (h : 256 ≤ ne) : (Sscm.fresh ne).Ok where
  t := Memory.nil_wf _ _
  cxtAligned := rfl
  cxt := by simpa [Sscm.fresh] using h
  cp := by simp only [Sscm.fresh]; omega

theorem isPow2_pos {n : Nat} (h : IsPow2 n) : 0 < n := h ▸ Nat.two_pow_pos _

/-- A freshly constructed block satisfies the invariant, for every configuration and geometry R7 allows: after power-on
and after a soft reset (70_reset_and_hazards.md R134, R135). -/
theorem State.fresh_inv {c : Config} {geo : Geometry} (hc : c.Admissible) (hg : geo.Valid) : (State.fresh c geo).Inv where
  cfg := hc
  geometry := by rw [State.geometry_fresh]; exact hg
  g := GlobalContext.fresh_ok
  rng := ⟨hc.rngInit⟩
  sm u hu := by rw [List.eq_of_mem_replicate hu]; exact StateMap.fresh_ok c
  apm := List.forall_mem_map.2 fun r hr => Apm.fresh_ok c (hg.apmRows r hr)
  mix := List.forall_mem_map.2 fun x hx =>
    have ⟨_, hm, _⟩ := hg.mix x hx
    Mixer.fresh_ok x hm
  bh := List.forall_mem_map.2 fun x _ => BhTable.fresh_ok x.1 x.2
  cm := List.forall_mem_map.2 fun x hx =>
    have ⟨_, _, hPow2, _⟩ := hg.cm x hx
    ContextMap.fresh_ok c x.1 (isPow2_pos hPow2)
  rcm := List.forall_mem_map.2 fun x hx => RunMap.fresh_ok (isPow2_pos (hg.rcm x hx).1)
  sscm := List.forall_mem_map.2 fun x hx => Sscm.fresh_ok (hg.sscm x hx).2

/-! ### The configuration of the reset state -/

theorem length_rngWarmUp (n : Nat) (a b : Word) : (rngWarmUp n a b).length = n := by
  induction n generalizing a b with
  | zero => rfl
  | succ n ih => simp [rngWarmUp, ih]

/-- The open tables meet R66 and R67 by their type, the warm-up gives 64 words (41_tables_fsm.md R70). -/
theorem chosenConfig_admissible : chosenConfig.Admissible where
  stateTable := openTables.stateTable_ok
  squash := openTables.squash_ok
  rngInit := length_rngWarmUp 64 _ _
  blockBase := rfl

theorem chosenGeometry_valid : chosenGeometry.Valid where
  nSm := by decide
  nApm := by decide
  apm0 := rfl
  apmStack k h1 h6 := by interval_cases k <;> rfl
  apmRows := by decide
  nMix := by decide
  mix := by decide
  nBh := by decide
  bh := by decide +kernel
  nCm := by decide
  cm := by decide +kernel
  nRcm := by decide
  rcm := by decide +kernel
  nSscm := by decide
  sscm := by decide +kernel

/-- Settles O15: a freshly constructed block satisfies the invariant; the chosen configuration and geometry are valid. -/
theorem resetSatisfiesTheInvariant : Obligations.ResetSatisfiesTheInvariant :=
  State.fresh_inv chosenConfig_admissible chosenGeometry_valid

end Sys2Proof.Machine
end

section
/-! SUPPORT. What a performed command can do, said once: one shape of effect for each command that writes more than its
results, with the operand checks the command has passed. -/

namespace Sys2Proof.Machine

/-- `Effect s i t`: command `i`, performed on `s`, can leave `t`. Any command can be refused or write its results only;
every other shape belongs to one command (30_encoding.md R57). -/
inductive Effect (s : State) : Instr → State → Prop where
  | refuse (i : Instr) (code : ErrCode) : Effect s i (s.refuse code)
  | results (i : Instr) (v w : Word) : Effect s i (s.setRes v w)
  | bitBegin (b : BitVec 1) : Effect s (.bitBegin b) (s.setG (s.g.fold b))
  | bitEnd (v : Word) (p pr : BitVec 12) {a0 a1 a2 a3 a4 a5 a6 : Apm} {rest : List Apm}
      (hApm : s.apm = a0 :: a1 :: a2 :: a3 :: a4 :: a5 :: a6 :: rest) :
      Effect s .bitEnd (({ s with apm := (stackRun s.cfg s.g a0 a1 a2 a3 a4 a5 a6 p).1 ++ rest }.setG
        { s.g with pr := pr }).setRes0 v)
  | fsmNextp (v : Word) (x : Byte) (b : BitVec 1) :
      Effect s (.fsmNextp b) ((s.setRng (fsmStep s.cfg s.rng x b).1).setRes0 v)
  | rngNext (v : Word) : Effect s .rngNext ((s.setRng (rngNext s.rng).1).setRes0 v)
  | smP (v : Word) (cx : Byte) {unit : BitVec 8} {u : StateMap} (hu : s.sm[unit.toNat]? = some u) :
      Effect s (.smP unit) ((s.setSm unit.toNat (smP s.cfg s.g.y u cx).1).setRes0 v)
  | apmP (v : Word) (p : BitVec 12) {unit rate : BitVec 8} {u : Apm} (hu : s.apm[unit.toNat]? = some u)
      (hRow : s.op1 < u.rows) :
      Effect s (.apmP unit rate) ((s.setApm unit.toNat (apmP s.cfg s.g.y u p s.op1 rate.toNat).1).setRes0 v)
  | mixUpdate {unit : BitVec 8} {m : Mixer} (hm : s.mix[unit.toNat]? = some m) :
      Effect s (.mixUpdate unit) (s.setMix unit.toNat (m.setOwn (m.own.train s.g.y)))
  | mixAdd {unit : BitVec 8} {m : Mixer} (hm : s.mix[unit.toNat]? = some m) (hRoom : m.own.nx < m.own.cap) :
      Effect s (.mixAdd unit) (s.setMix unit.toNat (m.setOwn (m.own.add s.op0s)))
  | mixSet {unit : BitVec 8} {m : Mixer} (hm : s.mix[unit.toNat]? = some m) (hRoom : m.own.ncxt < m.own.s)
      (hCx : s.op0 < s.op1) (hRange : m.own.base + s.op1 ≤ m.own.m) :
      Effect s (.mixSet unit) (s.setMix unit.toNat (m.setOwn (m.own.select s.op0 s.op1)))
  | mixP (v : Word) {unit : BitVec 8} {m : Mixer} (hm : s.mix[unit.toNat]? = some m) :
      Effect s (.mixP unit) ((s.setMix unit.toNat (m.predict s.cfg s.g.y).1).setRes0 v)
  | bhLookup (v w : Word) {unit : BitVec 8} {u : BhTable} (hu : s.bh[unit.toNat]? = some u) :
      Effect s (.bhLookup unit)
        ((s.setBh unit.toNat { u with t := (bhLookup u.b u.ns u.t s.latch.a0).1 }).setRes v w)
  | bhWr (v : Byte) {unit : BitVec 8} {u : BhTable} (hu : s.bh[unit.toNat]? = some u) (hSlot : s.op0 < u.ns)
      (hByte : s.op1 < u.b) :
      Effect s (.bhWr unit) (s.setBh unit.toNat { u with t := putByte u.t (s.op0 * u.b + s.op1) v })
  | cmSet {unit : BitVec 8} {u : ContextMap} (hu : s.cm[unit.toNat]? = some u) (hRoom : u.cn < u.ctxs.length) :
      Effect s (.cmSet unit)
        (s.setCm unit.toNat { u.setContext u.cn (cmPerm s.latch.a0 u.cn) with cn := u.cn + 1 })
  | cmMix (v : Word) {unit mixu : BitVec 8} {u : ContextMap} {m : Mixer} {r : CmCarry × List CmContext}
      (hu : s.cm[unit.toNat]? = some u) (hm : s.mix[mixu.toNat]? = some m)
      (hRoom : m.own.nx + 6 * u.ctxs.length ≤ m.own.cap)
      (hr : r = cmMixLoop s.cfg s.g u.e { rng := s.rng, tab := u.tab, x := m.own, res := 0 } u.ctxs) :
      Effect s (.cmMix unit mixu)
        ((((s.setCm unit.toNat { u with tab := r.1.tab, cn := if s.g.bpos = 7 then 0 else u.cn, ctxs := r.2 }).setMix
          mixu.toNat (m.setOwn r.1.x)).setRng r.1.rng).setRes0 v)
  | rcmSet {unit : BitVec 8} {u : RunMap} {t : Memory 8} (hu : s.rcm[unit.toNat]? = some u)
      (ht : t = runUpdate u.t (rcmRecord u.cp) (s.g.bufBack 1)) :
      Effect s (.rcmSet unit)
        (s.setRcm unit.toNat
          { u with t := (bhLookup 4 u.ns t s.latch.a0).1, cp := bhFront u.ns s.latch.a0 })
  | rcmMix (v : Word) (x : Int) {unit mixu : BitVec 8} {m : Mixer} (hm : s.mix[mixu.toNat]? = some m)
      (hRoom : m.own.nx < m.own.cap) :
      Effect s (.rcmMix unit mixu) ((s.setMix mixu.toNat (m.setOwn (m.own.add x))).setRes0 v)
  | sscmSet {unit : BitVec 8} {u : Sscm} (hu : s.sscm[unit.toNat]? = some u) :
      Effect s (.sscmSet unit)
        (s.setSscm unit.toNat { u with cxt := (s.latch.a0 * 256).toNat &&& (u.ne - 256) })
  | sscmMix (v : Word) (x : Int) (e : BitVec 16) {unit mixu rate : BitVec 8} {u : Sscm} {m : Mixer}
      (hu : s.sscm[unit.toNat]? = some u) (hm : s.mix[mixu.toNat]? = some m) (hRoom : m.own.nx < m.own.cap) :
      Effect s (.sscmMix unit mixu rate)
        (((s.setSscm unit.toNat { u with t := u.t.write sscmInit u.cp e, cp := u.cxt + s.g.c0.toNat }).setMix
          mixu.toNat (m.setOwn (m.own.add x))).setRes0 v)

/-- Every next state the outcome `o` gives is an effect of command `i` on `s`. -/
def Answers (s : State) (i : Instr) (o : Result) : Prop := ∀ t, o = .next t → Effect s i t

theorem Answers.next {s t : State} {i : Instr} (h : Effect s i t) : Answers s i (.next t) := by
  rintro _ ⟨⟩
  exact h

theorem Answers.refuse (s : State) (i : Instr) (code : ErrCode) : Answers s i (.next (s.refuse code)) :=
  .next (.refuse i code)

/-- Writing RES0 alone leaves RES1 as it is (10_state.md R16). -/
theorem Answers.res0 (s : State) (i : Instr) (v : Word) : Answers s i (.next (s.setRes0 v)) :=
  .next (.results i v s.res1)

/-- An operand check before an outcome. -/
theorem Answers.refuseOr {s : State} {i : Instr} {p : Prop} [Decidable p] {code : ErrCode} {o : Result}
    (h : ¬p → Answers s i o) : Answers s i (if p then .next (s.refuse code) else o) := by
  split_ifs with hp
  · exact .refuse s i code
  · exact h hp

/-- A lookup names the front slot of the bucket of its hash (44_hash_bh.md R96). -/
theorem bhLookup_front (b ns : Nat) (t : Memory 8) (h : Word) : (bhLookup b ns t h).2.1 = bhFront ns h := by
  simp only [bhLookup]
  split_ifs <;> rfl

section commands

variable (s : State) (unit mixu rate : BitVec 8)

theorem execBitEnd_answers : Answers s .bitEnd (execBitEnd s) := by
  refine .refuseOr fun _ => ?_
  split
  next hApm => exact .next (.bitEnd _ _ _ hApm)
  next => exact nofun

theorem execDbgRd_answers (cls : DbgClass) : Answers s (.dbgRd cls unit mixu) (execDbgRd cls unit mixu s) := by
  refine .refuseOr fun _ => ?_
  split
  next => exact .refuse s _ _
  next r _ => exact .next (.results _ r.1 r.2)

theorem execSmP_answers : Answers s (.smP unit) (execSmP unit s) := by
  unfold execSmP
  split
  next => exact .refuse s _ _
  next hu => exact .refuseOr fun _ => .next (.smP _ _ hu)

theorem execApmP_answers : Answers s (.apmP unit rate) (execApmP unit rate s) := by
  unfold execApmP
  split
  next => exact .refuse s _ _
  next hu => exact .refuseOr fun hArgs => .next (.apmP _ _ hu (by omega))

theorem execMixUpdate_answers : Answers s (.mixUpdate unit) (execMixUpdate unit s) := by
  unfold execMixUpdate
  split
  next => exact .refuse s _ _
  next hm => exact .next (.mixUpdate hm)

theorem execMixAdd_answers : Answers s (.mixAdd unit) (execMixAdd unit s) := by
  unfold execMixAdd
  split
  next => exact .refuse s _ _
  next hm => exact .refuseOr fun _ => .refuseOr fun hFull => .next (.mixAdd hm (not_le.1 hFull))

theorem execMixSet_answers : Answers s (.mixSet unit) (execMixSet unit s) := by
  unfold execMixSet
  split
  next => exact .refuse s _ _
  next hm =>
    exact .refuseOr fun hFull => .refuseOr fun hRange => .next (.mixSet hm (not_le.1 hFull) (by omega) (by omega))

theorem execMixP_answers : Answers s (.mixP unit) (execMixP unit s) := by
  unfold execMixP
  split
  next => exact .refuse s _ _
  next hm => exact .next (.mixP _ hm)

theorem execBhLookup_answers : Answers s (.bhLookup unit) (execBhLookup unit s) := by
  unfold execBhLookup
  split
  next => exact .refuse s _ _
  next hu => exact .next (.bhLookup _ _ hu)

theorem execBhRd_answers : Answers s (.bhRd unit) (execBhRd unit s) := by
  unfold execBhRd
  split
  next => exact .refuse s _ _
  next => exact .refuseOr fun _ => .res0 s _ _

theorem execBhWr_answers : Answers s (.bhWr unit) (execBhWr unit s) := by
  unfold execBhWr
  split
  next => exact .refuse s _ _
  next hu => exact .refuseOr fun hArgs => .next (.bhWr _ hu (by omega) (by omega))

theorem execCmSet_answers : Answers s (.cmSet unit) (execCmSet unit s) := by
  unfold execCmSet
  split
  next => exact .refuse s _ _
  next hu => exact .refuseOr fun hFull => .next (.cmSet hu (not_le.1 hFull))

theorem execCmMix_answers : Answers s (.cmMix unit mixu) (execCmMix unit mixu s) := by
  unfold execCmMix
  split
  next => exact .refuse s _ _
  next hu =>
    split
    next => exact .refuse s _ _
    next hm => exact .refuseOr fun hFull => .next (.cmMix _ hu hm (not_lt.1 hFull) rfl)

theorem execRcmSet_answers : Answers s (.rcmSet unit) (execRcmSet unit s) := by
  unfold execRcmSet
  split
  next => exact .refuse s _ _
  next u hu =>
    simp only [bhLookup_front]
    exact .next (.rcmSet hu rfl)

theorem execRcmMix_answers : Answers s (.rcmMix unit mixu) (execRcmMix unit mixu s) := by
  unfold execRcmMix
  split
  next => exact .refuse s _ _
  next =>
    split
    next => exact .refuse s _ _
    next hm => exact .refuseOr fun hFull => .next (.rcmMix _ _ hm (not_le.1 hFull))

theorem execSscmSet_answers : Answers s (.sscmSet unit) (execSscmSet unit s) := by
  unfold execSscmSet
  split
  next => exact .refuse s _ _
  next hu => exact .next (.sscmSet hu)

theorem execSscmMix_answers : Answers s (.sscmMix unit mixu rate) (execSscmMix unit mixu rate s) := by
  unfold execSscmMix
  split
  next => exact .refuse s _ _
  next hu =>
    split
    next => exact .refuse s _ _
    next hm => exact .refuseOr fun _ => .refuseOr fun hFull => .next (.sscmMix _ _ _ hu hm (not_le.1 hFull))

end commands

/-- What a performed command can do. -/
theorem exec_answers (i : Instr) (s : State) : Answers s i (exec i s) := by
  cases i with
  | nop => exact .next (.results _ s.res0 s.res1)
  | bitBegin b => exact .next (.bitBegin b)
  | bitEnd => exact execBitEnd_answers s
  | probRead => exact .res0 s _ _
  | dbgRd cls unit mixu => exact execDbgRd_answers s unit mixu cls
  | squash => exact .res0 s _ _
  | stretch => exact .refuseOr fun _ => .res0 s _ _
  | ilog => exact .refuseOr fun _ => .res0 s _ _
  | fsmNext b => exact .refuseOr fun _ => .res0 s _ _
  | fsmCounts => exact .refuseOr fun _ => .next (.results _ _ _)
  | fsmNextp b => exact .refuseOr fun _ => .next (.fsmNextp _ _ b)
  | rngNext => exact .next (.rngNext _)
  | smP unit => exact execSmP_answers s unit
  | apmP unit rate => exact execApmP_answers s unit rate
  | mixUpdate unit => exact execMixUpdate_answers s unit
  | mixAdd unit => exact execMixAdd_answers s unit
  | mixSet unit => exact execMixSet_answers s unit
  | mixP unit => exact execMixP_answers s unit
  | bhLookup unit => exact execBhLookup_answers s unit
  | bhRd unit => exact execBhRd_answers s unit
  | bhWr unit => exact execBhWr_answers s unit
  | cmSet unit => exact execCmSet_answers s unit
  | cmMix unit mixu => exact execCmMix_answers s unit mixu
  | rcmSet unit => exact execRcmSet_answers s unit
  | rcmMix unit mixu => exact execRcmMix_answers s unit mixu
  | sscmSet unit => exact execSscmSet_answers s unit
  | sscmMix unit mixu rate => exact execSscmMix_answers s unit mixu rate

end Sys2Proof.Machine
end

section
/-! PROOF. The frames of the commands (10_state.md R15, R20, R25, R28 to R35): the registers of the host, the global bit
context and the generator, and the units a command does not name. -/

namespace Sys2Proof.Machine

/-! ### The registers of the host -/

/-- Settles O19: every shape of effect is made of updates that leave the fields of the host alone. -/
theorem commandsKeepTheHostSide : Obligations.CommandsKeepTheHostSide := by
  intro i s t h
  cases exec_answers i s t h <;> simp

/-! ### The global bit context and the generator -/

@[simp] theorem GlobalContext.fold_pr (g : GlobalContext) (b : BitVec 1) : (g.fold b).pr = g.pr := by
  rcases g.fold_cases b with ⟨_, e⟩ | ⟨_, e⟩ <;> rw [e]

section frames

variable {s t : State} {i : Instr} {j : Nat}

/-- Only BIT_BEGIN folds a bit into the context; what BIT_END writes of it is `pr` (10_state.md R25). -/
theorem Effect.context_eq (h : Effect s i t) (hi : ∀ b, i ≠ .bitBegin b) : t.g = { s.g with pr := t.g.pr } := by
  cases h with
  | bitBegin b => exact absurd rfl (hi b)
  | bitEnd v p pr hApm => rfl
  | _ => simp

/-- Only BIT_END writes `pr` (10_state.md R20). -/
theorem Effect.pr_eq (h : Effect s i t) (hi : i ≠ .bitEnd) : t.g.pr = s.g.pr := by
  cases h with
  | bitEnd v p pr hApm => exact absurd rfl hi
  | bitBegin b => exact s.g.fold_pr b
  | _ => simp

/-- Only the drawing commands move the generator (10_state.md R28). -/
theorem Effect.rng_eq (h : Effect s i t) (hNext : i ≠ .rngNext) (hFsm : ∀ b, i ≠ .fsmNextp b)
    (hMix : ∀ u x, i ≠ .cmMix u x) : t.rng = s.rng := by
  cases h with
  | rngNext v => exact absurd rfl hNext
  | fsmNextp v x b => exact absurd rfl (hFsm b)
  | cmMix => exact absurd rfl (hMix _ _)
  | _ => simp

/-! ### The units, kind by kind -/

theorem Effect.sm_eq (h : Effect s i t) (hP : ∀ u, i = .smP u → j ≠ u.toNat) : t.sm[j]? = s.sm[j]? := by
  cases h with
  | smP v cx hu => exact List.getElem?_set_ne (hP _ rfl).symm
  | _ => simp

/-- The seven calls of BIT_END write the units 0 to 6 (47_predictor.md R116). -/
theorem Effect.apm_eq (h : Effect s i t) (hP : ∀ u r, i = .apmP u r → j ≠ u.toNat) (hEnd : i = .bitEnd → 7 ≤ j) :
    t.apm[j]? = s.apm[j]? := by
  cases h with
  | apmP v p hu hRow => exact List.getElem?_set_ne (hP _ _ rfl).symm
  | bitEnd v p pr hApm =>
    obtain ⟨k, rfl⟩ : ∃ k, j = k + 7 := Nat.exists_eq_add_of_le' (hEnd rfl)
    rw [hApm]; rfl
  | _ => simp

theorem Effect.mix_eq (h : Effect s i t) (hUpdate : ∀ u, i = .mixUpdate u → j ≠ u.toNat)
    (hAdd : ∀ u, i = .mixAdd u → j ≠ u.toNat) (hSet : ∀ u, i = .mixSet u → j ≠ u.toNat)
    (hP : ∀ u, i = .mixP u → j ≠ u.toNat) (hCm : ∀ u x, i = .cmMix u x → j ≠ x.toNat)
    (hRcm : ∀ u x, i = .rcmMix u x → j ≠ x.toNat) (hSscm : ∀ u x r, i = .sscmMix u x r → j ≠ x.toNat) :
    t.mix[j]? = s.mix[j]? := by
  cases h with
  | mixUpdate => exact List.getElem?_set_ne (hUpdate _ rfl).symm
  | mixAdd => exact List.getElem?_set_ne (hAdd _ rfl).symm
  | mixSet => exact List.getElem?_set_ne (hSet _ rfl).symm
  | mixP => exact List.getElem?_set_ne (hP _ rfl).symm
  | cmMix => exact List.getElem?_set_ne (hCm _ _ rfl).symm
  | rcmMix => exact List.getElem?_set_ne (hRcm _ _ rfl).symm
  | sscmMix => exact List.getElem?_set_ne (hSscm _ _ _ rfl).symm
  | _ => simp

theorem Effect.bh_eq (h : Effect s i t) (hLookup : ∀ u, i = .bhLookup u → j ≠ u.toNat)
    (hWr : ∀ u, i = .bhWr u → j ≠ u.toNat) : t.bh[j]? = s.bh[j]? := by
  cases h with
  | bhLookup => exact List.getElem?_set_ne (hLookup _ rfl).symm
  | bhWr => exact List.getElem?_set_ne (hWr _ rfl).symm
  | _ => simp

theorem Effect.cm_eq (h : Effect s i t) (hSet : ∀ u, i = .cmSet u → j ≠ u.toNat)
    (hMix : ∀ u x, i = .cmMix u x → j ≠ u.toNat) : t.cm[j]? = s.cm[j]? := by
  cases h with
  | cmSet => exact List.getElem?_set_ne (hSet _ rfl).symm
  | cmMix => exact List.getElem?_set_ne (hMix _ _ rfl).symm
  | _ => simp

theorem Effect.rcm_eq (h : Effect s i t) (hSet : ∀ u, i = .rcmSet u → j ≠ u.toNat) : t.rcm[j]? = s.rcm[j]? := by
  cases h with
  | rcmSet => exact List.getElem?_set_ne (hSet _ rfl).symm
  | _ => simp

theorem Effect.sscm_eq (h : Effect s i t) (hSet : ∀ u, i = .sscmSet u → j ≠ u.toNat)
    (hMix : ∀ u x r, i = .sscmMix u x r → j ≠ u.toNat) : t.sscm[j]? = s.sscm[j]? := by
  cases h with
  | sscmSet => exact List.getElem?_set_ne (hSet _ rfl).symm
  | sscmMix => exact List.getElem?_set_ne (hMix _ _ _ rfl).symm
  | _ => simp

end frames

/-- Settles O22: one frame lemma for the context, one for `pr`, one for the generator. -/
theorem contextAndGeneratorWriters : Obligations.ContextAndGeneratorWriters := by
  intro i s t h
  have hEffect := exec_answers i s t h
  refine ⟨fun hi => ?_, hEffect.pr_eq, hEffect.rng_eq⟩
  rw [hEffect.context_eq hi]
  exact ⟨rfl, rfl, rfl, rfl, rfl, rfl⟩

/-- Settles O23: one frame lemma for each kind of unit. -/
theorem unitWriters : Obligations.UnitWriters := by
  intro i s t h j
  have hEffect := exec_answers i s t h
  exact ⟨hEffect.sm_eq, hEffect.apm_eq, hEffect.mix_eq, hEffect.bh_eq, hEffect.cm_eq, hEffect.rcm_eq, hEffect.sscm_eq⟩

end Sys2Proof.Machine
end

section
/-! PROOF. The invariant: every command and every host access keeps every field in its range and every memory canonical
(10_state.md R25 to R35, 20_memory.md R43, R44, 45_contextmap.md R101). -/

namespace Sys2Proof.Machine

/-! ### The invariant, apart from the configuration and the sizes -/

/-- Every part of the state is in range: `State.Inv` without what it says of the configuration and the sizes, which no
step changes. -/
structure State.PartsOk (s : State) : Prop where
  g : s.g.Ok
  rng : s.rng.Ok
  sm : ∀ u ∈ s.sm, u.Ok s.cfg
  apm : ∀ u ∈ s.apm, u.Ok s.cfg
  mix : ∀ m ∈ s.mix, m.Ok
  bh : ∀ u ∈ s.bh, u.Ok
  cm : ∀ u ∈ s.cm, u.Ok s.cfg
  rcm : ∀ u ∈ s.rcm, u.Ok
  sscm : ∀ u ∈ s.sscm, u.Ok

theorem State.Inv.partsOk {s : State} (h : s.Inv) : s.PartsOk := { h with }

/-- A step keeps the invariant if it keeps every part in range. -/
theorem State.Inv.of_partsOk {s t : State} (h : s.Inv) (hSame : SameInstance s t) (ht : t.PartsOk) : t.Inv :=
  { ht with cfg := by rw [hSame.cfg]; exact h.cfg, geometry := by rw [hSame.geometry]; exact h.geometry }

/-- A unit put in the place of another. -/
theorem forall_mem_set {α : Type} {P : α → Prop} {l : List α} {k : Nat} {v : α} (hl : ∀ u ∈ l, P u) (hv : P v) :
    ∀ u ∈ l.set k v, P u := by
  intro u hu
  obtain hu | rfl := List.mem_or_eq_of_mem_set hu
  · exact hl u hu
  · exact hv

namespace State.PartsOk

variable {s : State} {k : Nat}

theorem refuse (h : s.PartsOk) (code : ErrCode) : (s.refuse code).PartsOk := by
  rw [State.refuse_eq]; exact { h with }

theorem raise (h : s.PartsOk) (code : ErrCode) (v : Word) : (s.raise code v).PartsOk := by
  rw [State.raise_eq]; exact { h with }

theorem setRes0 (h : s.PartsOk) (v : Word) : (s.setRes0 v).PartsOk := { h with }

theorem setRes (h : s.PartsOk) (v w : Word) : (s.setRes v w).PartsOk := { h with }

theorem endCommand (h : s.PartsOk) : s.endCommand.PartsOk := { h with }

theorem setG (h : s.PartsOk) {g : GlobalContext} (hg : g.Ok) : (s.setG g).PartsOk := { h with g := hg }

theorem setRng (h : s.PartsOk) {r : Generator} (hr : r.Ok) : (s.setRng r).PartsOk := { h with rng := hr }

theorem setSm (h : s.PartsOk) {u : StateMap} (hu : u.Ok s.cfg) : (s.setSm k u).PartsOk :=
  { h with sm := forall_mem_set h.sm hu }

theorem setApm (h : s.PartsOk) {u : Apm} (hu : u.Ok s.cfg) : (s.setApm k u).PartsOk :=
  { h with apm := forall_mem_set h.apm hu }

theorem setMix (h : s.PartsOk) {m : Mixer} (hm : m.Ok) : (s.setMix k m).PartsOk :=
  { h with mix := forall_mem_set h.mix hm }

theorem setBh (h : s.PartsOk) {u : BhTable} (hu : u.Ok) : (s.setBh k u).PartsOk :=
  { h with bh := forall_mem_set h.bh hu }

theorem setCm (h : s.PartsOk) {u : ContextMap} (hu : u.Ok s.cfg) : (s.setCm k u).PartsOk :=
  { h with cm := forall_mem_set h.cm hu }

theorem setRcm (h : s.PartsOk) {u : RunMap} (hu : u.Ok) : (s.setRcm k u).PartsOk :=
  { h with rcm := forall_mem_set h.rcm hu }

theorem setSscm (h : s.PartsOk) {u : Sscm} (hu : u.Ok) : (s.setSscm k u).PartsOk :=
  { h with sscm := forall_mem_set h.sscm hu }

end State.PartsOk

/-! ### The operations on a unit -/

theorem Apm.trainAt_wf {c : Config} {u : Apm} (h : Memory.wf (apmInit c) (33 * u.rows) u.t) (y : BitVec 1) (rate : Nat)
    {a : Nat} (ha : a < 33 * u.rows) : Memory.wf (apmInit c) (33 * u.rows) (u.trainAt c y rate a).t :=
  Memory.write_wf h ha _

/-- A call trains two entries of one row and moves the anchor to row `cx` (42_statemap_apm.md R84). -/
theorem apmP_ok {c : Config} {u : Apm} (h : u.Ok c) (y : BitVec 1) (p : BitVec 12) {cx : Nat} (hcx : cx < u.rows)
    (rate : Nat) : (apmP c y u p cx rate).1.Ok c := by
  have hIndex := h.index
  have hInRow := h.inRow
  have hNext : u.index + 1 < 33 * u.rows := by omega
  obtain ⟨hRows, hAnchor, -, -⟩ := apmP_spec c y u p cx rate
  obtain ⟨j, hj, hCell, -⟩ := apmAnchor_spec c p cx
  have hWf : Memory.wf (apmInit c) (33 * u.rows) (u.trainAt c y rate u.index).t := Apm.trainAt_wf h.t y rate hIndex
  refine ⟨Apm.trainAt_wf hWf y rate hNext, ?_, ?_⟩
  · rw [hRows, hAnchor, hCell]; omega
  · rw [hAnchor, hCell]; omega

/-- A unit stays in range when its own stage is replaced by one of the same sizes. -/
theorem Mixer.Ok.setOwn {m : Mixer} (h : m.Ok) {u : Stage} (hu : u.Ok) (hSize : u.geometry = m.own.geometry) :
    (m.setOwn u).Ok := by
  have hs : u.s = m.own.s := congrArg MixerGeometry.s hSize
  refine ⟨hu, fun v hv => ?_, ?_⟩
  · obtain ⟨hOk, hn, hRest⟩ := h.child v hv
    exact ⟨hOk, hn.trans hs.symm, hRest⟩
  · show m.child.isSome ↔ 1 < u.s
    rw [hs]; exact h.second

/-- A new hash touches no pointer (45_contextmap.md R108). -/
theorem ContextMap.Ok.setContext {c : Config} {u : ContextMap} (h : u.Ok c) (i : Nat) (cxt : Word) :
    (u.setContext i cxt).Ok c where
  tab := h.tab
  mru := h.mru
  cn := by simpa [ContextMap.setContext] using h.cn
  ctxs k hk := by
    obtain ⟨j, hj, rfl⟩ := List.mem_iff_getElem.1 hk
    simp only [ContextMap.setContext, List.length_modify] at hj
    have hOk := h.ctxs _ (List.getElem_mem hj)
    simp only [ContextMap.setContext, List.getElem_modify]
    split_ifs
    · exact { hOk with }
    · exact hOk

/-- A slot of a `BH<B>` table lies in the table (20_memory.md R43). -/
theorem slotByte_lt {slot ns b z : Nat} (hSlot : slot < ns) (hz : z < b) : slot * b + z < ns * b := by
  rw [Nat.mul_comm ns b]; exact cell_lt hSlot hz

/-- The run record of the current slot lies in the table (46_run_sscm.md R110). -/
theorem RunMap.Ok.runUpdate_wf {u : RunMap} (h : u.Ok) (prev : Byte) :
    (runUpdate u.t (rcmRecord u.cp) prev).wf zeros (u.ns * 4) := by
  have hcp := h.cp
  rw [Nat.mul_comm]
  exact Machine.runUpdate_wf h.t (by unfold rcmRecord; omega) prev

/-- A selection is a multiple of 256 and leaves room for 256 entries (46_run_sscm.md R113). -/
theorem Sscm.Ok.select {u : Sscm} (h : u.Ok) (hne : 256 ≤ u.ne) (cx : Word) :
    ({ u with cxt := (cx * 256).toNat &&& (u.ne - 256) } : Sscm).Ok where
  t := h.t
  cxtAligned := by
    have hLow : (cx * 256).toNat % 2 ^ 8 = 0 := by
      rw [BitVec.toNat_mul]; simp
    show ((cx * 256).toNat &&& (u.ne - 256)) % 2 ^ 8 = 0
    rw [Nat.and_mod_two_pow, hLow, Nat.zero_and]
  cxt := by
    have hLe := Nat.and_le_right (n := (cx * 256).toNat) (m := u.ne - 256)
    show ((cx * 256).toNat &&& (u.ne - 256)) + 256 ≤ u.ne
    omega
  cp := h.cp

/-- A call trains the entry of the previous one and moves on inside the selection (46_run_sscm.md R114). -/
theorem Sscm.Ok.mix {u : Sscm} (h : u.Ok) (e : BitVec 16) (c0 : Byte) :
    ({ u with t := u.t.write sscmInit u.cp e, cp := u.cxt + c0.toNat } : Sscm).Ok where
  t := Memory.write_wf h.t h.cp e
  cxtAligned := h.cxtAligned
  cxt := h.cxt
  cp := by
    have hRoom := h.cxt
    have hc0 := c0.isLt
    show u.cxt + c0.toNat < u.ne
    omega

/-! ### The sizes of the units of a block -/

section sizes

variable {s : State} {k : Nat}

theorem State.Inv.bhSizes (h : s.Inv) {u : BhTable} (hu : u ∈ s.bh) : 3 ≤ u.b ∧ IsPow2 u.ns ∧ 8 ≤ u.ns :=
  have ⟨hb, _, hPow2, h8⟩ := h.geometry.bh (u.b, u.ns) (List.mem_map_of_mem hu)
  ⟨hb, hPow2, h8⟩

theorem State.Inv.cmBuckets_pos (h : s.Inv) {u : ContextMap} (hu : u ∈ s.cm) : 0 < u.e :=
  have ⟨_, _, hPow2, _⟩ := h.geometry.cm (u.ctxs.length, u.e) (List.mem_map_of_mem hu)
  isPow2_pos hPow2

theorem State.Inv.rcmSlots (h : s.Inv) {u : RunMap} (hu : u ∈ s.rcm) : IsPow2 u.ns ∧ 8 ≤ u.ns :=
  h.geometry.rcm u.ns (List.mem_map_of_mem hu)

theorem State.Inv.sscmEntries (h : s.Inv) {u : Sscm} (hu : u ∈ s.sscm) : 256 ≤ u.ne :=
  (h.geometry.sscm u.ne (List.mem_map_of_mem hu)).2

/-- The APM units 1 to 6 have a row for every 16-bit context (00_scope.md R7). -/
theorem State.Inv.apmRows (h : s.Inv) {u : Apm} (hu : s.apm[k]? = some u) (h1 : 1 ≤ k) (h6 : k ≤ 6) :
    u.rows = 65536 := by
  have hRows := h.geometry.apmStack k h1 h6
  simpa [State.geometry, hu] using hRows

/-- The first APM unit has a row for every `c0` (00_scope.md R7). -/
theorem State.Inv.apmRows_zero (h : s.Inv) {u : Apm} (hu : s.apm[0]? = some u) : u.rows = 256 := by
  have hRows := h.geometry.apm0
  simpa [State.geometry, hu] using hRows

end sizes

/-! ### The APM stack -/

/-- A byte and a masked word make a 16-bit context (47_predictor.md R115). -/
theorem xor_masked_lt (c0 : Byte) (w : Word) : (c0.setWidth 32 ^^^ (w &&& 0xFFFF)).toNat < 65536 := by
  have hMask : (w &&& 0xFFFF).toNat < 2 ^ 16 := by
    have hLe := Nat.and_le_right (n := w.toNat) (m := 0xFFFF)
    rw [BitVec.toNat_and]
    exact Nat.lt_of_le_of_lt hLe (by decide)
  have hc0 : (c0.setWidth 32).toNat < 2 ^ 16 := by
    have := c0.isLt
    rw [BitVec.toNat_setWidth]; omega
  rw [BitVec.toNat_xor]
  exact Nat.xor_lt_two_pow hc0 hMask

/-- The contexts of the stack are rows of its units (47_predictor.md R115). -/
theorem stackContexts_lt (c : Config) (g : GlobalContext) :
    (stackContexts c g).x0 < 256 ∧ (stackContexts c g).x1 < 65536 ∧ (stackContexts c g).x2 < 65536 ∧
    (stackContexts c g).x3 < 65536 := by
  have hc0 := g.c0.isLt
  have hb := (g.bufBack 1).isLt
  refine ⟨hc0, ?_, xor_masked_lt _ _, xor_masked_lt _ _⟩
  show g.c0.toNat + 256 * (g.bufBack 1).toNat < 65536
  omega

/-- BIT_END keeps the APM units in range (47_predictor.md R116). -/
theorem State.Inv.stackRun_ok {s : State} (h : s.Inv) {a0 a1 a2 a3 a4 a5 a6 : Apm} {rest : List Apm}
    (hApm : s.apm = a0 :: a1 :: a2 :: a3 :: a4 :: a5 :: a6 :: rest) (p : BitVec 12) :
    ∀ u ∈ (stackRun s.cfg s.g a0 a1 a2 a3 a4 a5 a6 p).1 ++ rest, u.Ok s.cfg := by
  have hAll := h.apm
  have hRows : ∀ k u, s.apm[k]? = some u → 1 ≤ k → k ≤ 6 → u.rows = 65536 := fun k u => h.apmRows
  have hRows0 : ∀ u, s.apm[0]? = some u → u.rows = 256 := fun u => h.apmRows_zero
  obtain ⟨hx0, hx1, hx2, hx3⟩ := stackContexts_lt s.cfg s.g
  rw [hApm] at hAll hRows hRows0
  simp only [List.forall_mem_cons] at hAll
  obtain ⟨h0, h1, h2, h3, h4, h5, h6, hRest⟩ := hAll
  have row0 : (stackContexts s.cfg s.g).x0 < a0.rows := (hRows0 a0 rfl).symm ▸ hx0
  have row {x : Nat} (k : Nat) {u : Apm} (hu : (a0 :: a1 :: a2 :: a3 :: a4 :: a5 :: a6 :: rest)[k]? = some u)
      (h1 : 1 ≤ k) (h6 : k ≤ 6) (hx : x < 65536) : x < u.rows := (hRows k u hu h1 h6).symm ▸ hx
  simp only [stackRun, List.forall_mem_append, List.forall_mem_cons]
  exact ⟨⟨apmP_ok h0 _ _ row0 _,
    apmP_ok h1 _ _ (row 1 rfl (by decide) (by decide) hx1) _,
    apmP_ok h2 _ _ (row 2 rfl (by decide) (by decide) hx2) _,
    apmP_ok h3 _ _ (row 3 rfl (by decide) (by decide) hx3) _,
    apmP_ok h4 _ _ (row 4 rfl (by decide) (by decide) hx1) _,
    apmP_ok h5 _ _ (row 5 rfl (by decide) (by decide) hx2) _,
    apmP_ok h6 _ _ (row 6 rfl (by decide) (by decide) hx3) _, by simp⟩, hRest⟩

/-! ### Commands and accesses -/

/-- CM_MIX keeps the unit, the mixer that takes the inputs and the generator in range (45_contextmap.md R109). -/
theorem State.Inv.cmMix_partsOk {s : State} (h : s.Inv) {k j : Nat} {u : ContextMap} {m : Mixer}
    (hu : s.cm[k]? = some u) (hm : s.mix[j]? = some m) (hRoom : m.own.nx + 6 * u.ctxs.length ≤ m.own.cap)
    {r : CmCarry × List CmContext}
    (hr : r = cmMixLoop s.cfg s.g u.e { rng := s.rng, tab := u.tab, x := m.own, res := 0 } u.ctxs) :
    (((s.setCm k { u with tab := r.1.tab, cn := if s.g.bpos = 7 then 0 else u.cn, ctxs := r.2 }).setMix j
      (m.setOwn r.1.x)).setRng r.1.rng).PartsOk := by
  have hUnit := h.cm u (List.mem_of_getElem? hu)
  have hMixer := h.mix m (List.mem_of_getElem? hm)
  have hSize : r.1.x.geometry = m.own.geometry := by rw [hr]; exact Stage.geometry_cmMixLoop _ _ _ _ _
  obtain ⟨hRng, hTab, hMru, hStage, -, hLength, hCtxs⟩ := cmMixLoop_ok (c := s.cfg) (g := s.g)
    (q := { rng := s.rng, tab := u.tab, x := m.own, res := 0 }) (h.cmBuckets_pos (List.mem_of_getElem? hu)) u.ctxs
    h.rng hUnit.tab hUnit.mru hMixer.own hRoom hUnit.ctxs
  rw [← hr] at hRng hTab hMru hStage hLength hCtxs
  have hCn : (if s.g.bpos = 7 then 0 else u.cn) ≤ r.2.length := by
    have hOld := hUnit.cn
    split_ifs <;> omega
  have hNew : ContextMap.Ok s.cfg { u with tab := r.1.tab, cn := if s.g.bpos = 7 then 0 else u.cn, ctxs := r.2 } :=
    ⟨hTab, hMru, hCn, hCtxs⟩
  exact ((h.partsOk.setCm hNew).setMix (hMixer.setOwn hStage hSize)).setRng hRng

/-- No command leaves a part out of range. -/
theorem Effect.partsOk {s t : State} {i : Instr} (hEffect : Effect s i t) (h : s.Inv) : t.PartsOk := by
  have hParts := h.partsOk
  cases hEffect with
  | refuse i code => exact hParts.refuse code
  | results i v w => exact hParts.setRes v w
  | bitBegin b => exact hParts.setG (GlobalContext.fold_ok h.g b)
  | bitEnd v p pr hApm => exact { hParts with apm := h.stackRun_ok hApm p, g := { h.g with } }
  | fsmNextp v x b => exact (hParts.setRng (fsmStep_ok h.rng x b)).setRes0 v
  | rngNext v => exact (hParts.setRng (rngNext_ok h.rng)).setRes0 v
  | smP v cx hu => exact (hParts.setSm (smP_ok (h.sm _ (List.mem_of_getElem? hu)) _ cx)).setRes0 v
  | apmP v p hu hRow => exact (hParts.setApm (apmP_ok (h.apm _ (List.mem_of_getElem? hu)) _ p hRow _)).setRes0 v
  | mixUpdate hm =>
    have hMixer := h.mix _ (List.mem_of_getElem? hm)
    exact hParts.setMix (hMixer.setOwn (Stage.train_ok hMixer.own _) (Stage.geometry_train _ _))
  | mixAdd hm hRoom =>
    have hMixer := h.mix _ (List.mem_of_getElem? hm)
    exact hParts.setMix (hMixer.setOwn (Stage.add_ok hMixer.own _ hRoom) (Stage.geometry_add _ _))
  | mixSet hm hRoom hCx hRange =>
    have hMixer := h.mix _ (List.mem_of_getElem? hm)
    exact hParts.setMix (hMixer.setOwn (Stage.select_ok hMixer.own hRoom hCx hRange) (Stage.geometry_select _ _ _))
  | mixP v hm => exact (hParts.setMix (Mixer.predict_ok (h.mix _ (List.mem_of_getElem? hm)) _ _)).setRes0 v
  | bhLookup v w hu =>
    have hMem := List.mem_of_getElem? hu
    obtain ⟨hb, hPow2, h8⟩ := h.bhSizes hMem
    exact (hParts.setBh ⟨bhLookup_wf hb hPow2 h8 (h.bh _ hMem).t _⟩).setRes v w
  | bhWr v hu hSlot hByte =>
    exact hParts.setBh ⟨putByte_wf (h.bh _ (List.mem_of_getElem? hu)).t (slotByte_lt hSlot hByte) v⟩
  | @cmSet _ u hu hRoom =>
    have hUnit := (h.cm _ (List.mem_of_getElem? hu)).setContext u.cn (cmPerm s.latch.a0 u.cn)
    exact hParts.setCm { hUnit with cn := by simpa [ContextMap.setContext] using hRoom }
  | cmMix v hu hm hRoom hr => exact (h.cmMix_partsOk hu hm hRoom hr).setRes0 v
  | @rcmSet _ u _ hu ht =>
    have hMem := List.mem_of_getElem? hu
    obtain ⟨hPow2, h8⟩ := h.rcmSlots hMem
    have hTable := bhLookup_wf (by decide) hPow2 h8 ((h.rcm u hMem).runUpdate_wf (s.g.bufBack 1)) s.latch.a0
    rw [Nat.mul_comm, ← ht] at hTable
    exact hParts.setRcm ⟨hTable, bhFront_lt (isPow2_pos hPow2) _⟩
  | rcmMix v x hm hRoom =>
    have hMixer := h.mix _ (List.mem_of_getElem? hm)
    exact (hParts.setMix (hMixer.setOwn (Stage.add_ok hMixer.own x hRoom) (Stage.geometry_add _ _))).setRes0 v
  | sscmSet hu =>
    have hMem := List.mem_of_getElem? hu
    exact hParts.setSscm ((h.sscm _ hMem).select (h.sscmEntries hMem) _)
  | sscmMix v x e hu hm hRoom =>
    have hMixer := h.mix _ (List.mem_of_getElem? hm)
    exact ((hParts.setSscm ((h.sscm _ (List.mem_of_getElem? hu)).mix e s.g.c0)).setMix
      (hMixer.setOwn (Stage.add_ok hMixer.own x hRoom) (Stage.geometry_add _ _))).setRes0 v

theorem performCommand_partsOk {s t : State} (h : s.Inv) (ht : performCommand s = .next t) : t.PartsOk := by
  unfold performCommand at ht
  split at ht
  next i _ =>
    obtain ⟨u, hu, rfl⟩ := mapNext_eq_next ht
    exact ((exec_answers i s u hu).partsOk h).endCommand
  next =>
    cases ht
    exact (h.partsOk.refuse _).endCommand

theorem State.writeCmd_partsOk {s : State} (h : s.PartsOk) (w : Word) : (s.writeCmd w).PartsOk := by
  unfold State.writeCmd
  split_ifs
  · exact { h.raise .busy w with }
  · exact { h with }

/-- A reset builds every part anew (70_reset_and_hazards.md R134). -/
theorem State.writeCtrl_partsOk {s : State} (h : s.Inv) (w : Word) : (s.writeCtrl w).PartsOk := by
  unfold State.writeCtrl
  split_ifs
  · exact { State.fresh_inv h.cfg h.geometry with }
  · exact { h with }
  · exact h.partsOk

theorem State.writeReg_partsOk {s : State} (h : s.Inv) (off : Nat) (w : Word) : (s.writeReg off w).PartsOk := by
  unfold State.writeReg
  split
  next => exact s.writeCmd_partsOk h.partsOk w
  next => exact { h with }
  next => exact { h with }
  next => exact { h with }
  next => exact s.writeCtrl_partsOk h w
  next => exact h.partsOk

theorem State.access_partsOk {s : State} (h : s.Inv) (a : Access) : (s.access a).PartsOk := by
  cases a with
  | write addr width v =>
    simp only [State.access]
    split
    next => exact h.partsOk
    next off _ =>
      split_ifs
      · exact s.writeReg_partsOk h off v
      · exact h.partsOk.raise _ _
  | read addr width =>
    simp only [State.access]
    split
    next => exact h.partsOk
    next off _ =>
      split_ifs
      · exact { h with }
      · exact { h.partsOk.raise .bus (BitVec.ofNat 32 off) with }

theorem State.hostStep_partsOk {s : State} (h : s.Inv) : s.hostStep.PartsOk := by
  unfold State.hostStep
  split
  next => exact h.partsOk
  next a rest _ => exact State.access_partsOk (s := { s with host := rest }) { h with } a.access

theorem step_partsOk {s t : State} (h : s.Inv) (ht : step s = .next t) : t.PartsOk := by
  unfold step at ht
  split_ifs at ht
  · exact performCommand_partsOk h ht
  · cases ht
    exact State.hostStep_partsOk h

/-- Settles O16: no step changes the sizes (`step_staysInInstance`) or leaves a part out of range (`step_partsOk`). -/
theorem stepKeepsTheInvariant : Obligations.StepKeepsTheInvariant := fun s t h ht =>
  h.of_partsOk (step_staysInInstance s t ht) (step_partsOk h ht)

end Sys2Proof.Machine
end

section
/-! PROOF. The register window (10_state.md R14 to R22): what an accepted read returns, what an accepted write does, and
which steps write `pr`. -/

namespace Sys2Proof.Machine

/-! ### An access as a step -/

section accesses

variable {s : State} {a : Access} {rest : List HostAccess}

/-- A step that finds an access to perform performs it (70_reset_and_hazards.md R138). -/
theorem step_eq_access (h : NextAccess s a rest) : step s = .next (State.access { s with host := rest } a) := by
  obtain ⟨early, hHost, hBusy⟩ := h
  have hTurn : (s.busy && !s.hostIsEarly) = false := by
    cases hb : s.busy with
    | false => rfl
    | true => simp [State.hostIsEarly, hHost, hBusy hb]
  simp [step, hTurn, State.hostStep, hHost]

theorem windowOffset_add {base off : Nat} (h : off < 64) : windowOffset base (base + off) = some off := by
  rw [windowOffset, if_pos ⟨Nat.le_add_right _ _, Nat.add_lt_add_left h _⟩, Nat.add_sub_cancel_left]

/-- An address in the window is the base and its offset (20_memory.md R41). -/
theorem windowOffset_eq_some {base addr off : Nat} (h : windowOffset base addr = some off) : addr = base + off := by
  unfold windowOffset at h
  split_ifs at h with hIn
  cases h
  omega

theorem accessOk_iff {off width : Nat} : accessOk off width = true ↔ width = 32 ∧ off % 4 = 0 := by
  simp [accessOk]

theorem State.access_write (s : State) {off : Nat} (v : Word) (h64 : off < 64) (h4 : off % 4 = 0) :
    s.access (.write (s.cfg.blockBase + off) 32 v) = s.writeReg off v := by
  simp only [State.access, windowOffset_add h64]
  rw [if_pos (accessOk_iff.2 ⟨rfl, h4⟩)]

theorem State.access_read (s : State) {off : Nat} (h64 : off < 64) (h4 : off % 4 = 0) :
    s.access (.read (s.cfg.blockBase + off) 32) = { s with busOut := s.readReg off } := by
  simp only [State.access, windowOffset_add h64]
  rw [if_pos (accessOk_iff.2 ⟨rfl, h4⟩)]

/-- An accepted write is a write of the register at its offset (20_memory.md R40). -/
theorem step_write {off : Nat} {v : Word} (h64 : off < 64) (h4 : off % 4 = 0)
    (h : NextAccess s (.write (s.cfg.blockBase + off) 32 v) rest) :
    step s = .next (State.writeReg { s with host := rest } off v) := by
  rw [step_eq_access h]
  exact congrArg _ (State.access_write { s with host := rest } v h64 h4)

/-- An accepted read changes nothing but the word the host sees (10_state.md R14, 20_memory.md R40). -/
theorem step_read {off : Nat} (h64 : off < 64) (h4 : off % 4 = 0)
    (h : NextAccess s (.read (s.cfg.blockBase + off) 32) rest) :
    step s = .next { s with host := rest, busOut := s.readReg off } := by
  rw [step_eq_access h]
  exact congrArg _ (State.access_read { s with host := rest } h64 h4)

end accesses

/-! ### The words the read-only registers give -/

/-- The number of two fields, the upper one first. -/
theorem toNat_append_eq {m n : Nat} (a : BitVec m) (b : BitVec n) : (a ++ b).toNat = a.toNat * 2 ^ n + b.toNat := by
  rw [BitVec.toNat_append, Nat.shiftLeft_eq, Nat.mul_comm, ← Nat.two_pow_add_eq_or_of_lt b.isLt]

theorem ErrCode.code_toNat (c : ErrCode) : c.code.toNat = c.number := by
  cases c <;> rfl

/-- STATUS as a number: BUSY, ERR and ERRCODE (10_state.md R17). -/
theorem State.statusWord_toNat (s : State) :
    s.statusWord.toNat = (if s.busy then 1 else 0) +
      (match s.err with | none => 0 | some r => 2 + 256 * r.code.number) := by
  have hBusy : (if s.busy then 1#1 else 0#1).toNat = if s.busy then 1 else 0 := by
    cases s.busy <;> rfl
  unfold State.statusWord
  cases s.err with
  | none =>
    simp only [toNat_append_eq, BitVec.ofNat_eq_ofNat, BitVec.toNat_ofNat, hBusy]
    omega
  | some r =>
    simp only [toNat_append_eq, BitVec.ofNat_eq_ofNat, BitVec.toNat_ofNat, hBusy, ErrCode.code_toNat]
    omega

/-- GCTX as a number: `c0`, `bpos` and `y` (10_state.md R21). -/
theorem GlobalContext.word_toNat (g : GlobalContext) :
    g.word.toNat = g.c0.toNat + 256 * g.bpos.toNat + 65536 * g.y.toNat := by
  simp only [GlobalContext.word, toNat_append_eq, BitVec.ofNat_eq_ofNat, BitVec.toNat_ofNat]
  omega

/-- PR as a number (10_state.md R20). -/
theorem GlobalContext.prWord_toNat (g : GlobalContext) : g.prWord.toNat = g.pr.toNat := by
  have hPr := g.pr.isLt
  rw [GlobalContext.prWord, BitVec.toNat_setWidth]
  omega

/-- The reserved offsets read 0 (10_state.md R14). -/
theorem State.readReg_reserved (s : State) {off : Nat} (h : 0x38 ≤ off) : s.readReg off = 0 := by
  unfold State.readReg
  split
  case h_14 => rfl
  all_goals omega

/-- Settles O10: the step of a read is `step_read`, and each register gives its word. -/
theorem readsReturnTheRegisters : Obligations.ReadsReturnTheRegisters := by
  intro s off rest h64 h4 h
  refine ⟨s.readReg off, step_read h64 h4 h, ?_, ?_, ?_, ?_, ?_, ?_, ?_, ?_, ?_, ?_, ?_, ?_, ?_, ?_,
    s.readReg_reserved⟩ <;> rintro rfl
  case refine_7 => exact s.statusWord_toNat
  case refine_10 => exact s.g.prWord_toNat
  case refine_11 => exact s.g.word_toNat
  all_goals rfl

/-! ### The writes that store or are ignored -/

/-- A write is ignored at every offset but those of CMD, the operands and CTRL (10_state.md R14). -/
theorem State.writeReg_ignored (s : State) {off : Nat} (v : Word) (h : off ∉ [0x00, 0x04, 0x08, 0x0C, 0x20]) :
    s.writeReg off v = s := by
  unfold State.writeReg
  split
  case h_6 => rfl
  all_goals exact absurd (by decide) h

/-- Settles O11: the step of a write is `step_write`, and the register at the offset says the rest. -/
theorem otherWritesStoreOrAreIgnored : Obligations.OtherWritesStoreOrAreIgnored := by
  intro s off v rest h64 h4 h
  rw [step_write h64 h4 h]
  refine ⟨?_, ?_, ?_, fun hOther => by rw [State.writeReg_ignored _ v hOther]⟩ <;> rintro rfl <;> rfl

/-! ### CTRL -/

theorem getLsbD_zero_eq_true_iff (v : Word) : v.getLsbD 0 = true ↔ v.toNat % 2 = 1 := by
  simp [BitVec.getLsbD]

theorem getLsbD_one_eq_true_iff (v : Word) : v.getLsbD 1 = true ↔ v.toNat / 2 % 2 = 1 := by
  simp [BitVec.getLsbD, Nat.testBit_succ]

theorem State.writeCtrl_reset (s : State) {v : Word} (h : v.toNat % 2 = 1) : s.writeCtrl v = s.softReset := by
  rw [State.writeCtrl, if_pos ((getLsbD_zero_eq_true_iff v).2 h)]

/-- Without bit 0, bit 1 clears the error record (10_state.md R19). -/
theorem State.writeCtrl_clear (s : State) {v : Word} (h : v.toNat % 4 = 2) : s.writeCtrl v = s.clearErr := by
  rw [State.writeCtrl, if_neg (by rw [getLsbD_zero_eq_true_iff]; omega),
    if_pos ((getLsbD_one_eq_true_iff v).2 (by omega))]

theorem State.writeCtrl_nothing (s : State) {v : Word} (h : v.toNat % 4 = 0) : s.writeCtrl v = s := by
  rw [State.writeCtrl, if_neg (by rw [getLsbD_zero_eq_true_iff]; omega),
    if_neg (by rw [getLsbD_one_eq_true_iff]; omega)]

/-- Settles O12: one lemma for each case of the two low bits, and the read of CTRL. -/
theorem ctrlResetsAndClears : Obligations.CtrlResetsAndClears := by
  refine fun s v rest => ⟨fun h => ?_, fun h => step_read (off := 0x20) (by decide) rfl h⟩
  have hStep : step s = .next (State.writeCtrl { s with host := rest } v) :=
    step_write (off := 0x20) (by decide) rfl h
  rw [hStep]
  refine ⟨fun hReset => ?_, fun hClear => ?_, fun hNothing => ?_⟩
  · rw [State.writeCtrl_reset _ hReset]; rfl
  · rw [State.writeCtrl_clear _ hClear]; rfl
  · rw [State.writeCtrl_nothing _ hNothing]

/-! ### The writers of `pr` -/

/-- Only bit 0 of CTRL reaches the global bit context (10_state.md R19). -/
theorem State.writeCtrl_g (s : State) {v : Word} (h : v.toNat % 2 ≠ 1) : (s.writeCtrl v).g = s.g := by
  rw [State.writeCtrl, if_neg (by rw [getLsbD_zero_eq_true_iff]; exact h)]
  split_ifs <;> rfl

/-- An accepted write that changes the global bit context is a reset. -/
theorem State.reset_of_writeReg_g_ne {s : State} {off : Nat} {v : Word} (h : (s.writeReg off v).g ≠ s.g) :
    off = 0x20 ∧ v.toNat % 2 = 1 := by
  unfold State.writeReg at h
  split at h
  next =>
    refine absurd ?_ h
    unfold State.writeCmd
    split_ifs
    · exact s.raise_g _ v
    · rfl
  next => exact absurd rfl h
  next => exact absurd rfl h
  next => exact absurd rfl h
  next => exact ⟨rfl, by_contra fun hBit => h (s.writeCtrl_g hBit)⟩
  next => exact absurd rfl h

/-- A host access that changes the global bit context is a reset (10_state.md R19). -/
theorem State.reset_of_access_g_ne {s : State} {a : Access} (h : (s.access a).g ≠ s.g) :
    ∃ v, a = .write (s.cfg.blockBase + 0x20) 32 v ∧ v.toNat % 2 = 1 := by
  cases a with
  | write addr width v =>
    simp only [State.access] at h
    split at h
    next => exact absurd rfl h
    next off hOff =>
      split_ifs at h with hOk
      · obtain ⟨rfl, hBit⟩ := State.reset_of_writeReg_g_ne h
        rw [windowOffset_eq_some hOff, (accessOk_iff.1 hOk).1]
        exact ⟨v, rfl, hBit⟩
      · exact absurd (s.raise_g _ _) h
  | read addr width =>
    simp only [State.access] at h
    split at h
    next => exact absurd rfl h
    next off _ =>
      split_ifs at h
      · exact absurd rfl h
      · exact absurd (s.raise_g _ _) h

/-- A command in progress that changes `pr` is BIT_END (10_state.md R20). -/
theorem bitEnd_of_performCommand_pr_ne {s t : State} (h : performCommand s = .next t) (hPr : t.g.pr ≠ s.g.pr) :
    decode s.latch.word = .ok .bitEnd := by
  unfold performCommand at h
  split at h
  next i hDecode =>
    obtain ⟨u, hExec, rfl⟩ := mapNext_eq_next h
    have hEnd : i = .bitEnd := by_contra fun hi => hPr ((exec_answers i s u hExec).pr_eq hi)
    rw [hDecode, hEnd]
  next =>
    cases h
    exact absurd (by simp) hPr

/-- A host step that changes `pr` is a reset; `hTurn` says that the step is the host's. -/
theorem reset_of_hostStep_pr_ne {s : State} (hTurn : ¬(s.busy && !s.hostIsEarly) = true)
    (hPr : s.hostStep.g.pr ≠ s.g.pr) :
    ∃ v rest, NextAccess s (.write (s.cfg.blockBase + 0x20) 32 v) rest ∧ v.toNat % 2 = 1 := by
  unfold State.hostStep at hPr
  split at hPr
  next => exact absurd rfl hPr
  next a rest hHost =>
    obtain ⟨early, access⟩ := a
    obtain ⟨v, rfl, hBit⟩ := State.reset_of_access_g_ne (s := { s with host := rest }) fun e => hPr (by rw [e])
    refine ⟨v, rest, ⟨early, hHost, fun hBusy => ?_⟩, hBit⟩
    simpa [hBusy, State.hostIsEarly, hHost] using hTurn

/-- Settles O21: the step performs the command in progress or an access of the host. -/
theorem onlyBitEndAndResetWritePr : Obligations.OnlyBitEndAndResetWritePr := by
  intro s t h hPr
  unfold step at h
  split_ifs at h with hTurn
  · exact .inl ⟨by simpa [Performs] using hTurn, bitEnd_of_performCommand_pr_ne h hPr⟩
  · cases h
    exact .inr (reset_of_hostStep_pr_ne hTurn hPr)

end Sys2Proof.Machine
end

section
/-! PROOF. The accesses that reach no register (20_memory.md R40, R41): a bus error is recorded, an address outside the
window is not seen. -/

namespace Sys2Proof.Machine

/-- `State.raise_eq` in the spelling of the statements (60_exceptions.md R120). -/
theorem State.raise_eq_errAfter (s : State) (code : ErrCode) (v : Word) :
    s.raise code v = { s with err := s.errAfter code v } :=
  s.raise_eq code v

/-! ### Bus errors -/

section busErrors

variable {off width : Nat}

/-- A refused write has no effect but the error record, whose value is the byte offset (20_memory.md R40). -/
theorem State.access_write_refused (s : State) (v : Word) (h64 : off < 64) (hBad : ¬(width = 32 ∧ off % 4 = 0)) :
    s.access (.write (s.cfg.blockBase + off) width v) =
      { s with err := s.errAfter .bus (BitVec.ofNat 32 off) } := by
  simp only [State.access, windowOffset_add h64]
  rw [if_neg (mt accessOk_iff.1 hBad), State.raise_eq_errAfter]

/-- A refused read has the same effect and returns 0 (20_memory.md R40). -/
theorem State.access_read_refused (s : State) (h64 : off < 64) (hBad : ¬(width = 32 ∧ off % 4 = 0)) :
    s.access (.read (s.cfg.blockBase + off) width) =
      { s with busOut := 0, err := s.errAfter .bus (BitVec.ofNat 32 off) } := by
  simp only [State.access, windowOffset_add h64]
  rw [if_neg (mt accessOk_iff.1 hBad), State.raise_eq_errAfter]

end busErrors

/-- Settles O8: the step performs the access (`step_eq_access`), and the access is refused. -/
theorem badAccessIsABusError : Obligations.BadAccessIsABusError := by
  intro s off width v rest h64 hBad
  refine ⟨fun hWrite => ?_, fun hRead => ?_⟩
  · rw [step_eq_access hWrite]
    exact congrArg _ (State.access_write_refused { s with host := rest } v h64 hBad)
  · rw [step_eq_access hRead]
    exact congrArg _ (State.access_read_refused { s with host := rest } h64 hBad)

/-! ### Addresses outside the window -/

section outside

variable {addr : Nat}

/-- An address below BLOCK_BASE, or 64 or more above it, has no offset in the window (20_memory.md R41). -/
theorem windowOffset_eq_none {base : Nat} (h : addr < base ∨ base + 64 ≤ addr) : windowOffset base addr = none :=
  if_neg (by omega)

theorem State.access_write_outside (s : State) (width : Nat) (v : Word)
    (h : addr < s.cfg.blockBase ∨ s.cfg.blockBase + 64 ≤ addr) : s.access (.write addr width v) = s := by
  simp only [State.access, windowOffset_eq_none h]

theorem State.access_read_outside (s : State) (width : Nat)
    (h : addr < s.cfg.blockBase ∨ s.cfg.blockBase + 64 ≤ addr) : s.access (.read addr width) = s := by
  simp only [State.access, windowOffset_eq_none h]

end outside

/-- Settles O9: the step performs the access (`step_eq_access`), and the block does not see it. -/
theorem otherAddressesAreNotSeen : Obligations.OtherAddressesAreNotSeen := by
  rintro s addr width v rest hOut (hWrite | hRead)
  · rw [step_eq_access hWrite]
    exact congrArg _ (State.access_write_outside { s with host := rest } width v hOut)
  · rw [step_eq_access hRead]
    exact congrArg _ (State.access_read_outside { s with host := rest } width hOut)

end Sys2Proof.Machine
end

section
/-! PROOF. The decoder and the encoder are inverse to each other: `decode w = .ok i` holds exactly if `i` is well formed
and `w` is its word (30_encoding.md R52, R54, R56 to R58). -/

namespace Sys2Proof

/-! ### Words by their fields -/

section fields

variable {w : Word} {op unit mixu imm : BitVec 8}

/-- The four fields determine the word (30_encoding.md R52). -/
theorem formatC_eq_of_fields (hOp : opField w = op) (hUnit : unitField w = unit) (hMixu : mixuField w = mixu)
    (hImm : immField w = imm) : formatC op unit mixu imm = w := by
  rw [← hOp, ← hUnit, ← hMixu, ← hImm, formatC_fields]

theorem opField_eq_ofNat {n : Nat} (h : (opField w).toNat = n) : opField w = BitVec.ofNat 8 n := by
  rw [← h, BitVec.ofNat_toNat, BitVec.setWidth_eq]

/-- Field OP of the word of a command is the command's opcode (30_encoding.md R57). -/
theorem opField_encode (i : Instr) : opField (encode i) = i.opcode := by
  cases i <;> exact opField_formatC _ _ _ _

/-- The fields of a word, and its bits below OP and below UNIT, as parts of its number (30_encoding.md R52). -/
theorem formatC_toNat_parts (op unit mixu imm : BitVec 8) :
    (formatC op unit mixu imm).toNat / 2 ^ 24 = op.toNat ∧
    (formatC op unit mixu imm).toNat / 2 ^ 8 % 2 ^ 8 = mixu.toNat ∧
    (formatC op unit mixu imm).toNat % 2 ^ 8 = imm.toNat ∧
    (formatC op unit mixu imm).toNat % 2 ^ 24 = unit.toNat * 2 ^ 16 + mixu.toNat * 2 ^ 8 + imm.toNat ∧
    (formatC op unit mixu imm).toNat % 2 ^ 16 = mixu.toNat * 2 ^ 8 + imm.toNat := by
  rw [formatC_toNat]
  omega

end fields

/-! ### The formats of the command word (30_encoding.md R56): what each decodes from its own words -/

section formats

variable (op : BitVec 8)

theorem decodeBare_formatC (i : Instr) : decodeBare (formatC op 0 0 0) i = .ok i := by
  simp [decodeBare, requireZero]

theorem decodeBit_formatC (f : BitVec 1 → Instr) (b : BitVec 1) :
    decodeBit (formatC op 0 0 (b.setWidth 8)) f = .ok (f b) := by
  have ⟨hHigh, hLow⟩ := bit_imm b
  rw [decodeBit, immField_formatC, hHigh, hLow]
  simp [requireZero]

theorem decodeUnit_formatC (f : BitVec 8 → Instr) (u : BitVec 8) : decodeUnit (formatC op u 0 0) f = .ok (f u) := by
  simp [decodeUnit, requireZero]

theorem decodeUnitMixu_formatC (f : BitVec 8 → BitVec 8 → Instr) (u x : BitVec 8) :
    decodeUnitMixu (formatC op u x 0) f = .ok (f u x) := by
  simp [decodeUnitMixu, requireZero]

theorem decodeDbg_formatC {cls : DbgClass} {u x : BitVec 8} (h : (Instr.dbgRd cls u x).WellFormed) :
    decodeDbg (formatC op u x cls.code) = .ok (.dbgRd cls u x) := by
  have hStage : (cls.staged || x == 0) = true := h
  simp only [decodeDbg, immField_formatC, DbgClass.ofCode_code, mixuField_formatC, unitField_formatC, hStage, if_true]

end formats

/-! ### The formats of the command word: a word that decodes has the reserved fields 0 (30_encoding.md R52, R58) -/

section inversion

variable {w : Word} {op : BitVec 8} {i j : Instr}

theorem decodeBare_eq_ok (hOp : opField w = op) (h : decodeBare w i = .ok j) : j = i ∧ formatC op 0 0 0 = w := by
  obtain ⟨hZero, rfl⟩ := requireZero_eq_ok h
  simp only [Bool.and_eq_true, beq_iff_eq] at hZero
  obtain ⟨⟨hUnit, hMixu⟩, hImm⟩ := hZero
  exact ⟨rfl, formatC_eq_of_fields hOp hUnit hMixu hImm⟩

theorem decodeBit_eq_ok {f : BitVec 1 → Instr} (hOp : opField w = op) (h : decodeBit w f = .ok j) :
    ∃ b : BitVec 1, j = f b ∧ formatC op 0 0 (b.setWidth 8) = w := by
  obtain ⟨hZero, rfl⟩ := requireZero_eq_ok h
  simp only [Bool.and_eq_true, beq_iff_eq] at hZero
  obtain ⟨⟨hUnit, hMixu⟩, hHigh⟩ := hZero
  exact ⟨_, rfl, formatC_eq_of_fields hOp hUnit hMixu (imm_bit _ hHigh).symm⟩

theorem decodeUnit_eq_ok {f : BitVec 8 → Instr} (hOp : opField w = op) (h : decodeUnit w f = .ok j) :
    ∃ u, j = f u ∧ formatC op u 0 0 = w := by
  obtain ⟨hZero, rfl⟩ := requireZero_eq_ok h
  simp only [Bool.and_eq_true, beq_iff_eq] at hZero
  obtain ⟨hMixu, hImm⟩ := hZero
  exact ⟨_, rfl, formatC_eq_of_fields hOp rfl hMixu hImm⟩

theorem decodeUnitMixu_eq_ok {f : BitVec 8 → BitVec 8 → Instr} (hOp : opField w = op)
    (h : decodeUnitMixu w f = .ok j) : ∃ u x, j = f u x ∧ formatC op u x 0 = w := by
  obtain ⟨hZero, rfl⟩ := requireZero_eq_ok h
  exact ⟨_, _, rfl, formatC_eq_of_fields hOp rfl rfl (beq_iff_eq.1 hZero)⟩

/-- The immediate of an APM_P is its rate, and MIXU is 0 (30_encoding.md R56). -/
theorem decodeApmP_eq_ok (hOp : opField w = op)
    (h : requireZero (mixuField w == 0) (.apmP (unitField w) (immField w)) = .ok j) :
    ∃ u r, j = .apmP u r ∧ formatC op u 0 r = w := by
  obtain ⟨hZero, rfl⟩ := requireZero_eq_ok h
  exact ⟨_, _, rfl, formatC_eq_of_fields hOp rfl (beq_iff_eq.1 hZero) rfl⟩

/-- The class is that of IMM, and a class without a stage has MIXU 0 (40_global_context.md R65). -/
theorem decodeDbg_eq_ok (hOp : opField w = op) (h : decodeDbg w = .ok j) :
    ∃ cls u x, j = .dbgRd cls u x ∧ (Instr.dbgRd cls u x).WellFormed ∧ formatC op u x cls.code = w := by
  unfold decodeDbg at h
  split at h
  next => cases h
  next cls hClass =>
    split_ifs at h with hStage
    cases h
    exact ⟨cls, _, _, rfl, hStage, formatC_eq_of_fields hOp rfl rfl (DbgClass.code_ofCode _ _ hClass).symm⟩

end inversion

/-! ### The memory classes of DBG_RD -/

/-- The classes with a mixer stage are those of the codes 3 to 6 (20_memory.md R51). -/
theorem DbgClass.staged_iff (c : DbgClass) : c.staged = true ↔ c.code.toNat ∈ [3, 4, 5, 6] := by
  cases c <;> decide

theorem DbgClass.code_lt (c : DbgClass) : c.code.toNat < 16 := by
  cases c <;> decide

/-! ### The decoder -/

/-- No bit of an encoding is dropped: one case for each format. -/
theorem decode_encode {i : Instr} (h : i.WellFormed) : decode (encode i) = .ok i := by
  unfold decode
  rw [opField_encode]
  cases i with
  | nop | bitEnd | probRead | squash | stretch | ilog | fsmCounts | rngNext => exact decodeBare_formatC _ _
  | bitBegin b | fsmNext b | fsmNextp b => exact decodeBit_formatC _ _ b
  | dbgRd cls u x => exact decodeDbg_formatC _ h
  | smP u | mixUpdate u | mixAdd u | mixSet u | mixP u | bhLookup u | bhRd u | bhWr u | cmSet u | rcmSet u
  | sscmSet u => exact decodeUnit_formatC _ _ u
  | apmP u r => simp [encode, Instr.opcode, requireZero]
  | cmMix u x | rcmMix u x => exact decodeUnitMixu_formatC _ _ u x
  | sscmMix u x r => simp [encode, Instr.opcode]

/-- A word that decodes is the word of the command it decodes to: one case for each opcode. -/
theorem encode_of_decode {w : Word} {i : Instr} (h : decode w = .ok i) : i.WellFormed ∧ encode i = w := by
  unfold decode at h
  split at h
  case h_1 hOp | h_3 hOp | h_4 hOp | h_6 hOp | h_7 hOp | h_8 hOp | h_10 hOp | h_12 hOp =>
    obtain ⟨rfl, hw⟩ := decodeBare_eq_ok (opField_eq_ofNat hOp) h
    exact ⟨rfl, hw⟩
  case h_2 hOp | h_9 hOp | h_11 hOp =>
    obtain ⟨b, rfl, hw⟩ := decodeBit_eq_ok (opField_eq_ofNat hOp) h
    exact ⟨rfl, hw⟩
  case h_5 hOp =>
    obtain ⟨cls, u, x, rfl, hWf, hw⟩ := decodeDbg_eq_ok (opField_eq_ofNat hOp) h
    exact ⟨hWf, hw⟩
  case h_14 hOp =>
    obtain ⟨u, r, rfl, hw⟩ := decodeApmP_eq_ok (opField_eq_ofNat hOp) h
    exact ⟨rfl, hw⟩
  case h_23 hOp | h_25 hOp =>
    obtain ⟨u, x, rfl, hw⟩ := decodeUnitMixu_eq_ok (opField_eq_ofNat hOp) h
    exact ⟨rfl, hw⟩
  case h_27 hOp =>
    cases h
    exact ⟨rfl, formatC_eq_of_fields (opField_eq_ofNat hOp) rfl rfl rfl⟩
  case h_28 => cases h
  all_goals
    next hOp =>
      obtain ⟨u, rfl, hw⟩ := decodeUnit_eq_ok (opField_eq_ofNat hOp) h
      exact ⟨rfl, hw⟩

/-- A word decodes to a command exactly if it is the word of that well-formed command. -/
theorem decode_eq_ok_iff {w : Word} {i : Instr} : decode w = .ok i ↔ i.WellFormed ∧ encode i = w :=
  ⟨encode_of_decode, fun ⟨hWf, hw⟩ => hw ▸ decode_encode hWf⟩

/-- Settles O1: every format decodes its own words (`decode_encode`). -/
theorem encodeThenDecode : Obligations.EncodeThenDecode := fun _ h => decode_encode h

/-- Settles O2: every format accepts no word but its own (`encode_of_decode`). -/
theorem decodeThenEncode : Obligations.DecodeThenEncode := fun _ _ h => encode_of_decode h

/-- Settles O3: each numeral is the word of its command. -/
theorem specWordsDecode : Obligations.SpecWordsDecode := by
  refine ⟨?_, ?_, ?_, ?_, ?_, ?_, ?_, ?_, ?_, ?_, ?_, ?_⟩ <;> exact decode_eq_ok_iff.2 ⟨rfl, rfl⟩

end Sys2Proof
end

section
/-! PROOF. What a word in CMD does: the write of the word starts a command (10_state.md R15, 30_encoding.md R52), an
illegal word raises E_ILLEGAL_OP and nothing else, and no command but NOP is a no-op (30_encoding.md R58). -/

namespace Sys2Proof.Machine

/-! ### The write to CMD -/

theorem State.writeCmd_idle {s : State} (v : Word) (h : s.busy = false) :
    s.writeCmd v = { s with cmd := v, busy := true, latch := ⟨v, s.arg0, s.arg1, s.arg2⟩ } := by
  rw [State.writeCmd, if_neg (Bool.eq_false_iff.1 h)]

/-- Settles O6: the step is an accepted write at offset 0 (`step_write`), which finds the block idle. -/
theorem cmdWriteStartsACommand : Obligations.CmdWriteStartsACommand := by
  intro s v rest hIdle h
  rw [step_write (off := 0) (by decide) rfl h]
  exact congrArg _ (State.writeCmd_idle (s := { s with host := rest }) v hIdle)

/-! ### Illegal words -/

/-- The word of a command is not illegal: its opcode is none of the reserved ones, and the fields it does not use are 0.
Only DBG_RD has a condition besides, on its class and stage. -/
theorem not_illegalWord_encode {i : Instr} (h : i.WellFormed) : ¬ IllegalWord (encode i).toNat := by
  cases i with
  | nop | bitEnd | probRead | squash | stretch | ilog | fsmCounts | rngNext => decide
  | bitBegin b | fsmNext b | fsmNextp b => revert b; decide
  | dbgRd cls u x =>
    have hCode := cls.code_lt
    have hStage : cls.code.toNat ∈ [3, 4, 5, 6] ∨ x.toNat = 0 := by
      rw [← cls.staged_iff]
      simpa [Instr.WellFormed, Instr.wellFormed, ← BitVec.toNat_inj] using h
    simp only [encode, Instr.opcode, IllegalWord, formatC_toNat_parts, -Nat.reducePow]
    simp only [BitVec.ofNat_eq_ofNat, BitVec.toNat_ofNat, List.mem_cons, List.not_mem_nil, or_false,
      true_and] at hStage ⊢
    omega
  | smP | mixUpdate | mixAdd | mixSet | mixP | bhLookup | bhRd | bhWr | cmSet | rcmSet | sscmSet | apmP | cmMix | rcmMix
  | sscmMix =>
    simp only [encode, Instr.opcode, IllegalWord, formatC_toNat_parts, -Nat.reducePow]
    simp

/-- An illegal word decodes to no command: it would be the word of that command (`decode_eq_ok_iff`). -/
theorem decode_eq_error_of_illegalWord {w : Word} (h : IllegalWord w.toNat) : ∃ e, decode w = .error e := by
  cases hDecode : decode w with
  | error e => exact ⟨e, rfl⟩
  | ok i =>
    obtain ⟨hWf, rfl⟩ := decode_eq_ok_iff.1 hDecode
    exact absurd h (not_illegalWord_encode hWf)

theorem step_eq_performCommand {s : State} (h : Performs s) : step s = performCommand s := by
  obtain ⟨hBusy, hHost⟩ := h
  simp [step, hBusy, hHost]

/-- A word that is no command is refused with E_ILLEGAL_OP (30_encoding.md R58). -/
theorem performCommand_of_decode_error {s : State} {e : DecodeError} (h : decode s.latch.word = .error e) :
    performCommand s = .next { s with busy := false, err := s.errAfter .illegalOp s.latch.word } := by
  simp only [performCommand, h, State.refuse_eq]
  rfl

/-! ### Refusals -/

/-- The outcome is a refusal of the command on `s` (60_exceptions.md R120). -/
def Refuses (s : State) (o : Result) : Prop := ∃ code, o = .next (s.refuse code)

/-- The answer of a memory class is an error (20_memory.md R51). -/
def DbgFails (a : DbgAnswer) : Prop := ∃ code, a = .error code

section refusals

variable {s : State} {o : Result} {p : Prop} [Decidable p] {code : ErrCode}

/-- A refusal sets the error record of a state that has none (60_exceptions.md R120). -/
theorem Refuses.ne (h : Refuses s o) (hErr : s.err = none) : o ≠ .next s := by
  obtain ⟨code, rfl⟩ := h
  intro hNext
  have hSame : (s.refuse code).err = s.err := congrArg State.err (Host.Outcome.next.inj hNext)
  simp [State.refuse_eq, hErr] at hSame

theorem Refuses.of_check (hp : p) : Refuses s (if p then .next (s.refuse code) else o) := ⟨code, if_pos hp⟩

/-- A check before an outcome that is a refusal. -/
theorem Refuses.check (h : Refuses s o) : Refuses s (if p then .next (s.refuse code) else o) := by
  split_ifs
  · exact ⟨code, rfl⟩
  · exact h

end refusals

section answers

variable {s : State} {unit mixu : BitVec 8} {a : DbgAnswer} {α : Type}

theorem dbgInRange_fails {ok : Bool} (v w : Word) (h : ok = false) : DbgFails (dbgInRange ok v w) :=
  ⟨.argRange, by rw [dbgInRange, h]; rfl⟩

theorem dbgNoUnit_fails (h : DbgFails a) : DbgFails (dbgNoUnit unit a) := by
  unfold dbgNoUnit
  split_ifs
  · exact h
  · exact ⟨_, rfl⟩

theorem dbgUnit_fails {units : List α} {f : α → DbgAnswer} (h : ∀ u ∈ units, DbgFails (f u)) :
    DbgFails (dbgUnit units unit f) := by
  unfold dbgUnit
  split
  next => exact ⟨_, rfl⟩
  next u hu => exact h u (List.mem_of_getElem? hu)

theorem dbgStage_fails {f : Stage → DbgAnswer}
    (h : ∀ m ∈ s.mix, ∀ u, m.stage mixu = some u → DbgFails (f u)) : DbgFails (dbgStage s unit mixu f) := by
  refine dbgUnit_fails fun m hm => ?_
  split
  next => exact ⟨_, rfl⟩
  next u hu => exact h m hm u hu

theorem execDbgRd_refuses {cls : DbgClass} (h : DbgFails (dbgRead s cls unit mixu)) :
    Refuses s (execDbgRd cls unit mixu s) := by
  obtain ⟨code, hAnswer⟩ := h
  refine .check ⟨code, ?_⟩
  rw [hAnswer]

end answers

/-! ### A state on which every command but NOP acts -/

/-- A block with the seven APM units of the stack and one Mixer unit, and no other unit (00_scope.md R7). -/
def sparseGeometry : Geometry :=
  { nSm := 0, apm := [256, 65536, 65536, 65536, 65536, 65536, 65536], mix := [⟨1, 1, 1, 0⟩]
    bh := [], cm := [], rcm := [], sscm := [] }

/-- A Mixer stage of `sparseGeometry` that holds one input. -/
def sparseStage : Stage := (Stage.fresh 1 1 1 0).add 0

/-- A state on which every command but NOP acts: RES0 holds no result of 12 bits, the Mixer has an input to drop, ARG0
is out of the range of every command that checks it, and ARG1 is no range of a selection. -/
def probe : State :=
  { State.fresh chosenConfig sparseGeometry with
    res0 := 0xFFFFFFFF, latch := ⟨0, 0x7FFFFFFF, 0, 0⟩, mix := [{ own := sparseStage, child := none }] }

theorem sparseGeometry_valid : sparseGeometry.Valid where
  nSm := by decide
  nApm := by decide
  apm0 := rfl
  apmStack k h1 h6 := by interval_cases k <;> rfl
  apmRows := by decide
  nMix := by decide
  mix := by decide
  nBh := by decide
  bh := nofun
  nCm := by decide
  cm := nofun
  nRcm := by decide
  rcm := nofun
  nSscm := by decide
  sscm := nofun

/-- The probe satisfies the invariant: only the Mixer unit differs from a freshly constructed block. -/
theorem probe_inv : probe.Inv where
  __ := State.fresh_inv chosenConfig_admissible sparseGeometry_valid
  mix m hm := by
    obtain rfl := List.mem_singleton.1 hm
    exact ⟨Stage.add_ok (Stage.fresh_ok 1 le_rfl 1 0) 0 (by decide), nofun, by decide⟩

/-- Every read of the probe fails: the unit does not exist, or ARG0 is no index of the class (20_memory.md R51). -/
theorem dbgRead_probe_fails (cls : DbgClass) (unit mixu : BitVec 8) : DbgFails (dbgRead probe cls unit mixu) := by
  have hStage (m : Mixer) (hm : m ∈ probe.mix) (u : Stage) (hu : m.stage mixu = some u) : u = sparseStage := by
    obtain rfl := List.mem_singleton.1 hm
    unfold Mixer.stage at hu
    split_ifs at hu
    exact (Option.some.inj hu).symm
  cases cls with
  | buf | rngWord => exact dbgNoUnit_fails (dbgInRange_fails _ _ rfl)
  | smEntry | bhByte | cmByte | cmContext | cmStateMap | rcmByte | rcmPointer | sscmEntry | sscmPointers =>
    exact ⟨.badUnit, rfl⟩
  | apmEntry =>
    have hRows : ∀ u ∈ probe.apm, u.rows ≤ 65536 := by decide
    have hIndex : probe.op0 = 0x7FFFFFFF := rfl
    exact dbgUnit_fails fun u hu => dbgInRange_fails _ _ (decide_eq_false (by have := hRows u hu; omega))
  | mixWeight | mixInput | mixSelection =>
    refine dbgStage_fails fun m hm u hu => ?_
    rw [hStage m hm u hu]
    exact dbgInRange_fails _ _ rfl
  | mixCounters =>
    refine dbgStage_fails fun m hm u hu => ?_
    rw [hStage m hm u hu]
    exact ⟨_, rfl⟩

/-- A 12-bit result is not the word in RES0 of the probe. -/
theorem setRes0_probe_ne {t : State} (p : BitVec 12) : t.setRes0 (p.setWidth 32) ≠ probe := by
  intro h
  have hRes : p.setWidth 32 = (0xFFFFFFFF : Word) := congrArg State.res0 h
  have hLt := p.isLt
  have hNat := congrArg BitVec.toNat hRes
  simp only [BitVec.toNat_setWidth, BitVec.ofNat_eq_ofNat, BitVec.toNat_ofNat] at hNat
  omega

/-- BIT_BEGIN moves `bpos` in every state (40_global_context.md R63). -/
theorem execBitBegin_ne (b : BitVec 1) (s : State) : execBitBegin b s ≠ .next s := by
  intro h
  have hMoved : (s.g.fold b).bpos = s.g.bpos + 1 := by
    rcases s.g.fold_cases b with ⟨_, e⟩ | ⟨_, e⟩ <;> rw [e]
  have hSame : (s.g.fold b).bpos = s.g.bpos := congrArg (fun t => t.g.bpos) (Host.Outcome.next.inj h)
  rw [hMoved] at hSame
  simp at hSame

/-- RNG_NEXT moves the index of the ring in every state (41_tables_fsm.md R71). -/
theorem execRngNext_ne (s : State) : execRngNext s ≠ .next s := by
  intro h
  have hSame : s.rng.i + 1 = s.rng.i := congrArg (fun t => t.rng.i) (Host.Outcome.next.inj h)
  simp at hSame

/-- A Mixer that holds an input is changed by its training, which drops the input (43_mixer.md R88). -/
theorem setMix_train_ne {s : State} {k : Nat} {m : Mixer} {y : BitVec 1} (hm : s.mix[k]? = some m)
    (hInputs : m.own.nx ≠ 0) : (.next (s.setMix k (m.setOwn (m.own.train y))) : Result) ≠ .next s := by
  intro h
  obtain ⟨hk, -⟩ := List.getElem?_eq_some_iff.1 hm
  have hSame : (s.mix.set k (m.setOwn (m.own.train y)))[k]? = s.mix[k]? :=
    congrArg (fun t => t.mix[k]?) (Host.Outcome.next.inj h)
  rw [List.getElem?_set_self hk, hm] at hSame
  exact hInputs (congrArg (fun u => u.own.nx) (Option.some.inj hSame)).symm

section probe

variable (unit mixu rate : BitVec 8)

theorem execMixUpdate_probe_ne : execMixUpdate unit probe ≠ .next probe := by
  unfold execMixUpdate
  split
  next => exact Refuses.ne ⟨_, rfl⟩ rfl
  next m hm =>
    obtain rfl := List.mem_singleton.1 (List.mem_of_getElem? hm)
    exact setMix_train_ne hm (by decide)

theorem execMixAdd_probe_refuses : Refuses probe (execMixAdd unit probe) := by
  unfold execMixAdd
  split
  next => exact ⟨_, rfl⟩
  next => exact .of_check (by decide)

theorem execMixSet_probe_refuses : Refuses probe (execMixSet unit probe) := by
  unfold execMixSet
  split
  next => exact ⟨_, rfl⟩
  next => exact .check (.of_check (.inl rfl))

theorem execMixP_probe_ne : execMixP unit probe ≠ .next probe := by
  unfold execMixP
  split
  next => exact Refuses.ne ⟨_, rfl⟩ rfl
  next m _ => exact fun h => setRes0_probe_ne _ (Host.Outcome.next.inj h)

theorem execApmP_probe_refuses : Refuses probe (execApmP unit rate probe) := by
  unfold execApmP
  split
  next => exact ⟨_, rfl⟩
  next => exact .of_check (.inr (.inr (.inl (by decide))))

end probe

/-- Every command but NOP acts on the probe: it is refused there, or it writes RES0, the context, the generator or the
Mixer. -/
theorem exec_probe_ne {i : Instr} (hi : i ≠ .nop) : exec i probe ≠ .next probe := by
  cases i with
  | nop => exact absurd rfl hi
  | bitBegin b => exact execBitBegin_ne b probe
  | rngNext => exact execRngNext_ne probe
  | probRead | squash => exact fun h => setRes0_probe_ne _ (Host.Outcome.next.inj h)
  | mixP u => exact execMixP_probe_ne u
  | mixUpdate u => exact execMixUpdate_probe_ne u
  | bitEnd | stretch | ilog | fsmNext | fsmCounts | fsmNextp => exact Refuses.ne ⟨.argRange, rfl⟩ rfl
  | dbgRd cls u x => exact (execDbgRd_refuses (dbgRead_probe_fails cls u x)).ne rfl
  | apmP u r => exact (execApmP_probe_refuses u r).ne rfl
  | mixAdd u => exact (execMixAdd_probe_refuses u).ne rfl
  | mixSet u => exact (execMixSet_probe_refuses u).ne rfl
  | smP | bhLookup | bhRd | bhWr | cmSet | cmMix | rcmSet | rcmMix | sscmSet | sscmMix =>
    exact Refuses.ne ⟨.badUnit, rfl⟩ rfl

/-- Every command but NOP acts on some state that satisfies the invariant (30_encoding.md R58). -/
theorem exists_inv_exec_ne {i : Instr} (hi : i ≠ .nop) : ∃ s : State, s.Inv ∧ exec i s ≠ .next s :=
  ⟨probe, probe_inv, exec_probe_ne hi⟩

/-- Settles O4: an illegal word does not decode (`decode_eq_error_of_illegalWord`) and is refused; every command but NOP
acts on the probe (`exists_inv_exec_ne`). -/
theorem illegalWordOnlyRaisesIllegalOp : Obligations.IllegalWordOnlyRaisesIllegalOp := by
  refine ⟨fun s hPerforms hIllegal => ?_, fun i _ hi => ?_⟩
  · obtain ⟨e, hDecode⟩ := decode_eq_error_of_illegalWord hIllegal
    rw [step_eq_performCommand hPerforms, performCommand_of_decode_error hDecode]
  · obtain ⟨s, -, hActs⟩ := exists_inv_exec_ne hi
    exact ⟨s, hActs⟩

end Sys2Proof.Machine
end

section
/-! PROOF. NOP, BIT_BEGIN and PROB_READ (40_global_context.md R62 to R64): the fold of a bit as numbers. -/

namespace Sys2Proof.Machine

theorem GlobalContext.fold_y (g : GlobalContext) (b : BitVec 1) : (g.fold b).y = b := by
  rcases g.fold_cases b with ⟨-, e⟩ | ⟨-, e⟩ <;> rw [e]

/-- The bit position advances modulo 8, in and at the end of a byte (40_global_context.md R63). -/
theorem GlobalContext.fold_bpos_toNat (g : GlobalContext) (b : BitVec 1) :
    (g.fold b).bpos.toNat = (g.bpos.toNat + 1) % 8 := by
  have hMoved : (g.fold b).bpos = g.bpos + 1 := by
    rcases g.fold_cases b with ⟨-, e⟩ | ⟨-, e⟩ <;> rw [e]
  rw [hMoved, BitVec.toNat_add]
  rfl

/-- A byte shifted in below the other three, as a number. -/
theorem shiftLeft_or_byte_toNat (w : Word) (v : Byte) :
    (w <<< 8 ||| v.setWidth 32).toNat = (w.toNat * 256 + v.toNat) % 2 ^ 32 := by
  have hv := v.isLt
  have hLow : (v.setWidth 32).toNat = v.toNat := BitVec.toNat_setWidth_of_le (by decide)
  have hHigh : (w <<< 8).toNat = 2 ^ 8 * (w.toNat % 2 ^ 24) := by
    rw [BitVec.toNat_shiftLeft, Nat.shiftLeft_eq]
    omega
  rw [BitVec.toNat_or, hLow, hHigh, ← Nat.two_pow_add_eq_or_of_lt hv]
  omega

/-- Settles O25: the fold has two cases (`GlobalContext.fold_cases`), in a byte and at its end. -/
theorem bitBeginFoldsTheBit : Obligations.BitBeginFoldsTheBit := by
  intro s b
  refine ⟨s.g.fold b, rfl, s.g.fold_y b, s.g.fold_bpos_toNat b, s.g.fold_pr b, ?_⟩
  intro c
  rcases s.g.fold_cases b with ⟨hMid, hFold⟩ | ⟨hEnd, hFold⟩
  · rw [if_pos hMid, hFold]
    exact ⟨(BitVec.toNat_ofNat _ _).trans (Nat.mod_eq_of_lt hMid), rfl, rfl, fun _ => rfl⟩
  · have hByte : (BitVec.ofNat 8 (c - 256)).toNat = c - 256 := by
      have hc0 := s.g.c0.isLt
      have hb := b.isLt
      have hc : c = 2 * s.g.c0.toNat + b.toNat := rfl
      exact (BitVec.toNat_ofNat _ _).trans (Nat.mod_eq_of_lt (by omega))
    rw [if_neg (Nat.not_lt.2 hEnd), hFold]
    refine ⟨rfl, BitVec.toNat_add _ _, ?_, fun a => ?_⟩
    · rw [shiftLeft_or_byte_toNat, hByte]
    · rw [byteAt_putByte, apply_ite BitVec.toNat, hByte]
      rfl

/-- Settles O24: PROB_READ gives the 12 bits of `pr` in a word. -/
theorem nopAndProbRead : Obligations.NopAndProbRead := fun s => by
  refine ⟨rfl, ?_⟩
  rw [BitVec.ofNat_toNat]
  rfl

end Sys2Proof.Machine
end

section
/-! PROOF. DBG_RD (40_global_context.md R65, 20_memory.md R51): one column of the table of classes for each class, from
which what it returns and its refusals follow. -/

namespace Sys2Proof.Machine

variable {s : State} {cls : DbgClass} {unit mixu : BitVec 8}

/-! ### The command and the answer of its class -/

theorem exec_dbgRd (cls : DbgClass) (unit mixu : BitVec 8) (s : State) :
    exec (.dbgRd cls unit mixu) s = execDbgRd cls unit mixu s := rfl

/-- A term that stands for a word passes the check of the decoder (log 19). -/
theorem not_stage_of_wellFormed (h : (Instr.dbgRd cls unit mixu).WellFormed) :
    ¬(cls.staged = false ∧ mixu ≠ 0) := by
  rintro ⟨hStaged, hMixu⟩
  have hTerm : cls.staged = true ∨ mixu = 0 := by simpa [Instr.WellFormed, Instr.wellFormed] using h
  rcases hTerm with hYes | hZero
  · rw [hStaged] at hYes
    contradiction
  · exact hMixu hZero

/-- An answer goes to RES0 and RES1 and is the whole effect (40_global_context.md R65). -/
theorem exec_dbgRd_of_ok {v w : Word} (hWf : (Instr.dbgRd cls unit mixu).WellFormed)
    (h : dbgRead s cls unit mixu = .ok (v, w)) :
    exec (.dbgRd cls unit mixu) s = .next { s with res0 := v, res1 := w } := by
  rw [exec_dbgRd, execDbgRd, if_neg (not_stage_of_wellFormed hWf), h]
  rfl

/-- An error of the class is the command's, and the error record is the whole effect (60_exceptions.md R120). -/
theorem raises_dbgRd_of_error {code : ErrCode} (hWf : (Instr.dbgRd cls unit mixu).WellFormed)
    (h : dbgRead s cls unit mixu = .error code) : Raises (.dbgRd cls unit mixu) s code := by
  rw [Raises, exec_dbgRd, execDbgRd, if_neg (not_stage_of_wellFormed hWf), h, ← State.raise_eq_errAfter]
  rfl

/-! ### The checks of a class, in their order: unit, stage, index -/

theorem dbgInRange_of {p : Prop} [Decidable p] (v w : Word) (h : p) : dbgInRange (decide p) v w = .ok (v, w) :=
  if_pos (decide_eq_true h)

theorem dbgInRange_of_not {p : Prop} [Decidable p] (v w : Word) (h : ¬p) :
    dbgInRange (decide p) v w = .error .argRange :=
  if_neg (by simpa using h)

section unit

variable {α : Type} {units : List α} {f : α → DbgAnswer}

theorem dbgUnit_of_some {u : α} (h : units[unit.toNat]? = some u) : dbgUnit units unit f = f u := by
  rw [dbgUnit, h]

theorem dbgUnit_of_length_le (h : units.length ≤ unit.toNat) : dbgUnit units unit f = .error .badUnit := by
  rw [dbgUnit, List.getElem?_eq_none h]

/-- A class read from a unit refuses a unit number that none has, whatever the operands are (60_exceptions.md R121). -/
theorem raises_dbgRd_badUnit (hWf : (Instr.dbgRd cls unit mixu).WellFormed)
    (h : dbgRead s cls unit mixu = dbgUnit units unit f) (hLe : units.length ≤ unit.toNat) :
    Raises (.dbgRd cls unit mixu) s .badUnit :=
  raises_dbgRd_of_error hWf (h.trans (dbgUnit_of_length_le hLe))

end unit

section stage

variable {m : Mixer} {f : Stage → DbgAnswer}

theorem dbgStage_of_some {u : Stage} (hm : s.mix[unit.toNat]? = some m) (hu : m.stage mixu = some u) :
    dbgStage s unit mixu f = f u := by
  rw [dbgStage, dbgUnit_of_some hm, hu]

theorem dbgStage_of_none (hm : s.mix[unit.toNat]? = some m) (hu : m.stage mixu = none) :
    dbgStage s unit mixu f = .error .badMixu := by
  rw [dbgStage, dbgUnit_of_some hm, hu]

/-- Every class with a mixer stage is read through its checks (20_memory.md R51). -/
theorem exists_dbgRead_eq_dbgStage (s : State) (unit mixu : BitVec 8) (h : cls.staged = true) :
    ∃ f, dbgRead s cls unit mixu = dbgStage s unit mixu f := by
  cases cls with
  | mixWeight | mixInput | mixSelection | mixCounters => exact ⟨_, rfl⟩
  | _ => contradiction

/-- Stage 0 is the unit's own, stage 1 its child (20_memory.md R51). -/
theorem Mixer.stage_eq_some {u : Stage} (h : (mixu = 0 ∧ u = m.own) ∨ (mixu = 1 ∧ m.child = some u)) :
    m.stage mixu = some u := by
  rcases h with ⟨rfl, rfl⟩ | ⟨rfl, hChild⟩
  · rfl
  · exact hChild

/-- There is no stage above 1, and no stage 1 without a child (20_memory.md R51). -/
theorem Mixer.stage_eq_none (h : 1 < mixu.toNat ∨ (mixu = 1 ∧ m.child = none)) : m.stage mixu = none := by
  rcases h with hAbove | ⟨rfl, hChild⟩
  · rw [Mixer.stage, if_neg (by rintro rfl; contradiction), if_neg (by rintro rfl; contradiction)]
  · exact hChild

end stage

/-! ### The columns -/

/-- A column of the table of 20_memory.md R51: an index in range answers `v` and `w`, any other is refused. -/
structure DbgColumn (s : State) (cls : DbgClass) (unit mixu : BitVec 8) (inRange : Prop) (v w : Word) : Prop where
  reads : inRange → exec (.dbgRd cls unit mixu) s = .next { s with res0 := v, res1 := w }
  refuses : ¬inRange → Raises (.dbgRd cls unit mixu) s .argRange

theorem DbgColumn.of_dbgRead {p : Prop} [Decidable p] {v w : Word} (hWf : (Instr.dbgRd cls unit mixu).WellFormed)
    (h : dbgRead s cls unit mixu = dbgInRange (decide p) v w) : DbgColumn s cls unit mixu p v w where
  reads hp := exec_dbgRd_of_ok hWf (h.trans (dbgInRange_of v w hp))
  refuses hp := raises_dbgRd_of_error hWf (h.trans (dbgInRange_of_not v w hp))

/-- An index at or past the end of a column is refused (60_exceptions.md R119, code 4). -/
theorem DbgColumn.refuses_of_le {i n : Nat} {v w : Word} (h : DbgColumn s cls unit mixu (i < n) v w) (hi : n ≤ i) :
    Raises (.dbgRd cls unit mixu) s .argRange :=
  h.refuses (Nat.not_lt.2 hi)

/-- A column whose index names one of a few fields. -/
theorem DbgColumn.reads_field {fields : List Word}
    (h : DbgColumn s cls unit mixu (s.op0 < fields.length) (fields.getD s.op0 0) 0) {i : Nat} {v : Word}
    (hi : s.op0 = i) (hv : fields[i]? = some v) :
    exec (.dbgRd cls unit mixu) s = .next { s with res0 := v, res1 := 0 } := by
  subst hi
  obtain ⟨hLt, -⟩ := List.getElem?_eq_some_iff.1 hv
  have hValue : fields.getD s.op0 0 = v := by rw [List.getD_eq_getElem?_getD, hv, Option.getD_some]
  exact hValue ▸ h.reads hLt

theorem buf_column (s : State) : DbgColumn s .buf 0 0 (s.op0 < 2 ^ 24) ((byteAt s.g.buf s.op0).setWidth 32) 0 :=
  .of_dbgRead rfl rfl

theorem rngWord_column (s : State) :
    DbgColumn s .rngWord 0 0 (s.op0 < 64) (s.rng.t.getD s.op0 0) (s.rng.i.setWidth 32) :=
  .of_dbgRead rfl rfl

theorem smEntry_column {u : StateMap} (hu : s.sm[unit.toNat]? = some u) :
    DbgColumn s .smEntry unit 0 (s.op0 < 256) ((u.entry s.cfg s.op0).setWidth 32) (u.prev.setWidth 32) :=
  .of_dbgRead rfl (dbgUnit_of_some hu)

theorem apmEntry_column {u : Apm} (hu : s.apm[unit.toNat]? = some u) :
    DbgColumn s .apmEntry unit 0 (s.op0 < 33 * u.rows) ((u.entry s.cfg s.op0).setWidth 32) (BitVec.ofNat 32 u.index) :=
  .of_dbgRead rfl (dbgUnit_of_some hu)

theorem bhByte_column {u : BhTable} (hu : s.bh[unit.toNat]? = some u) :
    DbgColumn s .bhByte unit 0 (s.op0 < u.ns * u.b) ((byteAt u.t s.op0).setWidth 32) 0 :=
  .of_dbgRead rfl (dbgUnit_of_some hu)

section runMap

variable {u : RunMap} (hu : s.rcm[unit.toNat]? = some u)
include hu

theorem rcmByte_column : DbgColumn s .rcmByte unit 0 (s.op0 < 4 * u.ns) ((byteAt u.t s.op0).setWidth 32) 0 :=
  .of_dbgRead rfl (dbgUnit_of_some hu)

theorem rcmPointer_column : DbgColumn s .rcmPointer unit 0 (s.op0 = 0) (BitVec.ofNat 32 u.cp) 0 :=
  .of_dbgRead rfl (dbgUnit_of_some hu)

end runMap

/-- The fields of class 14, in the order of their indices (20_memory.md R51). -/
def Sscm.pointerWords (u : Sscm) : List Word := [BitVec.ofNat 32 u.cxt, BitVec.ofNat 32 u.cp]

theorem dbgSscmPointer_eq (u : Sscm) (i : Nat) :
    dbgSscmPointer u i = dbgInRange (decide (i < u.pointerWords.length)) (u.pointerWords.getD i 0) 0 := by
  match i with
  | 0 | 1 => rfl
  | k + 2 => exact (dbgInRange_of_not _ _ (Nat.not_lt.2 (Nat.le_add_left 2 k))).symm

section sscm

variable {u : Sscm} (hu : s.sscm[unit.toNat]? = some u)
include hu

theorem sscmEntry_column : DbgColumn s .sscmEntry unit 0 (s.op0 < u.ne) ((u.entry s.op0).setWidth 32) 0 :=
  .of_dbgRead rfl (dbgUnit_of_some hu)

theorem sscmPointers_column :
    DbgColumn s .sscmPointers unit 0 (s.op0 < u.pointerWords.length) (u.pointerWords.getD s.op0 0) 0 :=
  .of_dbgRead rfl ((dbgUnit_of_some hu).trans (dbgSscmPointer_eq u s.op0))

end sscm

/-- The counters of class 6, in the order of their indices (20_memory.md R51). -/
def Stage.counterWords (u : Stage) : List Word := [BitVec.ofNat 32 u.nx, BitVec.ofNat 32 u.ncxt, BitVec.ofNat 32 u.base]

theorem dbgCounter_eq (u : Stage) (i : Nat) :
    dbgCounter u i = dbgInRange (decide (i < u.counterWords.length)) (u.counterWords.getD i 0) 0 := by
  match i with
  | 0 | 1 | 2 => rfl
  | k + 3 => exact (dbgInRange_of_not _ _ (Nat.not_lt.2 (Nat.le_add_left 3 k))).symm

section mixer

variable {m : Mixer} {u : Stage} (hm : s.mix[unit.toNat]? = some m) (hu : m.stage mixu = some u)
include hm hu

theorem mixWeight_column : DbgColumn s .mixWeight unit mixu (s.op0 < u.cap * u.m)
    ((u.wx.read u.weightInit s.op0).signExtend 32) 0 :=
  .of_dbgRead rfl (dbgStage_of_some hm hu)

theorem mixInput_column : DbgColumn s .mixInput unit mixu (s.op0 < u.cap)
    ((u.tx.read zeros s.op0).signExtend 32) (BitVec.ofNat 32 u.nx) :=
  .of_dbgRead rfl (dbgStage_of_some hm hu)

theorem mixSelection_column : DbgColumn s .mixSelection unit mixu (s.op0 < u.s)
    (BitVec.ofNat 32 (u.cxt.getD s.op0 0)) ((u.pr.getD s.op0 0).setWidth 32) :=
  .of_dbgRead rfl (dbgStage_of_some hm hu)

theorem mixCounters_column :
    DbgColumn s .mixCounters unit mixu (s.op0 < u.counterWords.length) (u.counterWords.getD s.op0 0) 0 :=
  .of_dbgRead rfl ((dbgStage_of_some hm hu).trans (dbgCounter_eq u s.op0))

end mixer

/-- The fields of class 9 for context `k`, in the order of their indices (20_memory.md R51). -/
def ContextMap.fieldWords (u : ContextMap) (k : CmContext) : List Word :=
  [k.cxt, BitVec.ofNat 32 k.cp0, pointerWord k.cp, BitVec.ofNat 32 k.runp, BitVec.ofNat 32 u.cn]

theorem dbgContext_of_some {u : ContextMap} {k : CmContext} {i j : Nat} (hk : u.ctxs[j]? = some k) :
    dbgContext u i j = dbgInRange (decide (i < (u.fieldWords k).length)) ((u.fieldWords k).getD i 0) 0 := by
  rw [dbgContext, hk]
  match i with
  | 0 | 1 | 2 | 3 | 4 => rfl
  | n + 5 => exact (dbgInRange_of_not _ _ (Nat.not_lt.2 (Nat.le_add_left 5 n))).symm

section contextMap

variable {u : ContextMap} (hu : s.cm[unit.toNat]? = some u)
include hu

theorem cmByte_column : DbgColumn s .cmByte unit 0 (s.op0 < 64 * u.e) ((byteAt u.tab s.op0).setWidth 32) 0 :=
  .of_dbgRead rfl (dbgUnit_of_some hu)

section context

variable {k : CmContext} (hk : u.ctxs[s.op1]? = some k)
include hk

theorem cmStateMap_column :
    DbgColumn s .cmStateMap unit 0 (s.op0 < 256) ((k.sm.entry s.cfg s.op0).setWidth 32) (k.sm.prev.setWidth 32) :=
  .of_dbgRead rfl (by simp only [dbgRead, dbgUnit_of_some hu, hk, dbgStateMap])

theorem cmContext_column :
    DbgColumn s .cmContext unit 0 (s.op0 < (u.fieldWords k).length) ((u.fieldWords k).getD s.op0 0) 0 :=
  .of_dbgRead rfl ((dbgUnit_of_some hu).trans (dbgContext_of_some hk))

end context

/-- A context that does not exist is an index out of range (20_memory.md R51). -/
theorem raises_context_of_length_le (h : u.ctxs.length ≤ s.op1) :
    Raises (.dbgRd .cmContext unit 0) s .argRange ∧ Raises (.dbgRd .cmStateMap unit 0) s .argRange := by
  have hNone : u.ctxs[s.op1]? = none := List.getElem?_eq_none h
  constructor
  · exact raises_dbgRd_of_error rfl (by simp only [dbgRead, dbgUnit_of_some hu, dbgContext, hNone])
  · exact raises_dbgRd_of_error rfl (by simp only [dbgRead, dbgUnit_of_some hu, hNone])

end contextMap

/-! ### The statements -/

/-- Settles O54: the columns of the classes without a mixer stage or a ContextMap, read in range. -/
theorem dbgReadsTablesAndPointers : Obligations.DbgReadsTablesAndPointers := by
  intro s unit
  simp only [BitVec.ofNat_toNat]
  refine ⟨?buf, ?rng, ?sm, ?apm, ?bh, ?rcm, ?sscm⟩
  case buf =>
    rintro rfl
    exact (buf_column s).reads
  case rng =>
    rintro rfl
    exact (rngWord_column s).reads
  case sm => exact fun u hu => (smEntry_column hu).reads
  case apm => exact fun u hu => (apmEntry_column hu).reads
  case bh => exact fun u hu => (bhByte_column hu).reads
  case rcm => exact fun u hu => ⟨(rcmByte_column hu).reads, (rcmPointer_column hu).reads⟩
  case sscm =>
    exact fun u hu => ⟨(sscmEntry_column hu).reads, fun hi => (sscmPointers_column hu).reads_field hi rfl,
      fun hi => (sscmPointers_column hu).reads_field hi rfl⟩

/-- Settles O55: the columns of the Mixers and ContextMaps, read in range. -/
theorem dbgReadsMixersAndContextMaps : Obligations.DbgReadsMixersAndContextMaps := by
  intro s unit
  simp only [BitVec.ofNat_toNat]
  refine ⟨fun m stage u hm hStage => ?mixer, fun u hu => (cmByte_column hu).reads, fun u k hu hk => ?context⟩
  case mixer =>
    have hu : m.stage stage = some u := Mixer.stage_eq_some hStage
    have hCounters := mixCounters_column hm hu
    refine ⟨(mixWeight_column hm hu).reads, fun r k hr hk hi => ?_, (mixInput_column hm hu).reads,
      (mixSelection_column hm hu).reads, fun hi => hCounters.reads_field hi rfl,
      fun hi => hCounters.reads_field hi rfl, fun hi => hCounters.reads_field hi rfl⟩
    have hRow : s.op0 < u.cap * u.m := by
      rw [Nat.mul_comm, State.op0, hi]
      exact slotByte_lt hr hk
    rw [Stage.weight, ← hi]
    exact (mixWeight_column hm hu).reads hRow
  case context =>
    have hFields := cmContext_column hu hk
    exact ⟨fun hi => hFields.reads_field hi rfl, fun hi => hFields.reads_field hi rfl,
      fun hi => hFields.reads_field hi rfl, fun hi => hFields.reads_field hi rfl,
      fun hi => hFields.reads_field hi rfl, (cmStateMap_column hu hk).reads⟩

/-- Settles O59: a missing unit, then a missing stage, then an index outside its column. -/
theorem dbgErrorsAreRefused : Obligations.DbgErrorsAreRefused := by
  intro s u x
  refine ⟨fun hUnit => ?noUnit, raises_dbgRd_badUnit rfl rfl, raises_dbgRd_badUnit rfl rfl,
    raises_dbgRd_badUnit rfl rfl, fun hLe c hc => ?cmUnit, fun hLe c hc => ?rcmUnit, fun hLe c hc => ?sscmUnit,
    fun c hc => ?stage, (buf_column s).refuses_of_le, (rngWord_column s).refuses_of_le,
    fun hUnit => (smEntry_column (List.getElem?_eq_getElem hUnit)).refuses_of_le,
    fun w hw => (apmEntry_column hw).refuses_of_le, fun w hw => (bhByte_column hw).refuses_of_le,
    fun w hw => ⟨(cmByte_column hw).refuses_of_le, ?context⟩,
    fun w hw => ⟨(rcmByte_column hw).refuses_of_le, (rcmPointer_column hw).refuses⟩,
    fun w hw => ⟨(sscmEntry_column hw).refuses_of_le, (sscmPointers_column hw).refuses_of_le⟩,
    fun m w hm hStage => ?mixer⟩
  case noUnit => exact ⟨raises_dbgRd_of_error rfl (if_neg hUnit), raises_dbgRd_of_error rfl (if_neg hUnit)⟩
  case cmUnit | rcmUnit | sscmUnit => fin_cases hc <;> exact raises_dbgRd_badUnit rfl rfl hLe
  case stage =>
    have hStaged : c.staged = true := by fin_cases hc <;> rfl
    have hWf : (Instr.dbgRd c u x).WellFormed := by simp [Instr.WellFormed, Instr.wellFormed, hStaged]
    obtain ⟨f, hRead⟩ := exists_dbgRead_eq_dbgStage s u x hStaged
    exact ⟨raises_dbgRd_badUnit hWf hRead, fun m hm hNone =>
      raises_dbgRd_of_error hWf (hRead.trans (dbgStage_of_none hm (Mixer.stage_eq_none hNone)))⟩
  case context =>
    rcases Nat.lt_or_ge s.op1 w.ctxs.length with hj | hj
    · have hk := List.getElem?_eq_getElem hj
      have hIndex {n : Nat} (h : n ≤ s.op0 ∨ w.ctxs.length ≤ s.op1) : n ≤ s.op0 :=
        h.resolve_right (Nat.not_le.2 hj)
      exact ⟨fun h => (cmContext_column hw hk).refuses_of_le (hIndex h),
        fun h => (cmStateMap_column hw hk).refuses_of_le (hIndex h)⟩
    · obtain ⟨hContext, hStateMap⟩ := raises_context_of_length_le hw hj
      exact ⟨fun _ => hContext, fun _ => hStateMap⟩
  case mixer =>
    have hw : m.stage x = some w := Mixer.stage_eq_some hStage
    exact ⟨(mixWeight_column hm hw).refuses_of_le, (mixInput_column hm hw).refuses_of_le,
      (mixSelection_column hm hw).refuses_of_le, (mixCounters_column hm hw).refuses_of_le⟩

end Sys2Proof.Machine
end

section
/-! PROOF. RNG_NEXT and the FSM commands (41_tables_fsm.md R66, R71, R72, R76 to R79): the row an operand selects, and
the update of a state as numbers. -/

namespace Sys2Proof.Machine

variable {s : State} {c : Config} {b : BitVec 1}

/-- Settles O33: a draw is described by `rngNext_spec`. -/
theorem rngNextAdvancesTheRing : Obligations.RngNextAdvancesTheRing := by
  intro s hWords
  obtain ⟨hLength, hIndex, hWord, hRing⟩ := rngNext_spec s.rng hWords
  exact ⟨(rngNext s.rng).1, (rngNext s.rng).2, rfl, rfl, hLength, hIndex, hWord, hRing⟩

/-! ### The operand and its row -/

/-- A live state fits in the byte the commands take from operand 0 (41_tables_fsm.md R76 to R78). -/
theorem operandByte_toNat (h : s.op0 ≤ 252) : (s.latch.a0.setWidth 8).toNat = s.op0 := by
  rw [BitVec.toNat_setWidth]
  exact Nat.mod_eq_of_lt (Nat.lt_of_le_of_lt h (by decide))

theorem stateRow_operandByte (h : s.op0 ≤ 252) :
    stateRow c (s.latch.a0.setWidth 8) = c.stateTable.getD s.op0 default := by
  rw [stateRow, operandByte_toNat h]

/-- The successor a bit selects, as a number (41_tables_fsm.md R66). -/
theorem StateRow.nex_toNat (r : StateRow) (b : BitVec 1) :
    (r.nex b).toNat = if b = 0 then r.nex0.toNat else r.nex1.toNat :=
  apply_ite BitVec.toNat _ _ _

theorem exec_fsmNext (b : BitVec 1) (h : s.op0 ≤ 252) :
    exec (.fsmNext b) s = .next (s.setRes0 (BitVec.ofNat 32 (nex s.cfg (s.latch.a0.setWidth 8) b).toNat)) := by
  rw [BitVec.ofNat_toNat]
  exact if_neg (Nat.not_lt.2 h)

theorem exec_fsmCounts (h : s.op0 ≤ 252) :
    exec .fsmCounts s = .next (s.setRes (BitVec.ofNat 32 (n0 s.cfg (s.latch.a0.setWidth 8)).toNat)
      (BitVec.ofNat 32 (n1 s.cfg (s.latch.a0.setWidth 8)).toNat)) := by
  rw [BitVec.ofNat_toNat, BitVec.ofNat_toNat]
  exact if_neg (Nat.not_lt.2 h)

theorem exec_fsmNextp {g : Generator} {v : Byte} (h : s.op0 ≤ 252)
    (hStep : fsmStep s.cfg s.rng (s.latch.a0.setWidth 8) b = (g, v)) :
    exec (.fsmNextp b) s = .next ((s.setRng g).setRes0 (BitVec.ofNat 32 v.toNat)) := by
  rw [BitVec.ofNat_toNat]
  refine (if_neg (Nat.not_lt.2 h)).trans ?_
  rw [hStep]

/-- Settles O30: the row that FSM_NEXT and FSM_COUNTS read is the operand's. -/
theorem fsmCommandsReadTheRow : Obligations.FsmCommandsReadTheRow := by
  intro s h r
  have hRow : stateRow s.cfg (s.latch.a0.setWidth 8) = r := stateRow_operandByte h
  refine ⟨(exec_fsmNext 0 h).trans ?_, (exec_fsmNext 1 h).trans ?_, (exec_fsmCounts h).trans ?_⟩
  · rw [nex, hRow]; rfl
  · rw [nex, hRow]; rfl
  · rw [n0, n1, hRow]; rfl

/-! ### Live states -/

/-- Both successors of a live state are live and not 0 (41_tables_fsm.md R66 item 3). -/
theorem nex_live (hTable : StateTableOk c.stateTable) {x : Byte} (hx : x.toNat ≤ 252) (b : BitVec 1) :
    1 ≤ (nex c x b).toNat ∧ (nex c x b).toNat ≤ 252 := by
  obtain ⟨hPos0, hLe0, hPos1, hLe1⟩ := of_decide_eq_true (hTable.live x.toNat hx)
  have one_le {v : Byte} (h : v ≠ 0) : 1 ≤ v.toNat := Nat.pos_of_ne_zero fun h0 => h (BitVec.eq_of_toNat_eq h0)
  rw [nex, stateRow, StateRow.nex_toNat]
  split
  · exact ⟨one_le hPos0, hLe0⟩
  · exact ⟨one_le hPos1, hLe1⟩

/-- The decrement of R72 leaves a live state live: it happens at 204 and above only. -/
theorem fsmStep_live (hTable : StateTableOk c.stateTable) {x : Byte} (hx : x.toNat ≤ 252) (g : Generator)
    (b : BitVec 1) : 1 ≤ (fsmStep c g x b).2.toNat ∧ (fsmStep c g x b).2.toNat ≤ 252 := by
  have hLive := nex_live hTable hx b
  rcases fsmStep_cases c g x b with ⟨-, e⟩ | ⟨hBig, -, e⟩ | ⟨-, -, e⟩ <;> rw [e]
  · exact hLive
  · have hSub : (nex c x b - 4).toNat = (nex c x b).toNat - 4 := by bv_omega
    rw [hSub]
    omega
  · exact hLive

/-- Settles O31: RES0 is the successor or the updated state, both of them live. -/
theorem liveStatesStayLive : Obligations.LiveStatesStayLive := by
  intro s t b hTable h hExec
  have hx : (s.latch.a0.setWidth 8).toNat ≤ 252 := (operandByte_toNat h).trans_le h
  have hWord (v : Byte) : (BitVec.ofNat 32 v.toNat).toNat = v.toNat :=
    (BitVec.toNat_ofNat _ _).trans (Nat.mod_eq_of_lt (by omega))
  rcases hExec with hNext | hNextp
  · obtain rfl := Host.Outcome.next.inj ((exec_fsmNext b h).symm.trans hNext)
    rw [State.setRes0, hWord]
    exact nex_live hTable hx b
  · obtain rfl := Host.Outcome.next.inj ((exec_fsmNextp h rfl).symm.trans hNextp)
    rw [State.setRes0, hWord]
    exact fsmStep_live hTable hx s.rng b

/-! ### The probabilistic update -/

/-- The update of a state whose successor is the number `ns` (41_tables_fsm.md R72). -/
theorem fsmStep_eq_ite {g : Generator} {x : Byte} {ns : Nat} (hns : (nex c x b).toNat = ns) :
    fsmStep c g x b =
      if ns < 204 then (g, BitVec.ofNat 8 ns)
      else if (rngNext g).2.toNat * 2 ^ ((452 - ns) / 8) % 2 ^ 32 = 0 then ((rngNext g).1, BitVec.ofNat 8 ns)
      else ((rngNext g).1, BitVec.ofNat 8 (ns - 4)) := by
  subst hns
  rcases fsmStep_cases c g x b with ⟨hSmall, e⟩ | ⟨hBig, hDraw, e⟩ | ⟨hBig, hDraw, e⟩
  · rw [e, if_pos hSmall, BitVec.ofNat_toNat, BitVec.setWidth_eq]
  · rw [ne_eq, shiftLeft_eq_zero_iff] at hDraw
    rw [e, if_neg (Nat.not_lt.2 hBig), if_neg hDraw]
    congr 1
    bv_omega
  · rw [shiftLeft_eq_zero_iff] at hDraw
    rw [e, if_neg (Nat.not_lt.2 hBig), if_pos hDraw, BitVec.ofNat_toNat, BitVec.setWidth_eq]

/-- Settles O32: the three cases of the update (`fsmStep_eq_ite`), for any cell and then for the operand of FSM_NEXTP. -/
theorem fsmNextpDrawsAndDecrements : Obligations.FsmNextpDrawsAndDecrements := by
  refine ⟨fun c g x b => fsmStep_eq_ite (StateRow.nex_toNat _ _), ?command⟩
  case command =>
    intro s b h r ns d
    have hns : (nex s.cfg (s.latch.a0.setWidth 8) b).toNat = ns := by
      rw [nex, stateRow_operandByte h]
      exact StateRow.nex_toNat r b
    have hStep := fsmStep_eq_ite (g := s.rng) hns
    have hByte {v : Nat} (hv : v ≤ ns) : (BitVec.ofNat 8 v).toNat = v :=
      (BitVec.toNat_ofNat _ _).trans (Nat.mod_eq_of_lt (by omega))
    refine ⟨fun hSmall => ?_, fun hBig hDraw => ?_, fun hBig hDraw => ?_⟩
    · rw [if_pos hSmall] at hStep
      rw [exec_fsmNextp h hStep, hByte le_rfl]
      rfl
    · rw [if_neg (Nat.not_lt.2 hBig), if_neg hDraw] at hStep
      rw [exec_fsmNextp h hStep, hByte (Nat.sub_le _ _)]
      rfl
    · rw [if_neg (Nat.not_lt.2 hBig), if_pos hDraw] at hStep
      rw [exec_fsmNextp h hStep, hByte le_rfl]
      rfl

end Sys2Proof.Machine
end

section
/-! PROOF. SQUASH, STRETCH and ILOG (41_tables_fsm.md R67 to R69, R73 to R75): `stretch` is the lower adjoint of
`squash`, and twice a 32nd power is no power of 4. -/

namespace Sys2Proof.Machine

variable {s : State} {c : Config}

theorem exec_squash (s : State) :
    exec .squash s = .next (s.setRes0 (BitVec.ofNat 32 (squash s.cfg s.op0s).toNat)) := by
  rw [BitVec.ofNat_toNat]
  rfl

theorem exec_stretch (h : s.op0 ≤ 4095) :
    exec .stretch s = .next (s.setRes0 (BitVec.ofInt 32 (stretch s.cfg (s.latch.a0.setWidth 12)))) :=
  if_neg (Nat.not_lt.2 h)

theorem exec_ilog (h : s.op0 ≤ 65535) : exec .ilog s = .next (s.setRes0 (BitVec.ofNat 32 (ilog s.op0))) :=
  if_neg (Nat.not_lt.2 h)

/-! ### SQUASH and STRETCH -/

theorem squash_above {d : Int} (h : 2047 < d) : squash c d = 4095 := if_pos h

theorem squash_below {d : Int} (h : d < -2047) : squash c d = 0 := by
  rw [squash, if_neg (by omega), if_pos h]

/-- Settles O26: the three ranges of the argument of `squash`. -/
theorem squashSaturatesOrReads : Obligations.SquashSaturatesOrReads := by
  intro s
  refine ⟨squash s.cfg s.op0s, exec_squash s, squash_above, squash_below, fun k hk hLe => ?_⟩
  have hArg : s.op0s = (k : Int) - 2047 := eq_sub_of_add_eq hk.symm
  rw [hArg, squash_inside _ _ (by omega) (by omega), Int.sub_add_cancel, Int.toNat_natCast]

/-- `squash` is non-decreasing inside an admissible table (41_tables_fsm.md R67). -/
theorem squash_le_squash (h : SquashOk c.squash) {d e : Int} (hd : -2047 ≤ d) (hde : d ≤ e) (he : e ≤ 2047) :
    squash c d ≤ squash c e := by
  rw [squash_inside c d hd (by omega), squash_inside c e (by omega) he]
  exact h.monotone _ _ (by omega) (by omega)

/-- `stretch` and `squash` form a Galois connection between the probabilities and the arguments in range; the rest of
41_tables_fsm.md R68 follows from it. -/
theorem stretch_le_iff (h : SquashOk c.squash) {p : BitVec 12} {d : Int} (hd : -2047 ≤ d) (hd' : d ≤ 2047) :
    stretch c p ≤ d ↔ p ≤ squash c d := by
  obtain ⟨k, hk, hk', hReach, hBefore⟩ := stretch_spec h p
  constructor
  · intro hLe
    have hAt : squash c (stretch c p) = c.squash.getD k 0 := by
      rw [hk, squash_inside _ _ (by omega) (by omega), Int.sub_add_cancel, Int.toNat_natCast]
    exact BitVec.le_trans (hAt ▸ hReach) (squash_le_squash h (by omega) hLe hd')
  · intro hp
    by_contra hLt
    have hEarly := hBefore (d + 2047).toNat (by omega)
    rw [← squash_inside c d hd hd'] at hEarly
    exact BitVec.not_lt.2 hp hEarly

theorem le_squash_stretch (h : SquashOk c.squash) (p : BitVec 12) : p ≤ squash c (stretch c p) :=
  have ⟨hLow, hHigh⟩ := stretch_range c p
  (stretch_le_iff h hLow hHigh).1 le_rfl

/-- Settles O28, from the Galois connection. -/
theorem stretchIsAnInverseOfSquash : Obligations.StretchIsAnInverseOfSquash := by
  intro c h
  refine ⟨fun p => ⟨(stretch_range c p).1, (stretch_range c p).2, le_squash_stretch h p⟩, fun p q hpq => ?mono,
    fun d hd hd' => ?round⟩
  case mono =>
    obtain ⟨hLow, hHigh⟩ := stretch_range c q
    exact (stretch_le_iff h hLow hHigh).2 (BitVec.le_trans hpq (le_squash_stretch h q))
  case round =>
    have hLe : stretch c (squash c d) ≤ d := (stretch_le_iff h hd hd').2 (BitVec.le_refl _)
    refine ⟨hLe, fun hAbove => ?_⟩
    calc stretch c (squash c d) = d
        ↔ ¬stretch c (squash c d) ≤ d - 1 := by omega
      _ ↔ ¬squash c d ≤ squash c (d - 1) := not_congr (stretch_le_iff h (by omega) (by omega))
      _ ↔ squash c (d - 1) < squash c d := BitVec.not_le

/-- `stretch(0) = -2047` (41_tables_fsm.md R68). -/
theorem stretch_zero (h : SquashOk c.squash) : stretch c 0 = -2047 :=
  le_antisymm ((stretch_le_iff h le_rfl (by decide)).2 (BitVec.not_lt.1 BitVec.not_lt_zero)) (stretch_range c 0).1

/-- `stretch(4095) = 2047`: only the last entry is 4095 (41_tables_fsm.md R67, R68). -/
theorem stretch_4095 (h : SquashOk c.squash) : stretch c 4095 = 2047 := by
  have hNot : ¬stretch c 4095 ≤ 2046 := by
    rw [stretch_le_iff h (by decide) (by decide), squash_inside c 2046 (by decide) (by decide)]
    exact BitVec.not_le.2 h.below_top
  have hRange := stretch_range c 4095
  omega

/-- Settles O27: the entry `stretch_spec` finds, as a number, and its value for the three operands. -/
theorem stretchFindsTheLeastEntry : Obligations.StretchFindsTheLeastEntry := by
  intro s h hOp
  obtain ⟨k, hk, hLe, hReach, hBefore⟩ := stretch_spec h (s.latch.a0.setWidth 12)
  have hNum : (s.latch.a0.setWidth 12).toNat = s.latch.a0.toNat := by
    rw [BitVec.toNat_setWidth]
    exact Nat.mod_eq_of_lt (Nat.lt_succ_of_le hOp)
  have hIndex {p : BitVec 12} {j : Nat} (hj : stretch s.cfg p = (j : Int) - 2047) (hp : s.latch.a0.setWidth 12 = p) :
      k = j := by
    rw [hp, hj] at hk
    omega
  refine ⟨k, ?_, hLe, hNum ▸ BitVec.le_def.1 hReach, fun j hj => hNum ▸ BitVec.lt_def.1 (hBefore j hj),
    fun ha => hIndex (stretch_zero h) ?_, fun ha => hIndex (stretch_2048 h) ?_, fun ha => hIndex (stretch_4095 h) ?_⟩
  · rw [exec_stretch hOp, hk]
    rfl
  all_goals rw [ha]; rfl

/-! ### ILOG -/

/-- Twice a 32nd power is no power of 4: `16 * log2(x)` is never half-way between two integers
(41_tables_fsm.md R69). -/
theorem two_mul_pow_ne_two_pow (x k : Nat) : 2 * x ^ 32 ≠ 2 ^ (2 * k) := by
  intro hEq
  have hDvd : x ∣ 2 ^ (2 * k) := hEq ▸ (dvd_pow_self x (by decide)).mul_left 2
  obtain ⟨j, -, rfl⟩ := (Nat.dvd_prime_pow Nat.prime_two).1 hDvd
  rw [← pow_mul, ← pow_succ'] at hEq
  have hExp := Nat.pow_right_injective le_rfl hEq
  omega

/-- `ilog(x)` is the integer nearest to `16 * log2(x)` (41_tables_fsm.md R69). -/
theorem ilog_nearest {x : Nat} (hx : 0 < x) : 2 ^ (2 * ilog x) < 2 * x ^ 32 ∧ x ^ 32 < 2 ^ (2 * ilog x + 1) := by
  have hNe : x ^ 32 ≠ 0 := (Nat.pow_pos hx).ne'
  have hCeil : 2 * ilog x ≤ Nat.log2 (x ^ 32) + 1 := by unfold ilog; omega
  have hFloor : Nat.log2 (x ^ 32) ≤ 2 * ilog x := by unfold ilog; omega
  constructor
  · refine lt_of_le_of_ne ?_ (two_mul_pow_ne_two_pow x _).symm
    calc 2 ^ (2 * ilog x) ≤ 2 ^ (Nat.log2 (x ^ 32) + 1) := Nat.pow_le_pow_right (by decide) hCeil
      _ = 2 * 2 ^ Nat.log2 (x ^ 32) := pow_succ' _ _
      _ ≤ 2 * x ^ 32 := Nat.mul_le_mul_left 2 (Nat.log2_self_le hNe)
  · calc x ^ 32 < 2 ^ (Nat.log2 (x ^ 32) + 1) := Nat.lt_log2_self
      _ ≤ 2 ^ (2 * ilog x + 1) := Nat.pow_le_pow_right (by decide) (Nat.succ_le_succ hFloor)

theorem ilog_zero : ilog 0 = 0 := by decide

theorem ilog_65535 : ilog 65535 = 256 := by decide +kernel

/-- Settles O29: `ilog` is the nearest integer, and its values at the two ends. -/
theorem ilogRoundsTheLogarithm : Obligations.IlogRoundsTheLogarithm := fun s h =>
  ⟨ilog s.op0, exec_ilog h, ilog_le _ (Nat.le_succ_of_le h), fun h0 => (congrArg ilog h0).trans ilog_zero,
    fun hTop => (congrArg ilog hTop).trans ilog_65535, ilog_nearest⟩

end Sys2Proof.Machine
end

section
/-! PROOF. SM_P and APM_P (42_statemap_apm.md R81, R82, R84, R85): the trained entries, the anchor and the
interpolation as integers, and the update of a state as numbers. -/

namespace Sys2Proof.Machine

variable {s : State} {unit rate : BitVec 8}

/-! ### SM_P -/

/-- A training step changes the entry of the previous call only, and does not wrap (42_statemap_apm.md R81). -/
theorem smP_entry_toNat (c : Config) (y : BitVec 1) (u : StateMap) (cx : Byte) (a : Nat) :
    (((smP c y u cx).1.entry c a).toNat : Int) =
      if a = u.prev.toNat then
        ((u.entry c a).toNat : Int) + ((y.toNat : Int) * 65536 - (u.entry c a).toNat + 128) / 256
      else ((u.entry c a).toNat : Int) := by
  obtain ⟨-, hEntry, -⟩ := smP_spec c y u cx
  rw [hEntry a]
  split
  next hPrev => rw [hPrev, smTrain_toNat]
  next => rfl

theorem exec_smP {u : StateMap} (hu : s.sm[unit.toNat]? = some u) (h : s.op0 ≤ 255) :
    exec (.smP unit) s =
      .next ((s.setSm unit.toNat (smP s.cfg s.g.y u (s.latch.a0.setWidth 8)).1).setRes0
        (BitVec.ofNat 32 (smP s.cfg s.g.y u (s.latch.a0.setWidth 8)).2.toNat)) := by
  rw [BitVec.ofNat_toNat]
  show execSmP unit s = _
  simp only [execSmP, hu]
  exact if_neg (Nat.not_lt.2 h)

/-- Settles O34: the call that SM_P makes is described by `smP_spec`, its training step by `smP_entry_toNat`. -/
theorem smPTrainsThenReads : Obligations.SmPTrainsThenReads := by
  intro s unit u hu h
  have hOperand : (s.latch.a0.setWidth 8).toNat = s.latch.a0.toNat :=
    (BitVec.toNat_setWidth ..).trans (Nat.mod_eq_of_lt (Nat.lt_succ_of_le h))
  obtain ⟨hPrev, -, hRead⟩ := smP_spec s.cfg s.g.y u (s.latch.a0.setWidth 8)
  refine ⟨_, _, exec_smP hu h, ?_, smP_entry_toNat s.cfg s.g.y u _, ?_⟩
  · rw [hPrev, hOperand]
  · rw [hRead, hOperand]

/-! ### APM_P -/

/-- A training step changes the two entries of the previous anchor only, and does not wrap (42_statemap_apm.md R84). -/
theorem apmP_entry_toNat (c : Config) (y : BitVec 1) (u : Apm) (p : BitVec 12) (cx rate a : Nat) :
    (((apmP c y u p cx rate).1.entry c a).toNat : Int) =
      if a = u.index ∨ a = u.index + 1 then
        ((u.entry c a).toNat : Int) +
          ((y.toNat : Int) * 65536 + y.toNat * 2 ^ rate - 2 * y.toNat - (u.entry c a).toNat) / 2 ^ rate
      else ((u.entry c a).toNat : Int) := by
  obtain ⟨-, -, hEntry, -⟩ := apmP_spec c y u p cx rate
  rw [hEntry a]
  split
  next => exact apmTrain_toNat y rate _
  next => rfl

/-- The anchor as an integer: `stretch` is at least -2048, so the column is not cut at 0 (42_statemap_apm.md R84). -/
theorem apmAnchor_stretch_cast (c : Config) (p : BitVec 12) (cx : Nat) :
    (apmAnchor (stretch c p) cx : Int) = (stretch c p + 2048) / 128 + cx * 33 := by
  obtain ⟨j, -, hAnchor, hColumn⟩ := apmAnchor_spec c p cx
  omega

/-- The two interpolation weights as integers (42_statemap_apm.md R84). -/
theorem apmWeight_cast (d : Int) :
    (apmWeight d : Int) = d % 128 ∧ ((128 - apmWeight d : Nat) : Int) = 128 - d % 128 := by
  unfold apmWeight
  omega

/-- The probability an APM call returns, as an integer (42_statemap_apm.md R84). -/
theorem apmP_result_cast (c : Config) (y : BitVec 1) (u : Apm) (p : BitVec 12) (cx rate : Nat) :
    ((apmP c y u p cx rate).2.toNat : Int) =
      (((apmP c y u p cx rate).1.entry c (apmP c y u p cx rate).1.index).toNat * (128 - stretch c p % 128) +
        ((apmP c y u p cx rate).1.entry c ((apmP c y u p cx rate).1.index + 1)).toNat * (stretch c p % 128)) / 2048 := by
  obtain ⟨-, hIndex, -, hResult⟩ := apmP_spec c y u p cx rate
  obtain ⟨hRight, hLeft⟩ := apmWeight_cast (stretch c p)
  rw [hResult, hIndex, ← hLeft, ← hRight]
  push_cast
  rfl

theorem exec_apmP {u : Apm} (hu : s.apm[unit.toNat]? = some u) (hRate : 1 ≤ rate.toNat) (hRate' : rate.toNat ≤ 15)
    (hProb : s.op0 ≤ 4095) (hRow : s.op1 < u.rows) :
    exec (.apmP unit rate) s =
      .next ((s.setApm unit.toNat (apmP s.cfg s.g.y u (BitVec.ofNat 12 s.op0) s.op1 rate.toNat).1).setRes0
        (BitVec.ofNat 32 (apmP s.cfg s.g.y u (BitVec.ofNat 12 s.op0) s.op1 rate.toNat).2.toNat)) := by
  rw [BitVec.ofNat_toNat, State.op0, BitVec.ofNat_toNat]
  show execApmP unit rate s = _
  simp only [execApmP, hu]
  exact if_neg (by omega)

/-- Settles O35: the call that APM_P makes, its training steps, its anchor and its result as integers. -/
theorem apmPTrainsThenInterpolates : Obligations.ApmPTrainsThenInterpolates := by
  intro s unit rate u hu hRate hRate' hProb hRow
  obtain ⟨hRows, hIndex, -, -⟩ := apmP_spec s.cfg s.g.y u (BitVec.ofNat 12 s.op0) s.op1 rate.toNat
  refine ⟨_, _, exec_apmP hu hRate hRate' hProb hRow, hRows, apmP_entry_toNat s.cfg s.g.y u _ _ _, ?_,
    apmP_result_cast s.cfg s.g.y u _ _ _⟩
  rw [hIndex]
  exact apmAnchor_stretch_cast s.cfg _ _

end Sys2Proof.Machine
end

section
/-! PROOF. MIX_UPDATE, MIX_ADD, MIX_SET and MIX_P (43_mixer.md R86 to R95): the training step and the dot product as
integers, the one-stage prediction, the child that the first stage's predictions are fed to, and weights of zero. -/

namespace Sys2Proof.Machine

variable {s : State} {unit : BitVec 8} {m : Mixer} {c : Config} {y : BitVec 1} {u child : Stage}

/-! ### The commands on an existing unit -/

theorem exec_mixUpdate (hm : s.mix[unit.toNat]? = some m) :
    exec (.mixUpdate unit) s = .next (s.setMix unit.toNat (m.setOwn (m.own.train s.g.y))) := by
  show execMixUpdate unit s = _
  simp only [execMixUpdate, hm]

theorem exec_mixAdd (hm : s.mix[unit.toNat]? = some m) (hLow : -32768 ≤ s.op0s) (hHigh : s.op0s ≤ 32767)
    (hRoom : m.own.nx < m.own.cap) :
    exec (.mixAdd unit) s = .next (s.setMix unit.toNat (m.setOwn (m.own.add s.op0s))) := by
  show execMixAdd unit s = _
  simp only [execMixAdd, hm]
  rw [if_neg (by omega), if_neg (Nat.not_le.2 hRoom)]

theorem exec_mixSet (hm : s.mix[unit.toNat]? = some m) (hRoom : m.own.ncxt < m.own.s) (hCx : s.op0 < s.op1)
    (hRange : m.own.base + s.op1 ≤ m.own.m) :
    exec (.mixSet unit) s = .next (s.setMix unit.toNat (m.setOwn (m.own.select s.op0 s.op1))) := by
  show execMixSet unit s = _
  simp only [execMixSet, hm]
  rw [if_neg (Nat.not_le.2 hRoom), if_neg (by omega)]

theorem exec_mixP (hm : s.mix[unit.toNat]? = some m) :
    exec (.mixP unit) s = .next ((s.setMix unit.toNat (m.predict s.cfg s.g.y).1).setRes0
      (BitVec.ofNat 32 (m.predict s.cfg s.g.y).2.toNat)) := by
  rw [BitVec.ofNat_toNat]
  show execMixP unit s = _
  simp only [execMixP, hm]

/-! ### MIX_UPDATE, MIX_ADD and MIX_SET -/

/-- One training step of a weight, the error written out (43_mixer.md R88). -/
theorem weightStep_trainErr (w x : Int) (y : BitVec 1) (p : BitVec 12) :
    weightStep w x (trainErr y p) =
      min 32767 (max (-32768) (w + (x * (((y.toNat : Int) * 4096 - p.toNat) * 7) / 16384 + 1) / 2)) := by
  simp only [weightStep, clamp16, trainErr, bitVal, shr_eq]
  norm_num

/-- Settles O36: the training that MIX_UPDATE makes is described by `Stage.train_spec`. -/
theorem mixUpdateTrainsTheSelectedRows : Obligations.MixUpdateTrainsTheSelectedRows := by
  intro s unit m hm hRoom
  obtain ⟨hTrain, hWeight⟩ := Stage.train_spec s.g.y m.own hRoom
  refine ⟨_, exec_mixUpdate hm, hTrain, m.own.pad_spec.2, fun r k hk => ?_⟩
  rw [hWeight r k hk]
  simp only [weightStep_trainErr]
  rfl

/-- Settles O37: an operand in range is stored as it is, and a selected row lies in the matrix. -/
theorem mixAddAndMixSet : Obligations.MixAddAndMixSet := by
  intro s unit m hm
  refine ⟨fun hLow hHigh hRoom => ?_, exec_mixSet hm⟩
  obtain ⟨hAdd, hInput⟩ := m.own.add_spec s.op0s
  refine ⟨_, exec_mixAdd hm hLow hHigh hRoom, hAdd, fun k => ?_⟩
  rw [hInput, State.op0s, toInt_ofInt16 _ hLow hHigh]

/-! ### MIX_P with one stage -/

/-- The dot product that follows the padding (43_mixer.md R86, R87). -/
theorem Stage.pad_dot (u : Stage) (r : Nat) :
    u.pad.dot r = pairwiseDot u.pad.input (u.weight r) ((u.nx + 7) / 8 * 8) := by
  rw [Stage.dot_eq_pairwiseDot, u.pad_nx, funext (u.pad_weight r)]

/-- The prediction of a stage with `S = 1` (43_mixer.md R91). -/
theorem Stage.predict_spec (c : Config) (u : Stage) :
    (u.predict c).1 = { u with
      tx := (u.predict c).1.tx, nx := (u.nx + 7) / 8 * 8, pr := u.pr.set 0 (u.predict c).2 } ∧
    (∀ k, (u.predict c).1.input k = if u.nx ≤ k ∧ k < (u.nx + 7) / 8 * 8 then 0 else u.input k) ∧
    (u.predict c).2 =
      squash c (pairwiseDot (u.predict c).1.input (u.weight (u.row 0)) ((u.nx + 7) / 8 * 8) / 256) := by
  obtain ⟨hPad, hInput⟩ := u.pad_spec
  refine ⟨?_, hInput, ?_⟩
  · show { u.pad with pr := u.pad.pr.set 0 (u.predict c).2 } = _
    rw [hPad]
    rfl
  · show squash c (shr (u.pad.dot (u.pad.row 0)) 8) = _
    rw [shr_eq, Stage.row, u.pad_cxt, u.pad_dot]
    rfl

/-- A prediction changes no weight (43_mixer.md R91). -/
theorem Stage.predict_weight (c : Config) (u : Stage) (r : Nat) : (u.predict c).1.weight r = u.weight r :=
  funext (u.pad_weight r)

theorem Mixer.predict_of_child_eq_none (h : m.child = none) :
    m.predict c y = ({ m with own := (m.own.predict c).1 }, (m.own.predict c).2) := by
  obtain ⟨own, _⟩ := m
  subst h
  rfl

/-- Settles O38: a unit without a child is predicted by its own stage. -/
theorem mixPOfOneSelection : Obligations.MixPOfOneSelection := by
  intro s unit m hm hChild
  obtain ⟨hStage, hInput, hResult⟩ := m.own.predict_spec s.cfg
  have hExec := exec_mixP hm
  rw [Mixer.predict_of_child_eq_none hChild] at hExec
  exact ⟨_, _, hExec, hStage, hInput, hResult⟩

/-! ### MIX_P with two stages -/

/-- The first stage's predictions, and the child after its training with their stretched values as its inputs
(43_mixer.md R91, up to the selection of the child's row). -/
def Stage.feedChild (c : Config) (y : BitVec 1) (u child : Stage) : List (BitVec 12) × Stage :=
  u.pad.firstStage c (child.train y) u.ncxt

/-- With a child, the prediction is the child's, made from row 0 after it was fed (43_mixer.md R91). -/
theorem Mixer.predict_of_child_eq_some (h : m.child = some child) :
    m.predict c y =
      ({ own := { m.own.pad with pr := (m.own.feedChild c y child).1 },
         child := some (((m.own.feedChild c y child).2.select 0 1).predict c).1 },
       (((m.own.feedChild c y child).2.select 0 1).predict c).2) := by
  simp only [Mixer.predict, h, m.own.pad_ncxt, Stage.feedChild]

/-- The first stage's predictions (43_mixer.md R91). -/
theorem Stage.feedChild_pr (hRows : u.ncxt ≤ u.pr.length) :
    (u.feedChild c y child).1.length = u.pr.length ∧
    ∀ i, (u.feedChild c y child).1.getD i 0 =
      if i < u.ncxt then squash c (u.pad.dot (u.row i) / 32) else u.pr.getD i 0 := by
  obtain ⟨hLength, hPr, -⟩ :=
    Stage.firstStage_spec c u.pad (child.train y) u.ncxt (u.pad_pr.symm ▸ hRows) rfl
  have hRow (i : Nat) : u.pad.row i = u.row i := by simp only [Stage.row, u.pad_cxt]
  simp only [u.pad_pr, hRow] at hLength hPr
  exact ⟨hLength, hPr⟩

/-- The child that was trained and fed: its counters start again, and its inputs are the stretched predictions, above
them what the training left (43_mixer.md R88, R91). -/
theorem Stage.feedChild_child (hRows : u.ncxt ≤ u.pr.length) (hRoom : child.nx ≤ child.cap) :
    (u.feedChild c y child).2 = { child with
      tx := (u.feedChild c y child).2.tx, wx := (child.train y).wx, nx := u.ncxt, base := 0, ncxt := 0 } ∧
    ∀ k, (u.feedChild c y child).2.input k =
      if k < u.ncxt then stretch c ((u.feedChild c y child).1.getD k 0)
      else if child.nx ≤ k ∧ k < (child.nx + 7) / 8 * 8 then 0
      else child.input k := by
  obtain ⟨-, hPr, hChild, hFed, hRest⟩ :=
    Stage.firstStage_spec c u.pad (child.train y) u.ncxt (u.pad_pr.symm ▸ hRows) rfl
  obtain ⟨hTrain, -⟩ := Stage.train_spec y child hRoom
  have hTrained (tx : Memory 16) (n : Nat) : { child.train y with tx := tx, nx := n } =
      { child with tx := tx, wx := (child.train y).wx, nx := n, base := 0, ncxt := 0 } := by rw [hTrain]
  refine ⟨hChild.trans (hTrained _ _), fun k => ?_⟩
  unfold Stage.feedChild
  split
  next hk => rw [hFed k hk, hPr k, if_pos hk]
  next hk => exact (hRest k (Nat.not_lt.1 hk)).trans (child.pad_spec.2 k)

/-- The fed child with its one row selected (43_mixer.md R90, R91). -/
theorem Stage.feedChild_select (hRows : u.ncxt ≤ u.pr.length) (hOk : child.Ok) (hOne : child.s = 1) :
    (u.feedChild c y child).2.select 0 1 = { child with
      tx := (u.feedChild c y child).2.tx, wx := (child.train y).wx, nx := u.ncxt, ncxt := 1, base := 1, cxt := [0] } := by
  obtain ⟨row, hCxt⟩ := List.length_eq_one_iff.1 (hOk.cxtLength.trans hOne)
  unfold Stage.select
  rw [(Stage.feedChild_child hRows hOk.nx).1, hCxt]
  rfl

/-- The child's own prediction after it was fed: it selects row 0, and zeros follow the new inputs up to the padding
(43_mixer.md R90, R91). -/
theorem Stage.feedChild_predict (hRows : u.ncxt ≤ u.pr.length) (hOk : child.Ok) (hOne : child.s = 1) :
    let fed := u.feedChild c y child
    let q := (fed.2.select 0 1).predict c
    q.1 = { child with
      tx := q.1.tx, wx := (child.train y).wx, nx := (u.ncxt + 7) / 8 * 8, ncxt := 1, base := 1, cxt := [0]
      pr := [q.2] } ∧
    (∀ k, q.1.input k =
      if k < u.ncxt then stretch c (fed.1.getD k 0)
      else if k < (u.ncxt + 7) / 8 * 8 ∨ (child.nx ≤ k ∧ k < (child.nx + 7) / 8 * 8) then 0
      else child.input k) ∧
    q.2 = squash c (pairwiseDot q.1.input (q.1.weight 0) ((u.ncxt + 7) / 8 * 8) / 256) := by
  intro fed q
  obtain ⟨old, hPr⟩ := List.length_eq_one_iff.1 (hOk.prLength.trans hOne)
  have hFedInput : ∀ k, fed.2.input k = _ := (Stage.feedChild_child hRows hOk.nx).2
  have hSelect : fed.2.select 0 1 = _ := Stage.feedChild_select hRows hOk hOne
  have hNx : (fed.2.select 0 1).nx = u.ncxt := by rw [hSelect]
  have hRow : (fed.2.select 0 1).row 0 = 0 := by rw [hSelect]; rfl
  obtain ⟨hStage, hInput, hResult⟩ := (fed.2.select 0 1).predict_spec c
  rw [hNx] at hStage hInput hResult
  have hKept (tx : Memory 16) (n : Nat) (p : BitVec 12) :
      { fed.2.select 0 1 with tx := tx, nx := n, pr := (fed.2.select 0 1).pr.set 0 p } = { child with
        tx := tx, wx := (child.train y).wx, nx := n, ncxt := 1, base := 1, cxt := [0], pr := [p] } := by
    rw [hSelect, hPr]
    rfl
  refine ⟨hStage.trans (hKept _ _ _), fun k => ?_, ?_⟩
  · refine (hInput k).trans ?_
    rw [show (fed.2.select 0 1).input k = fed.2.input k from rfl, hFedInput k]
    by_cases hNew : k < u.ncxt
    · rw [if_neg (by omega), if_pos hNew, if_pos hNew]
    · by_cases hZero : k < (u.ncxt + 7) / 8 * 8
      · rw [if_pos ⟨by omega, hZero⟩, if_neg hNew, if_pos (.inl hZero)]
      · simp only [hNew, hZero, and_false, false_or, if_false]
  · rw [hRow] at hResult
    rw [Stage.predict_weight]
    exact hResult

/-- Settles O39: the first stage's predictions are those `feedChild` makes, the result is the fed child's own. -/
theorem mixPOfTwoStages : Obligations.MixPOfTwoStages := by
  intro s unit m child hm hOk hChild
  obtain ⟨hChildOk, -, -, hOne, -⟩ := hOk.child child hChild
  have hRows : m.own.ncxt ≤ m.own.pr.length := hOk.own.prLength.symm ▸ hOk.own.ncxt
  obtain ⟨hPad, hInput⟩ := m.own.pad_spec
  obtain ⟨hLength, hFirst⟩ := Stage.feedChild_pr (c := s.cfg) (y := s.g.y) (child := child) hRows
  obtain ⟨hSecond, hFed, hResult⟩ := Stage.feedChild_predict (c := s.cfg) (y := s.g.y) hRows hChildOk hOne
  have hExec := exec_mixP hm
  rw [Mixer.predict_of_child_eq_some hChild] at hExec
  refine ⟨_, _, _, hExec, ⟨?_, hInput, hLength, fun i => ?_⟩, hSecond, fun k => ?_, ?_⟩
  · rw [hPad]
  · rw [hFirst i, Stage.pad_dot]
    rfl
  · rw [hFed k, congrArg Stage.nx hSecond]
  · rw [congrArg Stage.nx hSecond]
    exact hResult

/-! ### Weights of zero -/

/-- A dot product of zeros squashes to 2048, whatever its shift (43_mixer.md R95). -/
theorem squash_pad_dot_eq_2048 (hSquash : SquashOk c.squash) {r : Nat} (d : Int)
    (h : ∀ k < (u.nx + 7) / 8 * 8, u.pad.input k * u.weight r k = 0) : squash c (u.pad.dot r / d) = 2048 := by
  have hDot : u.pad.dot r = 0 := by
    refine u.pad.dot_eq_zero r fun k hk => ?_
    rw [u.pad_weight]
    exact h k (u.pad_nx ▸ hk)
  rw [hDot, Int.zero_ediv, squash_zero hSquash]

/-- The one-stage prediction from products of zero (43_mixer.md R91, R95). -/
theorem Stage.predict_eq_2048 (hSquash : SquashOk c.squash)
    (h : ∀ k < (u.nx + 7) / 8 * 8, u.pad.input k * u.weight (u.row 0) k = 0) : (u.predict c).2 = 2048 := by
  rw [(u.predict_spec c).2.2]
  show squash c (pairwiseDot u.pad.input _ _ / 256) = 2048
  rw [← Stage.pad_dot]
  exact squash_pad_dot_eq_2048 hSquash 256 h

/-- In a stage that has a row at all, every selection names a row: an absent one reads as row 0. -/
theorem Stage.row_lt_of_pos (h : u.Ok) (hRow : 0 < u.m) (i : Nat) : u.row i < u.m := by
  by_cases hi : i < u.s
  · exact Stage.row_lt h i hi
  · rw [Stage.row, List.getD_eq_default _ _ (h.cxtLength ▸ Nat.not_lt.1 hi)]
    exact hRow

/-- A mixer that has a row and whose weights are all zero predicts 2048: the child of a two-stage mixer gets
`stretch(2048) = 0` as every input (43_mixer.md R95). -/
theorem Mixer.predict_eq_2048 (hSquash : SquashOk c.squash) (hOk : m.Ok) (hRow : 0 < m.own.m)
    (hZero : ∀ r < m.own.m, ∀ k < m.own.cap, m.own.weight r k = 0) : (m.predict c y).2 = 2048 := by
  have hOwn (i k : Nat) (hk : k < (m.own.nx + 7) / 8 * 8) : m.own.pad.input k * m.own.weight (m.own.row i) k = 0 := by
    have hCap : k < m.own.cap := by
      have hRoom := hOk.own.nx
      unfold Stage.cap at hRoom ⊢
      omega
    rw [hZero _ (Stage.row_lt_of_pos hOk.own hRow i) k hCap, mul_zero]
  cases hChild : m.child with
  | none =>
    rw [Mixer.predict_of_child_eq_none hChild]
    exact Stage.predict_eq_2048 hSquash (hOwn 0)
  | some child =>
    obtain ⟨hChildOk, -, -, hOne, -⟩ := hOk.child child hChild
    have hRows : m.own.ncxt ≤ m.own.pr.length := hOk.own.prLength.symm ▸ hOk.own.ncxt
    obtain ⟨-, hFirst⟩ := Stage.feedChild_pr (c := c) (y := y) (child := child) hRows
    obtain ⟨-, hFed, -⟩ := Stage.feedChild_predict (c := c) (y := y) hRows hChildOk hOne
    rw [Mixer.predict_of_child_eq_some hChild]
    refine Stage.predict_eq_2048 hSquash fun k hk => ?_
    have hNx : ((m.own.feedChild c y child).2.select 0 1).nx = m.own.ncxt := by
      rw [Stage.feedChild_select hRows hChildOk hOne]
    refine mul_eq_zero_of_left ((hFed k).trans ?_) _
    split
    next hk' => rw [hFirst k, if_pos hk', squash_pad_dot_eq_2048 hSquash 32 (hOwn k), stretch_2048 hSquash]
    next => rw [if_pos (.inl (hNx ▸ hk))]

/-- What 43_mixer.md R95 claims holds in every state with the invariant, where each mixer has a row (00_scope.md R7). -/
theorem State.Inv.mixP_res0_eq_2048 (h : s.Inv) (hm : s.mix[unit.toNat]? = some m)
    (hZero : ∀ r < m.own.m, ∀ k < m.own.cap, m.own.weight r k = 0) :
    ∃ t, exec (.mixP unit) s = .next t ∧ t.res0 = 2048 := by
  have hMem := List.mem_of_getElem? hm
  obtain ⟨-, hRow, -⟩ := h.geometry.mix _ (List.mem_map_of_mem hMem)
  refine ⟨_, exec_mixP hm, ?_⟩
  rw [Mixer.predict_eq_2048 h.cfg.squash (h.mix m hMem) hRow hZero]
  rfl

/-- A mixer stage of no rows and no selections, with one input. `Stage.Ok` admits it, `Geometry.Valid` does not. -/
def rowlessStage : Stage := (Stage.fresh 1 0 0 0x7FFF).add 0x7FFF

def rowlessMixer : Mixer := { own := rowlessStage, child := none }

/-- A block whose one Mixer unit has no rows. -/
def rowlessState : State := { probe with mix := [rowlessMixer] }

theorem rowlessMixer_ok : rowlessMixer.Ok where
  own :=
    { tx := by decide, wx := by decide, cxtLength := rfl, cxt := nofun, ncxt := le_rfl, base := le_rfl
      nx := by decide, prLength := rfl }
  child := nofun
  second := by decide

/-- Refutes O40: a mixer without rows meets the hypotheses, its weights being all zero because it has none. MIX_P reads
row 0 all the same, where every weight is the initial 0x7FFF, and gives 4095. `Mixer.predict_eq_2048` shows that no other
mixer does so. -/
theorem not_zeroWeightsGive2048 : ¬ Obligations.ZeroWeightsGive2048 := by
  intro h
  have hUnit : rowlessState.mix[(0 : BitVec 8).toNat]? = some rowlessMixer := rfl
  obtain ⟨t, hExec, hRes⟩ := h rowlessState 0 rowlessMixer chosenConfig_admissible.squash hUnit rowlessMixer_ok
    fun r hr => absurd hr (Nat.not_lt_zero r)
  have hResult : (rowlessMixer.predict rowlessState.cfg rowlessState.g.y).2 = 4095 := by decide
  rw [exec_mixP hUnit, hResult] at hExec
  rw [← Host.Outcome.next.inj hExec] at hRes
  exact absurd (hRes : (4095 : Word) = 2048) (by decide)

end Sys2Proof.Machine
end

section
/-! PROOF. BH_LOOKUP, BH_RD and BH_WR (44_hash_bh.md R96 to R100): where the scan of a bucket ends, the bytes of the
table after a lookup slot by slot, and the commands on an existing table. -/

namespace Sys2Proof.Machine

/-! ### The commands on an existing table -/

section commands

variable {s : State} {unit : BitVec 8} {u : BhTable}

theorem exec_bhLookup (hu : s.bh[unit.toNat]? = some u) :
    exec (.bhLookup unit) s =
      .next ((s.setBh unit.toNat { u with t := (bhLookup u.b u.ns u.t s.latch.a0).1 }).setRes
        (BitVec.ofNat 32 (bhFront u.ns s.latch.a0)) (BitVec.ofNat 32 (bhLookup u.b u.ns u.t s.latch.a0).2.2)) := by
  rw [← bhLookup_front u.b u.ns u.t]
  show execBhLookup unit s = _
  simp only [execBhLookup, hu]

theorem exec_bhRd (hu : s.bh[unit.toNat]? = some u) (hSlot : s.op0 < u.ns) (hByte : s.op1 < u.b) :
    exec (.bhRd unit) s = .next (s.setRes0 (BitVec.ofNat 32 (byteAt u.t (s.op0 * u.b + s.op1)).toNat)) := by
  rw [BitVec.ofNat_toNat]
  show execBhRd unit s = _
  simp only [execBhRd, hu]
  exact if_neg (by omega)

theorem exec_bhWr (hu : s.bh[unit.toNat]? = some u) (hSlot : s.op0 < u.ns) (hLow : 2 ≤ s.op1) (hByte : s.op1 < u.b)
    (hValue : s.op2 ≤ 255) :
    exec (.bhWr unit) s =
      .next (s.setBh unit.toNat { u with t := putByte u.t (s.op0 * u.b + s.op1) (s.latch.a2.setWidth 8) }) := by
  show execBhWr unit s = _
  simp only [execBhWr, hu]
  exact if_neg (by omega)

end commands

/-- Settles O42: a value up to 255 is stored as it is (`byteAt_putByte`). -/
theorem bhReadAndWriteOneByte : Obligations.BhReadAndWriteOneByte := by
  intro s unit u hu hSlot hByte
  refine ⟨exec_bhRd hu hSlot hByte, fun hLow hValue => ⟨_, exec_bhWr hu hSlot hLow hByte hValue, ?_, fun a ha => ?_⟩⟩
  · have hStored : (s.latch.a2.setWidth 8).toNat = s.latch.a2.toNat :=
      (BitVec.toNat_setWidth ..).trans (Nat.mod_eq_of_lt (Nat.lt_succ_of_le hValue))
    rw [byteAt_putByte, State.op0, State.op1, if_pos rfl, hStored]
  · exact (byteAt_putByte ..).trans (if_neg ha)

/-! ### A slot brought to the front of its bucket -/

section moveToFront

variable {b i v z : Nat} {t : Memory 8} {tmp : List Byte}

theorem byteAt_moveToFront_front (hLen : tmp.length = b) (hz : z < b) :
    byteAt (writeBytes (bhShift b i v t) (i * b) tmp) (i * b + z) = tmp.getD z 0 := by
  rw [byteAt_moveToFront b i v t tmp hLen, if_pos (by omega), Nat.add_sub_cancel_left]

/-- A slot before the one brought to the front moves up by one. -/
theorem byteAt_moveToFront_succ {q : Nat} (hLen : tmp.length = b) (hq : q < v) (hz : z < b) :
    byteAt (writeBytes (bhShift b i v t) (i * b) tmp) ((i + (q + 1)) * b + z) = byteAt t ((i + q) * b + z) := by
  have hSlot : (i + (q + 1)) * b = (i + q) * b + b := by ring
  have hFirst : (i + 1) * b ≤ (i + (q + 1)) * b := Nat.mul_le_mul_right b (by omega)
  have hLast : (i + (q + 1)) * b + b ≤ (i + 1 + v) * b := by
    rw [← Nat.succ_mul]
    exact Nat.mul_le_mul_right b (by omega)
  have hFront : (i + 1) * b = i * b + b := Nat.succ_mul i b
  rw [byteAt_moveToFront b i v t tmp hLen, if_neg (by omega), if_pos (by omega)]
  congr 1
  omega

theorem byteAt_moveToFront_outside {a : Nat} (hLen : tmp.length = b) (ha : a < i * b ∨ (i + v + 1) * b ≤ a) :
    byteAt (writeBytes (bhShift b i v t) (i * b) tmp) a = byteAt t a := by
  have hEnd : i * b + b ≤ (i + v + 1) * b := by
    rw [← Nat.succ_mul]
    exact Nat.mul_le_mul_right b (by omega)
  have hFirst : (i + 1) * b = i * b + b := Nat.succ_mul i b
  have hComm : (i + 1 + v) * b = (i + v + 1) * b := by ring
  rw [byteAt_moveToFront b i v t tmp hLen, if_neg (by omega), if_neg (by omega)]

end moveToFront

/-! ### The slot brought to the front -/

/-- The position that the slot brought to the front leaves free: that of the match, or of the victim. -/
def bhGap (b i : Nat) (t : Memory 8) (pos : Nat) : Nat := if pos < 8 then pos else bhVictim b i t

/-- The bytes of the slot brought to the front: those of the match, or a new slot. -/
def bhIncoming (b i : Nat) (chk : BitVec 16) (t : Memory 8) (pos : Nat) : List Byte :=
  if pos < 8 then readBytes t ((i + pos) * b) b else bhNewSlot b chk

theorem length_bhIncoming {b : Nat} (hb : 2 ≤ b) (i : Nat) (chk : BitVec 16) (t : Memory 8) (pos : Nat) :
    (bhIncoming b i chk t pos).length = b := by
  unfold bhIncoming
  split_ifs
  · exact length_readBytes ..
  · exact length_bhNewSlot hb chk

theorem bhNewSlot_check (b : Nat) (chk : BitVec 16) :
    ((bhNewSlot b chk).getD 0 0).toNat + 256 * ((bhNewSlot b chk).getD 1 0).toNat = chk.toNat := by
  have hLt := chk.isLt
  simp only [bhNewSlot, List.getD_cons_zero, List.getD_cons_succ, BitVec.extractLsb'_toNat, Nat.shiftRight_eq_div_pow]
  omega

theorem getD_bhNewSlot_of_two_le (b : Nat) (chk : BitVec 16) {z : Nat} (hz : 2 ≤ z) :
    (bhNewSlot b chk).getD z 0 = 0 := by
  obtain ⟨k, rfl⟩ := Nat.exists_eq_add_of_le' hz
  show (List.replicate (b - 2) (0 : Byte)).getD k 0 = 0
  rw [List.getD_eq_getElem?_getD, List.getElem?_replicate]
  split_ifs <;> rfl

/-! ### The scan of a bucket -/

section scan

variable {b i p : Nat} {chk : BitVec 16} {t t₁ : Memory 8}

theorem bhScan_pos_le (hScan : bhScan b i chk 8 0 t = (t₁, p)) : p ≤ 8 := by
  obtain ⟨_, rfl, -, hLe, -⟩ := bhScan_spec b i chk 8 0 t
  rwa [hScan, Nat.zero_add] at hLe

theorem not_slotEnds_of_lt {q : Nat} (hScan : bhScan b i chk 8 0 t = (t₁, p)) (hq : q < p) :
    ¬slotEnds t chk ((i + q) * b) := by
  obtain ⟨_, rfl, -, -, hBefore, -⟩ := bhScan_spec b i chk 8 0 t
  rw [hScan] at hBefore
  exact hBefore q (Nat.zero_le q) hq

theorem slotEnds_of_bhScan (hScan : bhScan b i chk 8 0 t = (t₁, p)) (hp : p < 8) : slotEnds t chk ((i + p) * b) := by
  obtain ⟨_, rfl, -, -, -, hEnd, -⟩ := bhScan_spec b i chk 8 0 t
  rw [hScan] at hEnd
  exact (hEnd hp).1

/-- The slot the scan ends at has the checksum, a claimed slot too. -/
theorem slotCheck_bhScan (hScan : bhScan b i chk 8 0 t = (t₁, p)) (hp : p < 8) :
    slotCheck t₁ ((i + p) * b) = chk.toNat := by
  obtain ⟨_, rfl, -, -, -, hEnd, -⟩ := bhScan_spec b i chk 8 0 t
  rw [hScan] at hEnd
  obtain ⟨-, hCheck, -⟩ := hEnd hp
  exact hCheck

/-- The scan changes nothing but the checksum of the slot it ends at. -/
theorem byteAt_bhScan {a : Nat} (hScan : bhScan b i chk 8 0 t = (t₁, p))
    (ha : p < 8 → a ≠ (i + p) * b ∧ a ≠ (i + p) * b + 1) : byteAt t₁ a = byteAt t a := by
  obtain ⟨_, rfl, -, hLe, -, hEnd, hFull⟩ := bhScan_spec b i chk 8 0 t
  rw [hScan] at hLe hEnd hFull
  by_cases hp : p < 8
  · obtain ⟨-, -, hFrame⟩ := hEnd hp
    obtain ⟨hLow, hHigh⟩ := ha hp
    exact hFrame a hLow hHigh
  · exact congrArg (byteAt · a) (hFull (by omega))

/-- A scan that meets no end leaves the table, so the victim is chosen in the table before it. -/
theorem bhGap_bhScan (hScan : bhScan b i chk 8 0 t = (t₁, p)) : bhGap b i t₁ p = bhGap b i t p := by
  unfold bhGap
  split_ifs with hp
  · rfl
  · simp only [bhVictim, byteAt_bhScan hScan fun h => absurd h hp]

end scan

/-! ### The lookup -/

section lookup

variable {b ns p z : Nat} {t t₁ : Memory 8} {h : Word}

theorem bhLookup_pos (hScan : bhScan b (bhFront ns h) (bhCheck h) 8 0 t = (t₁, p)) : (bhLookup b ns t h).2.2 = p := by
  simp only [bhLookup, hScan]
  split_ifs with h0 h8
  · exact h0.symm
  · exact h8.symm
  · rfl

/-- The three branches of `bhLookup` are one move to the front of the scanned table: a match at position 0 moves no slot
and is brought to where it is. -/
theorem byteAt_bhLookup (hScan : bhScan b (bhFront ns h) (bhCheck h) 8 0 t = (t₁, p)) (a : Nat) :
    byteAt (bhLookup b ns t h).1 a =
      byteAt (writeBytes (bhShift b (bhFront ns h) (bhGap b (bhFront ns h) t p) t₁) (bhFront ns h * b)
        (bhIncoming b (bhFront ns h) (bhCheck h) t₁ p)) a := by
  have hLe := bhScan_pos_le hScan
  rw [← bhGap_bhScan hScan]
  simp only [bhLookup, hScan]
  split_ifs with h0 h8
  · simp only [h0, bhGap, bhIncoming, Nat.zero_lt_succ, if_true, bhShift, byteAt_copySlot, Nat.add_zero]
    split_ifs with hIn
    · rw [Nat.add_sub_cancel' hIn.1]
    · rfl
  · simp only [h8, bhGap, bhIncoming, Nat.lt_irrefl, if_false]
  · have hp : p < 8 := by omega
    simp only [bhGap, bhIncoming, if_pos hp]

theorem bhLookup_incoming (hb : 2 ≤ b) (hScan : bhScan b (bhFront ns h) (bhCheck h) 8 0 t = (t₁, p)) (hz : z < b) :
    byteAt (bhLookup b ns t h).1 (bhFront ns h * b + z) =
      (bhIncoming b (bhFront ns h) (bhCheck h) t₁ p).getD z 0 := by
  rw [byteAt_bhLookup hScan, byteAt_moveToFront_front (length_bhIncoming hb ..) hz]

/-- The front slot has the checksum: the scan left it in the slot it ended at, and a new slot begins with it. -/
theorem bhLookup_check (hb : 2 ≤ b) (hScan : bhScan b (bhFront ns h) (bhCheck h) 8 0 t = (t₁, p)) :
    slotCheck (bhLookup b ns t h).1 (bhFront ns h * b) = (bhCheck h).toNat := by
  have hFirst := bhLookup_incoming hb hScan (show 0 < b by omega)
  have hSecond := bhLookup_incoming hb hScan (show 1 < b by omega)
  rw [Nat.add_zero] at hFirst
  rw [slotCheck, hFirst, hSecond, bhIncoming]
  split_ifs with hp
  · rw [getD_readBytes _ _ _ _ (by omega), getD_readBytes _ _ _ _ (by omega)]
    exact slotCheck_bhScan hScan hp
  · exact bhNewSlot_check b (bhCheck h)

theorem bhLookup_front_byte (hScan : bhScan b (bhFront ns h) (bhCheck h) 8 0 t = (t₁, p)) (hLow : 2 ≤ z) (hz : z < b) :
    byteAt (bhLookup b ns t h).1 (bhFront ns h * b + z) =
      if p < 8 then byteAt t ((bhFront ns h + p) * b + z) else 0 := by
  rw [bhLookup_incoming (by omega) hScan hz, bhIncoming]
  split_ifs with hp
  · rw [getD_readBytes _ _ _ _ hz]
    exact byteAt_bhScan hScan fun _ => by omega
  · exact getD_bhNewSlot_of_two_le b (bhCheck h) hLow

/-- The slots before the match or the victim move up by one, as they were: the scan writes none of them. -/
theorem bhLookup_moved_byte {q : Nat} (hb : 2 ≤ b) (hScan : bhScan b (bhFront ns h) (bhCheck h) 8 0 t = (t₁, p))
    (hq : q < bhGap b (bhFront ns h) t p) (hz : z < b) :
    byteAt (bhLookup b ns t h).1 ((bhFront ns h + (q + 1)) * b + z) = byteAt t ((bhFront ns h + q) * b + z) := by
  rw [byteAt_bhLookup hScan, byteAt_moveToFront_succ (length_bhIncoming hb ..) hq hz]
  refine byteAt_bhScan hScan fun hp => ?_
  rw [bhGap, if_pos hp] at hq
  have hNext : (bhFront ns h + q + 1) * b ≤ (bhFront ns h + p) * b := Nat.mul_le_mul_right b (by omega)
  rw [Nat.succ_mul] at hNext
  omega

theorem bhLookup_outside {a : Nat} (hb : 2 ≤ b) (hScan : bhScan b (bhFront ns h) (bhCheck h) 8 0 t = (t₁, p))
    (ha : a < bhFront ns h * b ∨ (bhFront ns h + bhGap b (bhFront ns h) t p + 1) * b ≤ a) :
    byteAt (bhLookup b ns t h).1 a = byteAt t a := by
  rw [byteAt_bhLookup hScan, byteAt_moveToFront_outside (length_bhIncoming hb ..) ha]
  refine byteAt_bhScan hScan fun hp => ?_
  rw [bhGap, if_pos hp, Nat.succ_mul] at ha
  have hFirst : bhFront ns h * b ≤ (bhFront ns h + p) * b := Nat.mul_le_mul_right b (Nat.le_add_right ..)
  omega

end lookup

/-! ### The statement -/

theorem bhCheck_toNat (h : Word) : (bhCheck h).toNat = (h.toNat / 65536 ^^^ h.toNat) % 65536 := by
  simp only [bhCheck, BitVec.toNat_setWidth, BitVec.toNat_xor, BitVec.toNat_ushiftRight, Nat.shiftRight_eq_div_pow]

theorem slotEnds_iff (t : Memory 8) (h : Word) (a : Nat) :
    slotEnds t (bhCheck h) a ↔ (byteAt t (a + 2)).toNat = 0 ∨
      (byteAt t a).toNat + 256 * (byteAt t (a + 1)).toNat = (h.toNat / 65536 ^^^ h.toNat) % 65536 := by
  rw [slotEnds, slotCheck, bhCheck_toNat, ← BitVec.toNat_inj]
  rfl

/-- Settles O41: the scan ends where `bhScan_spec` says, and the table is one move to the front (`byteAt_bhLookup`). -/
theorem bhLookupFindsOrEvicts : Obligations.BhLookupFindsOrEvicts := by
  intro s unit u hu hb hPow hSlots
  obtain ⟨hFront, hMultiple, hBucket⟩ := bhFront_spec hPow hSlots s.latch.a0
  have hb2 : 2 ≤ u.b := by omega
  rcases hScan : bhScan u.b (bhFront u.ns s.latch.a0) (bhCheck s.latch.a0) 8 0 u.t with ⟨t₁, p⟩
  have hExec := exec_bhLookup hu
  rw [bhLookup_pos hScan] at hExec
  refine ⟨_, _, p, bhGap u.b (bhFront u.ns s.latch.a0) u.t p, hExec, hFront, hMultiple, hBucket, bhScan_pos_le hScan,
    fun q hq hEnds => not_slotEnds_of_lt hScan hq ((slotEnds_iff ..).2 hEnds),
    fun hp => (slotEnds_iff ..).1 (slotEnds_of_bhScan hScan hp), rfl,
    (bhLookup_check hb2 hScan).trans (bhCheck_toNat _), fun z hLow hz => ?_, fun q hq hGap z hz => ?_,
    fun a ha => bhLookup_outside hb2 hScan ha⟩
  · exact (congrArg BitVec.toNat (bhLookup_front_byte hScan hLow hz)).trans (apply_ite BitVec.toNat ..)
  · obtain ⟨q, rfl⟩ := Nat.exists_eq_add_of_le' hq
    exact congrArg BitVec.toNat (bhLookup_moved_byte hb2 hScan hGap hz)

end Sys2Proof.Machine
end

section
/-! PROOF. CM_SET, the lookup of a ContextMap, the run record and the pending update (45_contextmap.md R101, R102, R104,
R105): the bytes of the table after each of them. -/

namespace Sys2Proof.Machine

/-! ### The run record -/

/-- The next `count_d` in the naturals: the step by 2 does not wrap (45_contextmap.md R105). -/
theorem runNext_count_toNat (count last prev : Byte) :
    (runNext count last prev).1.toNat =
      if count.toNat = 0 then 2 else if last ≠ prev then 1 else if count.toNat < 254 then count.toNat + 2
      else if count.toNat = 255 then 128 else count.toNat := by
  have hZero : count = 0 ↔ count.toNat = 0 := BitVec.toNat_inj.symm
  have hTop : count = 255 ↔ count.toNat = 255 := BitVec.toNat_inj.symm
  simp only [runNext, hZero, hTop]
  split_ifs
  · rfl
  · rfl
  · bv_omega
  · rfl
  · rfl

/-- Settles O48: the bytes of the record are described by `runUpdate_spec`. -/
theorem runRecordAdvances : Obligations.RunRecordAdvances := by
  intro t a prev
  obtain ⟨hCount, hLast, hRest⟩ := runUpdate_spec t a prev
  exact ⟨hLast, (congrArg BitVec.toNat hCount).trans (runNext_count_toNat ..), hRest⟩

/-! ### CM_SET -/

/-- A rotation by half a word swaps the halves (45_contextmap.md R102). -/
theorem rotate16_toNat (v : Word) : (v <<< 16 ||| v >>> 16).toNat = v.toNat % 65536 * 65536 + v.toNat / 65536 := by
  have hv := v.isLt
  have hHigh : v.toNat <<< 16 % 2 ^ 32 = 2 ^ 16 * (v.toNat % 65536) := by rw [Nat.shiftLeft_eq]; omega
  rw [BitVec.toNat_or, BitVec.toNat_shiftLeft, BitVec.toNat_ushiftRight, hHigh, Nat.shiftRight_eq_div_pow,
    ← Nat.two_pow_add_eq_or_of_lt (by omega), Nat.mul_comm]

theorem mul_add_toNat (x a : Word) (i : Nat) :
    (x * a + BitVec.ofNat 32 i).toNat = (x.toNat * a.toNat + i) % 2 ^ 32 := by
  rw [BitVec.toNat_add, BitVec.toNat_mul, BitVec.toNat_ofNat, ← Nat.add_mod]

theorem cmPerm_toNat (cx : Word) (i : Nat) :
    (cmPerm cx i).toNat =
      (((cx.toNat * 987654323 + i) % 2 ^ 32 % 65536 * 65536 + (cx.toNat * 987654323 + i) % 2 ^ 32 / 65536) * 123456791
        + i) % 2 ^ 32 := by
  simp only [cmPerm, mul_add_toNat, rotate16_toNat]
  rfl

theorem ContextMap.setContext_eq {u : ContextMap} {i : Nat} {k : CmContext} (hk : u.ctxs[i]? = some k) (h : Word) :
    u.setContext i h = { u with ctxs := u.ctxs.set i { k with cxt := h } } := by
  rw [setContext, List.modify_eq_set_getElem?, hk]
  rfl

theorem exec_cmSet {s : State} {unit : BitVec 8} {u : ContextMap} (hu : s.cm[unit.toNat]? = some u)
    (hRoom : u.cn < u.ctxs.length) :
    exec (.cmSet unit) s =
      .next (s.setCm unit.toNat { u.setContext u.cn (cmPerm s.latch.a0 u.cn) with cn := u.cn + 1 }) := by
  show execCmSet unit s = _
  simp only [execCmSet, hu]
  exact if_neg (Nat.not_le.2 hRoom)

/-- Settles O43: the permuted context as a number is `cmPerm_toNat`. -/
theorem cmSetStoresThePermutedContext : Obligations.CmSetStoresThePermutedContext := by
  intro s unit u k hu hk
  obtain ⟨hRoom, -⟩ := List.getElem?_eq_some_iff.1 hk
  refine ⟨cmPerm s.latch.a0 u.cn, ?_, cmPerm_toNat ..⟩
  rw [exec_cmSet hu hRoom, ContextMap.setContext_eq hk]
  rfl

/-! ### The lookup -/

section lookup

variable {tab : Memory 8} {b k : Nat} {ch : BitVec 16}

theorem cmCheck_eq_iff (tab : Memory 8) (b k : Nat) (ch : BitVec 16) :
    cmCheck tab b k = ch ↔
      (byteAt tab (64 * b + 2 * k)).toNat + 256 * (byteAt tab (64 * b + (2 * k + 1))).toNat = ch.toNat :=
  read16_eq_iff ..

/-- Cell 0 of a slot by its offset in the bucket (20_memory.md R44). -/
theorem cmCell_eq (b k : Nat) : cmCell b k = 64 * b + (15 + 7 * k) := Nat.add_assoc ..

theorem cmGet_of_mruHit (hHit : cmCheck tab b ((byteAt tab (cmLast b)).toNat % 16) = ch) :
    cmGet tab b ch = (tab, cmCell b ((byteAt tab (cmLast b)).toNat % 16)) :=
  if_pos hHit

/-- When the MRU slot misses, the first slot with the checksum is found (45_contextmap.md R101). -/
theorem cmGet_of_hit (hMiss : cmCheck tab b ((byteAt tab (cmLast b)).toNat % 16) ≠ ch) (hk : k ≤ 6)
    (hHit : cmCheck tab b k = ch) (hFirst : ∀ j < k, cmCheck tab b j ≠ ch) :
    cmGet tab b ch =
      (putByte tab (cmLast b) (BitVec.ofNat 8 (((byteAt tab (cmLast b)).toNat * 16 ||| k) % 256)), cmCell b k) := by
  rcases cmGet_cases tab b ch with ⟨hMru, -⟩ | ⟨j, -, hj, hFirst', e⟩ | ⟨hNone, -⟩
  · exact absurd hMru hMiss
  · obtain rfl : j = k := by
      rcases lt_trichotomy j k with h | h | h
      · exact absurd hj (hFirst j h)
      · exact h
      · exact absurd hHit (hFirst' k h)
    exact e
  · exact absurd hHit (hNone k hk)

/-- When no slot has the checksum, a slot is replaced (45_contextmap.md R101). -/
theorem cmGet_of_miss (hLow : (byteAt tab (cmLast b)).toNat % 16 ≤ 6) (hNone : ∀ j ≤ 6, cmCheck tab b j ≠ ch) :
    ∃ k ≤ 6, cmFree (byteAt tab (cmLast b)).toNat k ∧
      (∀ j ≤ 6, cmFree (byteAt tab (cmLast b)).toNat j →
        (byteAt tab (cmCell b k)).toNat ≤ (byteAt tab (cmCell b j)).toNat) ∧
      (∀ j < k, cmFree (byteAt tab (cmLast b)).toNat j →
        (byteAt tab (cmCell b k)).toNat < (byteAt tab (cmCell b j)).toNat) ∧
      cmGet tab b ch = (cmClaim tab b k ch, cmCell b k) := by
  rcases cmGet_cases tab b ch with ⟨hMru, -⟩ | ⟨j, hj, hHit, -⟩ | ⟨-, hClaim⟩
  · exact absurd hMru (hNone _ hLow)
  · exact absurd hHit (hNone j hj)
  · exact hClaim

/-- The MRU byte after a hit: the slot found comes first, the former first slot second (45_contextmap.md R101). -/
theorem mruAfterHit_toNat (last : Nat) (hk : k ≤ 6) :
    (BitVec.ofNat 8 ((last * 16 ||| k) % 256)).toNat = last % 16 * 16 + k := by
  have hFields : last * 16 ||| k = 2 ^ 4 * last + k := by
    rw [Nat.two_pow_add_eq_or_of_lt (by omega), Nat.mul_comm]
  rw [BitVec.toNat_ofNat, hFields]
  omega

theorem mruAfterClaim_toNat (hk : k ≤ 6) : (BitVec.ofNat 8 (0xF0 ||| k)).toNat = 0xF0 + k := by
  rw [show (0xF0 : Nat) = 2 ^ 4 * 15 from rfl, ← Nat.two_pow_add_eq_or_of_lt (by omega), BitVec.toNat_ofNat]
  omega

theorem byteAt_cmClaim_mru (hk : k ≤ 6) : (byteAt (cmClaim tab b k ch) (64 * b + 14)).toNat = 0xF0 + k := by
  rw [byteAt_cmClaim, if_neg (by omega), if_neg (by omega), if_neg (by omega), if_pos rfl, mruAfterClaim_toNat hk]

theorem cmCheck_cmClaim (hk : k ≤ 6) : cmCheck (cmClaim tab b k ch) b k = ch := by
  refine Eq.trans ?_ (read16_write16 tab (64 * b + 2 * k) ch)
  rw [cmCheck, read16, read16, byteAt_cmClaim, byteAt_cmClaim, byteAt_write16, byteAt_write16]
  simp only [show ¬64 * b + 15 + 7 * k ≤ 64 * b + 2 * k by omega,
    show ¬64 * b + 15 + 7 * k ≤ 64 * b + 2 * k + 1 by omega, show 64 * b + 2 * k + 1 ≠ 64 * b + 2 * k by omega,
    false_and, if_false, if_true]

theorem byteAt_cmClaim_cell {z : Nat} (hz : z < 7) :
    byteAt (cmClaim tab b k ch) (64 * b + (15 + 7 * k + z)) = 0 := by
  rw [byteAt_cmClaim, if_pos (by omega)]

theorem byteAt_cmClaim_outside {a : Nat} (hMru : a ≠ 64 * b + 14) (hLow : a ≠ 64 * b + 2 * k)
    (hHigh : a ≠ 64 * b + 2 * k + 1) (hCells : a < 64 * b + 15 + 7 * k ∨ 64 * b + 22 + 7 * k ≤ a) :
    byteAt (cmClaim tab b k ch) a = byteAt tab a := by
  rw [byteAt_cmClaim, if_neg (by omega), if_neg hLow, if_neg hHigh, if_neg hMru]

end lookup

/-- Settles O47: a hit writes the MRU byte only, and a replacement is described by `byteAt_cmClaim`. -/
theorem cmGetFindsOrReplaces : Obligations.CmGetFindsOrReplaces := by
  intro tab tab' b p ch hGet at' now lo hi chk hLow
  have hChk : ∀ k, cmCheck tab b k = ch ↔ chk k = ch.toNat := fun k => cmCheck_eq_iff tab b k ch
  have hPri : ∀ k, (byteAt tab (cmCell b k)).toNat = at' (15 + 7 * k) := fun k => by rw [cmCell_eq]
  refine ⟨fun hMru => ?_, fun hMiss k hk hHit hFirst => ?_, fun hNone => ?_⟩
  · rw [cmGet_of_mruHit ((hChk lo).2 hMru)] at hGet
    obtain ⟨rfl, rfl⟩ := Prod.mk.inj hGet
    exact ⟨rfl, rfl⟩
  · rw [cmGet_of_hit (mt (hChk lo).1 hMiss) hk ((hChk k).2 hHit) fun j hj => mt (hChk j).1 (hFirst j hj)] at hGet
    obtain ⟨rfl, rfl⟩ := Prod.mk.inj hGet
    refine ⟨rfl, ?_, fun a ha => (byteAt_putByte ..).trans (if_neg ha)⟩
    exact (congrArg BitVec.toNat ((byteAt_putByte ..).trans (if_pos rfl))).trans (mruAfterHit_toNat _ hk)
  · obtain ⟨k, hk, ⟨hNotLo, hNotHi⟩, hLeast, hLowest, e⟩ :=
      cmGet_of_miss hLow fun j hj => mt (hChk j).1 (hNone j hj)
    obtain ⟨rfl, rfl⟩ := Prod.mk.inj (e.symm.trans hGet)
    simp only [hPri] at hLeast hLowest
    exact ⟨k, hk, hNotLo, hNotHi, fun j hj hjLo hjHi => hLeast j hj ⟨hjLo, hjHi⟩,
      fun j hj hjLo hjHi => hLowest j hj ⟨hjLo, hjHi⟩, rfl, byteAt_cmClaim_mru hk,
      (cmCheck_eq_iff ..).1 (cmCheck_cmClaim hk), fun z hz => congrArg BitVec.toNat (byteAt_cmClaim_cell hz),
      fun a hMru hCkLow hCkHigh hCells => byteAt_cmClaim_outside hMru hCkLow hCkHigh hCells⟩

/-! ### The pending update -/

/-- A seeded slot when the three bits are bits `z` to `z + 2` of `c` (45_contextmap.md R104). -/
theorem byteAt_cmSeed_bits (tab : Memory 8) (p : Nat) {c z x : Nat} (hx : x = c / 2 ^ z % 8) (a : Nat) :
    (byteAt (cmSeed tab p x) a).toNat =
      if a = p then 1 + c / 2 ^ (z + 2) % 2
      else if a = p + 1 + c / 2 ^ (z + 2) % 2 then 1 + c / 2 ^ (z + 1) % 2
      else if a = p + 3 + c / 2 ^ (z + 1) % 4 then 1 + c / 2 ^ z % 2
      else (byteAt tab a).toNat := by
  have hBit2 : c / 2 ^ (z + 2) = c / 2 ^ z / 4 := by rw [pow_add, ← Nat.div_div_eq_div_mul]; rfl
  have hBit1 : c / 2 ^ (z + 1) = c / 2 ^ z / 2 := by rw [pow_add, ← Nat.div_div_eq_div_mul]; rfl
  have hPath2 : x / 4 % 2 = c / 2 ^ z / 4 % 2 := by omega
  have hPath1 : x / 2 % 2 = c / 2 ^ z / 2 % 2 := by omega
  have hPath0 : x % 2 = c / 2 ^ z % 2 := by omega
  have hCell : x / 2 % 4 = c / 2 ^ z / 2 % 4 := by omega
  rw [byteAt_cmSeed, hBit2, hBit1, hPath2, hPath1, hPath0, hCell]

/-- Settles O60: both slots are seeded as `byteAt_cmSeed_bits` says, then cell 6 is cleared. -/
theorem pendingUpdateSeedsTwoSlots : Obligations.PendingUpdateSeedsTwoSlots := by
  intro e tab cxt cp0 c get seeded
  refine ⟨cmSeed (get tab (c / 64)).1 (get tab (c / 64)).2 (c / 8 % 8), byteAt_cmSeed_bits _ _ rfl, fun a => ?_⟩
  have hBits : c % 8 = c / 2 ^ 0 % 8 := by rw [pow_zero, Nat.div_one]
  calc (byteAt (cmPending e tab cxt cp0) a).toNat
      = if a = cp0 + 6 then 0 else (byteAt (cmSeed _ _ (c % 8)) a).toNat :=
        (congrArg BitVec.toNat (byteAt_putByte ..)).trans (apply_ite BitVec.toNat ..)
    _ = _ := if_congr Iff.rfl rfl (byteAt_cmSeed_bits _ _ hBits a)

end Sys2Proof.Machine
end

section
/-! PROOF. CM_MIX and RCM_MIX (45_contextmap.md R106, R107, R109; 46_run_sscm.md R112): the pointers and the inputs of a
round, the rounds in order, and the run score of a run record. -/

namespace Sys2Proof.Machine

variable {c : Config} {g : GlobalContext} {e : Nat} {y : BitVec 1} {rng : Generator} {tab : Memory 8}
  {q q' : CmCarry} {k k' : CmContext}

/-! ### Step 1 of a round: the cell of the previous bit -/

theorem cmUpdateCell_of_null (h : k.cp = none) : cmUpdateCell c y rng tab k = (rng, tab) := by
  simp only [cmUpdateCell, h]

theorem cmUpdateCell_of_cell {a : Nat} (h : k.cp = some a) :
    cmUpdateCell c y rng tab k =
      ((fsmStep c rng (byteAt tab a) y).1, putByte tab a (fsmStep c rng (byteAt tab a) y).2) := by
  simp only [cmUpdateCell, h]

/-! ### Step 2 of a round: the pointers -/

/-- A bit position by its number. -/
theorem bpos_eq_iff (g : GlobalContext) (n : BitVec 3) : g.bpos = n ↔ g.bpos.toNat = n.toNat := BitVec.toNat_inj.symm

theorem cmAdvance_of_noRun (h : 1 < g.bpos.toNat ∧ byteAt tab k.runp = 0) :
    cmAdvance g e tab k = (tab, { k with cp := none }) :=
  if_pos h

theorem cmAdvance_of_oneBit (hRun : ¬(1 < g.bpos.toNat ∧ byteAt tab k.runp = 0)) (hBit : g.bpos.toNat ∈ [1, 3, 6]) :
    cmAdvance g e tab k = (tab, { k with cp := some (k.cp0 + 1 + g.c0.toNat % 2) }) := by
  have hPos : g.bpos = 1 ∨ g.bpos = 3 ∨ g.bpos = 6 := by simpa [bpos_eq_iff] using hBit
  exact (if_neg hRun).trans (if_pos hPos)

theorem cmAdvance_of_twoBits (hRun : ¬(1 < g.bpos.toNat ∧ byteAt tab k.runp = 0)) (hBit : g.bpos.toNat ∈ [4, 7]) :
    cmAdvance g e tab k = (tab, { k with cp := some (k.cp0 + 3 + g.c0.toNat % 4) }) := by
  have hPos : g.bpos = 4 ∨ g.bpos = 7 := by simpa [bpos_eq_iff] using hBit
  have hNot : ¬(g.bpos = 1 ∨ g.bpos = 3 ∨ g.bpos = 6) := by rcases hPos with h | h <;> rw [h] <;> decide
  exact (if_neg hRun).trans ((if_neg hNot).trans (if_pos hPos))

theorem cmAdvance_of_lookup (hRun : ¬(1 < g.bpos.toNat ∧ byteAt tab k.runp = 0)) (hOne : g.bpos.toNat ∉ [1, 3, 6])
    (hTwo : g.bpos.toNat ∉ [4, 7]) : cmAdvance g e tab k = cmLookup g e tab k := by
  have hNotOne : ¬(g.bpos = 1 ∨ g.bpos = 3 ∨ g.bpos = 6) := by simpa [bpos_eq_iff] using hOne
  have hNotTwo : ¬(g.bpos = 4 ∨ g.bpos = 7) := by simpa [bpos_eq_iff] using hTwo
  exact (if_neg hRun).trans ((if_neg hNotOne).trans (if_neg hNotTwo))

/-- The lookup at the first bit of a byte (45_contextmap.md R109). -/
theorem cmLookup_of_firstBit {r : Memory 8 × Nat} (hr : cmGet tab (cmBucket e k.cxt g.c0.toNat) (cmTag k.cxt) = r)
    (hFirst : g.bpos.toNat = 0) :
    cmLookup g e tab k =
      (runUpdate (if byteAt r.1 (r.2 + 3) = 2 then cmPending e r.1 k.cxt r.2 else r.1) k.runp (g.byteBack 1),
        { k with cp0 := r.2, cp := some r.2, runp := r.2 + 3 }) := by
  rw [← g.bufBack_eq 1 (by norm_num), cmLookup, hr]
  exact if_pos ((bpos_eq_iff g 0).2 hFirst)

theorem cmLookup_of_laterBit {r : Memory 8 × Nat} (hr : cmGet tab (cmBucket e k.cxt g.c0.toNat) (cmTag k.cxt) = r)
    (hLater : g.bpos.toNat ≠ 0) :
    cmLookup g e tab k = (r.1, { k with cp0 := r.2, cp := some r.2 }) := by
  rw [cmLookup, hr]
  exact if_neg (mt (bpos_eq_iff g 0).1 hLater)

/-- Moving the pointers leaves the hash and the StateMap of the context. -/
theorem cmAdvance_keeps (g : GlobalContext) (e : Nat) (tab : Memory 8) (k : CmContext) :
    (cmAdvance g e tab k).2.cxt = k.cxt ∧ (cmAdvance g e tab k).2.sm = k.sm := by
  simp only [cmAdvance, cmLookup]
  split_ifs <;> exact ⟨rfl, rfl⟩

section moves

variable {rng1 : Generator} {tab1 : Memory 8}

theorem cmMixContext_rng_cxt (h : cmMixContext c g e q k = (q', k'))
    (hCell : cmUpdateCell c g.y q.rng q.tab k = (rng1, tab1)) : q'.rng = rng1 ∧ k'.cxt = k.cxt := by
  have hCxt := (cmAdvance_keeps g e tab1 k).1
  simp only [cmMixContext, hCell, Prod.mk.injEq] at h
  obtain ⟨rfl, rfl⟩ := h
  exact ⟨rfl, hCxt⟩

/-- Steps 3 and 4 of a round leave the pointers and the table as step 2 moved them (45_contextmap.md R109). -/
theorem cmMixContext_pointers {tab2 : Memory 8} {k2 : CmContext} (h : cmMixContext c g e q k = (q', k'))
    (hCell : cmUpdateCell c g.y q.rng q.tab k = (rng1, tab1)) (hMove : cmAdvance g e tab1 k = (tab2, k2)) :
    k'.cp = k2.cp ∧ k'.cp0 = k2.cp0 ∧ k'.runp = k2.runp ∧ q'.tab = tab2 := by
  simp only [cmMixContext, hCell, hMove, Prod.mk.injEq] at h
  obtain ⟨rfl, rfl⟩ := h
  exact ⟨rfl, rfl, rfl, rfl⟩

end moves

/-- Settles O45: one lemma of `cmAdvance` for each case of the bit position. -/
theorem cmMixMovesThePointers : Obligations.CmMixMovesThePointers := by
  intro c g e q q' k k' rng1 tab1 h hNull hSome
  have hCell : cmUpdateCell c g.y q.rng q.tab k = (rng1, tab1) := by
    rcases hcp : k.cp with _ | a
    · obtain ⟨rfl, rfl⟩ := hNull hcp
      exact cmUpdateCell_of_null hcp
    · obtain ⟨st, hStep, rfl⟩ := hSome a hcp
      rw [cmUpdateCell_of_cell hcp, hStep]
  obtain ⟨hRng, hCxt⟩ := cmMixContext_rng_cxt h hCell
  refine ⟨hRng, hCxt, ?_⟩
  intro b quiet
  split_ifs with hRun hOne hTwo hFirst
  · exact cmMixContext_pointers h hCell (cmAdvance_of_noRun hRun)
  · exact cmMixContext_pointers h hCell (cmAdvance_of_oneBit hRun hOne)
  · exact cmMixContext_pointers h hCell (cmAdvance_of_twoBits hRun hTwo)
  · obtain ⟨hCp, hCp0, hRunp, hTab⟩ := cmMixContext_pointers h hCell
      ((cmAdvance_of_lookup hRun hOne hTwo).trans (cmLookup_of_firstBit rfl hFirst))
    exact ⟨hCp0, hCp, hRunp, hTab⟩
  · obtain ⟨hCp, hCp0, hRunp, hTab⟩ := cmMixContext_pointers h hCell
      ((cmAdvance_of_lookup hRun hOne hTwo).trans (cmLookup_of_laterBit rfl hFirst))
    exact ⟨hCp0, hCp, hRunp, hTab⟩

/-! ### Steps 3 and 4 of a round: the six inputs -/

/-- The stage, the StateMap and the count after a round (45_contextmap.md R109). -/
theorem cmMixContext_inputs (h : cmMixContext c g e q k = (q', k')) :
    k'.sm = (smP c g.y k.sm (cmState q'.tab k'.cp)).1 ∧
    q'.x = q.x.addAll (runScore g (byteAt q'.tab k'.runp) (byteAt q'.tab (k'.runp + 1)) ::
      mix2Inputs c (cmState q'.tab k'.cp) (smP c g.y k.sm (cmState q'.tab k'.cp)).2) ∧
    q'.res = q.res + indicator (cmState q'.tab k'.cp != 0) := by
  rw [← (cmAdvance_keeps g e (cmUpdateCell c g.y q.rng q.tab k).2 k).2]
  obtain ⟨rfl, rfl⟩ := Prod.mk.inj h
  exact ⟨rfl, rfl, rfl⟩

theorem indicator_bne_zero {w : Nat} (v : BitVec w) : indicator (v != 0) = if v = 0 then 0 else 1 := by
  by_cases h : v = 0 <;> simp [indicator, h]

/-- The five inputs of `mix2` with the masks of the zero counts written out (45_contextmap.md R107). -/
theorem mix2Inputs_eq (c : Config) (s : Byte) (p : BitVec 12) :
    mix2Inputs c s p =
      (let f := stretch c p / 4
       let p1 : Int := (p.toNat / 16 : Nat)
       let p0 : Int := 255 - p1
       [f, p1 - p0, (if n1 c s = 0 then 0 else -f) - (if n0 c s = 0 then 0 else -f),
        (if n0 c s = 0 then p1 else 0) - (if n1 c s = 0 then p0 else 0),
        (if n1 c s = 0 then p1 else 0) - (if n0 c s = 0 then p0 else 0)]) := by
  have hMask : ∀ (f : Int) (v : Byte), f * (-((indicator (v != 0) : Nat) : Int)) = if v = 0 then 0 else -f := by
    intro f v
    rw [indicator_bne_zero]
    split_ifs <;> simp
  simp only [mix2Inputs, hMask, shr_eq]
  norm_num

/-- The inputs of `mix2` lie in [-512, 512] (45_contextmap.md R107). -/
theorem mix2Inputs_range (c : Config) (s : Byte) (p : BitVec 12) : ∀ x ∈ mix2Inputs c s p, -512 ≤ x ∧ x ≤ 512 := by
  have hStretch := stretch_range c p
  have hp := p.isLt
  rw [mix2Inputs_eq]
  simp only [List.forall_mem_cons, List.not_mem_nil, false_implies, implies_true, and_true]
  refine ⟨by omega, by omega, ?_, ?_, ?_⟩
  all_goals split_ifs <;> omega

/-- Appended inputs that fit in 16 bits are read back as they are (43_mixer.md R89). -/
theorem Stage.input_addAll (u : Stage) {xs : List Int} (hRange : ∀ x ∈ xs, -1024 ≤ x ∧ x ≤ 1024) {j : Nat}
    (hj : j < xs.length) : (u.addAll xs).input (u.nx + j) = xs.getD j 0 := by
  have hx := hRange xs[j] (List.getElem_mem hj)
  rw [(u.addAll_spec xs).2, if_pos (by omega), Nat.add_sub_cancel_left, List.getD_eq_getElem _ _ hj,
    toInt_ofInt16 _ (by omega) (by omega)]

/-- Settles O46: the six inputs are the run score and `mix2Inputs`, and each of them fits. -/
theorem cmMixAddsSixInputs : Obligations.CmMixAddsSixInputs := by
  intro c g e q q' k k' st p h hSt hp
  replace hSt : st = cmState q'.tab k'.cp := hSt
  obtain ⟨hSm, hX, hRes⟩ := cmMixContext_inputs h
  rw [← hSt] at hSm hX hRes
  rw [← hp] at hX
  have hScore := runScore_range g (byteAt q'.tab k'.runp) (byteAt q'.tab (k'.runp + 1))
  have hFive := mix2Inputs_range c st p
  have hFit : ∀ x ∈ mix2Inputs c st p, -1024 ≤ x ∧ x ≤ 1024 := fun x hx => by
    have := hFive x hx
    omega
  have hNew : ∀ j < 6, q'.x.input (q.x.nx + j) = (runScore g _ _ :: mix2Inputs c st p).getD j 0 := fun j hj =>
    hX ▸ q.x.input_addAll (List.forall_mem_cons.2 ⟨hScore, hFit⟩) hj
  obtain ⟨hStage, hOld⟩ := q.x.addAll_spec (runScore g _ _ :: mix2Inputs c st p)
  rw [← hX] at hStage hOld
  refine ⟨hSm, hStage, hRes.trans (congrArg _ (indicator_bne_zero st)), fun j hj => ?_, ?_⟩
  · rw [hOld, if_neg]
    show ¬(q.x.nx ≤ j ∧ j < q.x.nx + 6)
    omega
  have hEach := hNew
  rw [mix2Inputs_eq] at hEach
  refine ⟨hEach 0 (by decide), hScore.1.trans_eq (hNew 0 (by decide)).symm, (hNew 0 (by decide)).trans_le hScore.2,
    hEach 1 (by decide), hEach 2 (by decide), hEach 3 (by decide), hEach 4 (by decide), hEach 5 (by decide),
    fun j h1 h5 => ?_⟩
  obtain ⟨j, rfl⟩ := Nat.exists_eq_add_of_le' h1
  have hLength : j < (mix2Inputs c st p).length := show j < 5 by omega
  have hInput : q'.x.input (q.x.nx + (j + 1)) = (mix2Inputs c st p)[j] :=
    (hNew (j + 1) (by omega)).trans (List.getD_eq_getElem _ _ hLength)
  obtain ⟨hLow, hHigh⟩ := hFive _ (List.getElem_mem hLength)
  exact ⟨hLow.trans_eq hInput.symm, hInput.trans_le hHigh⟩

/-! ### The rounds in order -/

/-- What the first `i` rounds of CM_MIX over `ks` leave. -/
def cmCarryAfter (c : Config) (g : GlobalContext) (e : Nat) (q : CmCarry) (ks : List CmContext) (i : Nat) : CmCarry :=
  (cmMixLoop c g e q (ks.take i)).1

/-- Round `i` acts on context `i` and on what the rounds before it left (45_contextmap.md R109). -/
theorem cmMixLoop_round (ks : List CmContext) (q : CmCarry) {i : Nat} (hk : ks[i]? = some k) :
    ∃ k', (cmMixLoop c g e q ks).2[i]? = some k' ∧
      cmMixContext c g e (cmCarryAfter c g e q ks i) k = (cmCarryAfter c g e q ks (i + 1), k') := by
  induction ks generalizing q i with
  | nil => exact absurd hk nofun
  | cons k0 ks ih =>
    cases i with
    | zero =>
      obtain rfl : k0 = k := Option.some.inj hk
      exact ⟨_, rfl, rfl⟩
    | succ i => exact ih (cmMixContext c g e q k0).1 hk

theorem cmMixLoop_eq (c : Config) (g : GlobalContext) (e : Nat) (q : CmCarry) (ks : List CmContext) :
    cmMixLoop c g e q ks = (cmCarryAfter c g e q ks ks.length, (cmMixLoop c g e q ks).2) := by
  rw [cmCarryAfter, List.take_length]

theorem exec_cmMix {s : State} {unit mixu : BitVec 8} {u : ContextMap} {m : Mixer} {z : CmCarry} {ks : List CmContext}
    (hu : s.cm[unit.toNat]? = some u) (hm : s.mix[mixu.toNat]? = some m)
    (hRoom : m.own.nx + 6 * u.ctxs.length ≤ m.own.cap)
    (hLoop : cmMixLoop s.cfg s.g u.e { rng := s.rng, tab := u.tab, x := m.own, res := 0 } u.ctxs = (z, ks)) :
    exec (.cmMix unit mixu) s =
      .next ((((s.setCm unit.toNat { u with tab := z.tab, cn := if s.g.bpos = 7 then 0 else u.cn, ctxs := ks }).setMix
        mixu.toNat (m.setOwn z.x)).setRng z.rng).setRes0 (BitVec.ofNat 32 z.res)) := by
  show execCmMix unit mixu s = _
  simp only [execCmMix, hu, hm, hLoop]
  exact if_neg (Nat.not_lt.2 hRoom)

/-- Settles O44: the rounds are described by `cmMixLoop_round`. -/
theorem cmMixRunsEveryContext : Obligations.CmMixRunsEveryContext := by
  intro s unit mixu u m hu hm hRoom
  exact ⟨_, _, exec_cmMix hu hm hRoom (cmMixLoop_eq ..), rfl, length_cmMixLoop ..,
    fun _ _ hk => cmMixLoop_round u.ctxs _ hk⟩

/-! ### RCM_MIX -/

/-- The run score with the sign and the weight of the count written out (45_contextmap.md R106). -/
theorem runScore_eq (g : GlobalContext) (rc rb : Byte) :
    runScore g rc rb =
      if (rb.toNat + 256) / 2 ^ (8 - g.bpos.toNat) = g.c0.toNat then
        (if rb.toNat / 2 ^ (7 - g.bpos.toNat) % 2 = 1 then 1 else -1) *
          ((ilog (rc.toNat + 1) * (if rc.toNat % 2 = 0 then 8 else 4) : Nat) : Int)
      else 0 := by
  have hSign : ∀ n : Nat, ((n % 2 : Nat) : Int) * 2 - 1 = if n % 2 = 1 then 1 else -1 := fun n => by
    split_ifs <;> omega
  have hWeight : ∀ n : Nat, 2 ^ (2 + (1 - n % 2)) = if n % 2 = 0 then 8 else 4 := fun n => by
    rcases Nat.mod_two_eq_zero_or_one n with h | h <;> rw [h] <;> rfl
  simp only [runScore, hSign, hWeight]

theorem exec_rcmMix {s : State} {unit mixu : BitVec 8} {u : RunMap} {m : Mixer} (hu : s.rcm[unit.toNat]? = some u)
    (hm : s.mix[mixu.toNat]? = some m) (hRoom : m.own.nx < m.own.cap) :
    exec (.rcmMix unit mixu) s =
      .next ((s.setMix mixu.toNat (m.setOwn (m.own.add
        (runScore s.g (byteAt u.t (4 * u.cp + 2)) (byteAt u.t (4 * u.cp + 3)))))).setRes0
          (if (byteAt u.t (4 * u.cp + 2)).toNat = 0 then 0 else 1)) := by
  have hFlag : ∀ v : Byte, BitVec.ofNat 32 (indicator (v != 0)) = if v.toNat = 0 then 0 else 1 := fun v => by
    rw [indicator_bne_zero, apply_ite (BitVec.ofNat 32)]
    exact if_congr BitVec.toNat_inj.symm rfl rfl
  rw [← hFlag]
  show execRcmMix unit mixu s = _
  simp only [execRcmMix, hu, hm]
  exact if_neg (Nat.not_le.2 hRoom)

/-- Settles O50: the one input is `runScore`, which fits in 16 bits. -/
theorem rcmMixAddsTheRunScore : Obligations.RcmMixAddsTheRunScore := by
  intro s unit mixu u m hu hm hRoom
  obtain ⟨hLow, hHigh⟩ := runScore_range s.g (byteAt u.t (4 * u.cp + 2)) (byteAt u.t (4 * u.cp + 3))
  obtain ⟨hStage, hInput⟩ := m.own.add_spec (runScore s.g (byteAt u.t (4 * u.cp + 2)) (byteAt u.t (4 * u.cp + 3)))
  have hNew := (hInput m.own.nx).trans (if_pos rfl)
  rw [toInt_ofInt16 _ (by omega) (by omega)] at hNew
  exact ⟨_, exec_rcmMix hu hm hRoom, hStage, fun k hk => (hInput k).trans (if_neg hk), hLow.trans_eq hNew.symm,
    hNew.trans_le hHigh, hNew.trans (runScore_eq ..)⟩

end Sys2Proof.Machine
end

section
/-! PROOF. RCM_SET, SSCM_SET and SSCM_MIX (46_run_sscm.md R111, R113, R114): the rekeyed run, the selection as a
remainder, and the call of an SSCM. -/

namespace Sys2Proof.Machine

variable {s : State} {unit mixu rate : BitVec 8} {m : Mixer}

/-! ### RCM_SET -/

theorem exec_rcmSet {u : RunMap} (hu : s.rcm[unit.toNat]? = some u) {r : Memory 8 × Nat × Nat}
    (hr : bhLookup 4 u.ns (runUpdate u.t (4 * u.cp + 2) (s.g.byteBack 1)) s.latch.a0 = r) :
    exec (.rcmSet unit) s = .next (s.setRcm unit.toNat { u with t := r.1, cp := r.2.1 }) := by
  rw [← hr, ← s.g.bufBack_eq 1 (by norm_num)]
  show execRcmSet unit s = _
  simp only [execRcmSet, hu, rcmRecord]

/-! ### SSCM_SET -/

theorem exec_sscmSet {u : Sscm} (hu : s.sscm[unit.toNat]? = some u) :
    exec (.sscmSet unit) s =
      .next (s.setSscm unit.toNat { u with cxt := (s.latch.a0 * 256).toNat &&& (u.ne - 256) }) := by
  show execSscmSet unit s = _
  simp only [execSscmSet, hu]

/-- On multiples of `2 ^ j`, the mask `2 ^ n - 2 ^ j` gives the remainder by `2 ^ n`. -/
theorem mul_two_pow_and_mask (x : Nat) {j n : Nat} (h : j ≤ n) :
    x * 2 ^ j &&& (2 ^ n - 2 ^ j) = x * 2 ^ j % 2 ^ n := by
  obtain ⟨k, rfl⟩ := Nat.exists_eq_add_of_le' h
  calc x * 2 ^ j &&& (2 ^ (k + j) - 2 ^ j)
      = x <<< j &&& (2 ^ k - 1) <<< j := by
        rw [Nat.shiftLeft_eq, Nat.shiftLeft_eq, Nat.sub_mul, Nat.one_mul, pow_add]
    _ = (x % 2 ^ k) <<< j := by rw [← Nat.shiftLeft_and_distrib, Nat.and_two_pow_sub_one_eq_mod]
    _ = x * 2 ^ j % 2 ^ (k + j) := by rw [Nat.shiftLeft_eq, pow_add, Nat.mul_mod_mul_right]

/-- A selection is the operand times 256, reduced to 32 bits and then to the size of the unit (46_run_sscm.md R113). -/
theorem sscmSelection_eq_mod {ne : Nat} (hPow : IsPow2 ne) (hSize : 256 ≤ ne) (cx : Word) :
    (cx * 256).toNat &&& (ne - 256) = cx.toNat * 256 % 2 ^ 32 % ne := by
  obtain ⟨n, rfl⟩ : ∃ n, ne = 2 ^ n := ⟨_, hPow.symm⟩
  have hExp : 8 ≤ n := (Nat.pow_le_pow_iff_right (a := 2) (by decide)).1 hSize
  have hCut : (cx * 256).toNat = cx.toNat % 2 ^ 24 * 2 ^ 8 := by
    rw [BitVec.toNat_mul]
    exact Nat.mul_mod_mul_right (2 ^ 8) cx.toNat (2 ^ 24)
  calc (cx * 256).toNat &&& (2 ^ n - 256) = (cx * 256).toNat % 2 ^ n := by
        rw [hCut]
        exact mul_two_pow_and_mask _ hExp
    _ = cx.toNat * 256 % 2 ^ 32 % 2 ^ n := by
        rw [BitVec.toNat_mul]
        rfl

/-- Settles O49: the run and the lookup are the model's own, and the selection is a remainder that keeps room for 256
entries. -/
theorem rcmSetAndSscmSet : Obligations.RcmSetAndSscmSet := by
  intro s unit
  refine ⟨fun u hu => exec_rcmSet hu rfl, fun u hu hPow hSize => ?_⟩
  have hSelect := (Sscm.fresh_ok hSize).select hSize s.latch.a0
  exact ⟨_, exec_sscmSet hu, sscmSelection_eq_mod hPow hSize _, hSelect.cxtAligned, hSelect.cxt⟩

/-! ### SSCM_MIX -/

/-- The unit after a call: the entry of the previous call trained, the pointer at the entry of this one
(46_run_sscm.md R114). -/
def Sscm.advance (y : BitVec 1) (rate : Nat) (c0 : Byte) (u : Sscm) : Sscm :=
  { u with t := u.t.write sscmInit u.cp (sscmTrain y rate (u.entry u.cp)), cp := u.cxt + c0.toNat }

/-- A call trains the entry of the previous one with no wrap, and no other (46_run_sscm.md R114). -/
theorem Sscm.advance_entry_toNat (y : BitVec 1) {rate : Nat} (hRate : 2 ≤ rate) (c0 : Byte) (u : Sscm) (a : Nat) :
    (((u.advance y rate c0).entry a).toNat : Int) =
      if a = u.cp then
        ((u.entry a).toNat : Int) + ((y.toNat : Int) * 65536 - (u.entry a).toNat + 2 ^ (rate - 1)) / 2 ^ rate
      else ((u.entry a).toNat : Int) := by
  have hEntry : (u.advance y rate c0).entry a = if a = u.cp then sscmTrain y rate (u.entry u.cp) else u.entry a :=
    Memory.read_write ..
  rw [hEntry]
  split
  next hPrev => rw [hPrev, sscmTrain_toNat y rate hRate]
  next => rfl

/-- The upper 12 bits of an entry are its quotient by 16 (46_run_sscm.md R114). -/
theorem entryProbability_eq_div (v : BitVec 16) : (v >>> 4).setWidth 12 = BitVec.ofNat 12 (v.toNat / 16) := by
  rw [← BitVec.ofNat_toNat, BitVec.toNat_ushiftRight, Nat.shiftRight_eq_div_pow]

/-- An appended `stretch` fits in 16 bits, so it is read back as it is (41_tables_fsm.md R68, 43_mixer.md R89). -/
theorem Stage.input_add_stretch (c : Config) (x : Stage) (p : BitVec 12) (k : Nat) :
    (x.add (stretch c p)).input k = if k = x.nx then stretch c p else x.input k := by
  obtain ⟨hMin, hMax⟩ := stretch_range c p
  rw [(x.add_spec _).2, toInt_ofInt16 _ (by omega) (by omega)]

theorem exec_sscmMix {u u' : Sscm} (hu : s.sscm[unit.toNat]? = some u) (hm : s.mix[mixu.toNat]? = some m)
    (hLow : 2 ≤ rate.toNat) (hHigh : rate.toNat ≤ 15) (hRoom : m.own.nx < m.own.cap)
    (hu' : u.advance s.g.y rate.toNat s.g.c0 = u') :
    exec (.sscmMix unit mixu rate) s =
      .next (((s.setSscm unit.toNat u').setMix mixu.toNat (m.setOwn (m.own.add
        (stretch s.cfg (BitVec.ofNat 12 ((u'.entry u'.cp).toNat / 16)))))).setRes0 0) := by
  rw [← entryProbability_eq_div, ← hu']
  show execSscmMix unit mixu rate s = _
  simp only [execSscmMix, hu, hm]
  rw [if_neg (by omega), if_neg (Nat.not_le.2 hRoom)]
  rfl

/-- Settles O51: the unit advances, and the one input is a `stretch`. -/
theorem sscmMixTrainsThenAdds : Obligations.SscmMixTrainsThenAdds := by
  intro s unit mixu rate u m hu hm hLow hHigh hRoom
  exact ⟨_, _, exec_sscmMix hu hm hLow hHigh hRoom rfl, rfl, u.advance_entry_toNat s.g.y hLow s.g.c0, rfl,
    m.own.input_add_stretch s.cfg _⟩

end Sys2Proof.Machine
end

section
/-! PROOF. BIT_END (47_predictor.md R115, R116): the contexts of the stack as numbers, the averages as numbers, and the
stack right after reset. -/

namespace Sys2Proof.Machine

variable {s : State} {c : Config} {g : GlobalContext} {a0 a1 a2 a3 a4 a5 a6 : Apm} {others : List Apm}

/-! ### The contexts of the stack -/

/-- HASH2 is the listed value of its two bytes, or the default hash with the third argument missing
(47_predictor.md R115, log 6). -/
theorem hash2_eq (c : Config) (a b : Byte) :
    hash2 c a b = (c.hash2.lookup (a.toNat + 256 * b.toNat)).getD
      (defaultHash (BitVec.ofNat 32 a.toNat) (BitVec.ofNat 32 b.toNat) 0xFFFFFFFF) := by
  rw [BitVec.ofNat_toNat, BitVec.ofNat_toNat]
  exact Memory.read_eq_lookup ..

/-- HASH3 is the listed value of its three bytes, or the default hash (47_predictor.md R115, log 6). -/
theorem hash3_eq (c : Config) (x y z : Byte) :
    hash3 c x y z = (c.hash3.lookup (x.toNat + 256 * y.toNat + 65536 * z.toNat)).getD
      (defaultHash (BitVec.ofNat 32 x.toNat) (BitVec.ofNat 32 y.toNat) (BitVec.ofNat 32 z.toNat)) := by
  rw [BitVec.ofNat_toNat, BitVec.ofNat_toNat, BitVec.ofNat_toNat]
  exact Memory.read_eq_lookup ..

/-- The mask keeps the low half of a hash (47_predictor.md R115). -/
theorem xor_masked_toNat (c0 : Byte) (h : Word) :
    (c0.setWidth 32 ^^^ (h &&& 0xFFFF)).toNat = c0.toNat ^^^ (h.toNat % 65536) := by
  have hMask : (h &&& 0xFFFF).toNat = h.toNat % 65536 :=
    (BitVec.toNat_and ..).trans (Nat.and_two_pow_sub_one_eq_mod h.toNat 16)
  have hByte : (c0.setWidth 32).toNat = c0.toNat := BitVec.toNat_setWidth_of_le (by decide)
  rw [BitVec.toNat_xor, hMask, hByte]

/-- The four contexts as numbers, with the bytes read back in the ring (47_predictor.md R115). -/
theorem stackContexts_eq (c : Config) (g : GlobalContext) :
    stackContexts c g =
      { x0 := g.c0.toNat
        x1 := g.c0.toNat + 256 * (g.byteBack 1).toNat
        x2 := g.c0.toNat ^^^ ((hash2 c (g.byteBack 1) (g.byteBack 2)).toNat % 65536)
        x3 := g.c0.toNat ^^^ ((hash3 c (g.byteBack 1) (g.byteBack 2) (g.byteBack 3)).toNat % 65536) } := by
  have hBack : ∀ i ≤ 3, g.bufBack i = g.byteBack i := fun i hi => g.bufBack_eq i (hi.trans (by norm_num))
  simp only [stackContexts, xor_masked_toNat, hBack 1 (by decide), hBack 2 (by decide), hBack 3 (by decide)]

/-! ### The averages -/

/-- The average of four probabilities does not wrap (47_predictor.md R116). -/
theorem average4_toNat (a b c d : BitVec 12) :
    (average4 a b c d).toNat = (a.toNat + b.toNat + c.toNat + d.toNat + 2) / 4 := by
  rw [average4, BitVec.toNat_ofNat]
  omega

/-- The average of two probabilities does not wrap (47_predictor.md R116). -/
theorem average2_toNat (a b : BitVec 12) : (average2 a b).toNat = (a.toNat + b.toNat + 1) / 2 := by
  rw [average2, BitVec.toNat_ofNat]
  omega

/-! ### The command -/

theorem exec_bitEnd (hApm : s.apm = a0 :: a1 :: a2 :: a3 :: a4 :: a5 :: a6 :: others) (hProb : s.op0 ≤ 4095)
    {r : List Apm × BitVec 12}
    (hr : stackRun s.cfg s.g a0 a1 a2 a3 a4 a5 a6 (BitVec.ofNat 12 s.op0) = r) :
    exec .bitEnd s = .next { s with
      apm := r.1 ++ others, g := { s.g with pr := r.2 }, res0 := BitVec.ofNat 32 r.2.toNat } := by
  rw [← hr, State.op0, BitVec.ofNat_toNat, BitVec.ofNat_toNat]
  refine (if_neg (Nat.not_lt.2 hProb)).trans ?_
  rw [hApm]
  rfl

/-- Settles O52: the run of the stack is the model's own, on contexts and with averages that are numbers
(`stackContexts_eq`, `average4_toNat`, `average2_toNat`). -/
theorem bitEndRunsTheApmStack : Obligations.BitEndRunsTheApmStack := by
  intro s a0 a1 a2 a3 a4 a5 a6 others hApm hProb p0 c0 b w h2 h3 x1 x2 x3 call pA q1 q2 q3 r1 r2 r3 prB prC pr
  have hContexts : stackContexts s.cfg s.g = ⟨c0, x1, x2, x3⟩ := by
    rw [stackContexts_eq, hash2_eq, hash3_eq]
  have hPr : (average2 (average4 pA.2 r1.2 r2.2 r3.2) (average4 p0 q1.2 q2.2 q3.2)).toNat = pr := by
    rw [average2_toNat, average4_toNat, average4_toNat]
  have hRun : stackRun s.cfg s.g a0 a1 a2 a3 a4 a5 a6 (BitVec.ofNat 12 s.op0) =
      ([pA.1, q1.1, q2.1, q3.1, r1.1, r2.1, r3.1], BitVec.ofNat 12 pr) := by
    rw [← hPr, BitVec.ofNat_toNat, BitVec.setWidth_eq]
    simp only [stackRun, hContexts]
    rfl
  have hLt : pr < 4096 := hPr ▸ BitVec.isLt _
  refine ⟨Nat.le_of_lt_succ hLt, (exec_bitEnd hApm hProb hRun).trans ?_⟩
  rw [BitVec.toNat_ofNat, Nat.mod_eq_of_lt hLt]
  rfl

/-! ### Right after reset -/

/-- The middle column of every APM holds 2048 * 16 after reset (42_statemap_apm.md R83). -/
theorem Apm.fresh_entry_middle (hSquash : SquashOk c.squash) (rows x : Nat) :
    ((Apm.fresh rows).entry c (33 * x + 16)).toNat = 32768 := by
  have hColumn : (((33 * x + 16) % 33 : Nat) : Int) * 128 - 2048 = 0 := by omega
  show (apmInit c (33 * x + 16)).toNat = 32768
  rw [apmInit, hColumn, squash_zero hSquash]
  rfl

/-- A call of a fresh APM with the probability 2048 gives 2048: the anchor is the middle column, which the training of
the entries 0 and 1 does not reach, and the second entry has weight 0 (42_statemap_apm.md R84). -/
theorem apmP_fresh_2048 (hSquash : SquashOk c.squash) (y : BitVec 1) (rows x rate : Nat) :
    (apmP c y (Apm.fresh rows) 2048 x rate).2 = 2048 := by
  obtain ⟨-, -, hEntry, hResult⟩ := apmP_spec c y (Apm.fresh rows) 2048 x rate
  obtain ⟨j, -, hAnchor, hColumn⟩ := apmAnchor_spec c 2048 x
  rw [stretch_2048 hSquash] at hAnchor hColumn hResult
  obtain rfl : j = 16 := by omega
  have hUntrained : ¬(33 * x + 16 = (Apm.fresh rows).index ∨ 33 * x + 16 = (Apm.fresh rows).index + 1) := by
    simp only [Apm.fresh]; omega
  have hWeight : apmWeight 0 = 0 := rfl
  rw [hAnchor, hEntry, if_neg hUntrained, Apm.fresh_entry_middle hSquash, hWeight, Nat.mul_zero] at hResult
  exact BitVec.eq_of_toNat_eq hResult

/-- On fresh units the stack maps 2048 to 2048 (47_predictor.md R116). -/
theorem stackRun_fresh_2048 (hSquash : SquashOk c.squash) (g : GlobalContext) (n0 n1 n2 n3 n4 n5 n6 : Nat) :
    (stackRun c g (.fresh n0) (.fresh n1) (.fresh n2) (.fresh n3) (.fresh n4) (.fresh n5) (.fresh n6) 2048).2 =
      2048 := by
  simp only [stackRun, apmP_fresh_2048 hSquash]
  rfl

/-- A list of seven or more entries, entry by entry. -/
theorem exists_eq_seven_cons {α : Type} {l : List α} (h : 7 ≤ l.length) :
    ∃ x0 x1 x2 x3 x4 x5 x6 rest, l = x0 :: x1 :: x2 :: x3 :: x4 :: x5 :: x6 :: rest := by
  match l, h with
  | x0 :: x1 :: x2 :: x3 :: x4 :: x5 :: x6 :: rest, _ => exact ⟨x0, x1, x2, x3, x4, x5, x6, rest, rfl⟩

/-- Settles O53: every APM unit is fresh, and `stackRun_fresh_2048` gives the result. -/
theorem bitEndAfterResetGives2048 : Obligations.BitEndAfterResetGives2048 := by
  intro c geo s hc hg hs hOperand
  obtain ⟨n0, n1, n2, n3, n4, n5, n6, rest, hRows⟩ := exists_eq_seven_cons hg.nApm.1
  have hApm : s.apm = .fresh n0 :: .fresh n1 :: .fresh n2 :: .fresh n3 :: .fresh n4 :: .fresh n5 :: .fresh n6 ::
      rest.map Apm.fresh := by
    rw [hs]
    exact congrArg (List.map Apm.fresh) hRows
  have hCfg : s.cfg = c := by rw [hs]; rfl
  have hOp : s.op0 = 2048 := congrArg BitVec.toNat hOperand
  have hRun := stackRun_fresh_2048 (c := s.cfg) (hCfg ▸ hc.squash) s.g n0 n1 n2 n3 n4 n5 n6
  refine ⟨_, exec_bitEnd hApm (by omega) rfl, ?_, ?_⟩
  · rw [hOp]
    exact congrArg (fun p : BitVec 12 => BitVec.ofNat 32 p.toNat) hRun
  · rw [hOp]
    exact hRun

end Sys2Proof.Machine
end

section
/-! PROOF. The error mechanism (60_exceptions.md R119 to R124): no command stops the block, an error is the whole
effect of its command, and the refusals of units, operands and full units. -/

namespace Sys2Proof.Machine

/-! ### The block never stops -/

section goes

variable {s : State} {o : Result} {p : Prop} [Decidable p] {code : ErrCode}

theorem Goes.next (s : State) : Goes (.next s) := ⟨s, rfl⟩

/-- An operand check before an outcome. -/
theorem Goes.refuseOr (h : Goes o) : Goes (if p then .next (s.refuse code) else o) := by
  split_ifs
  · exact .next _
  · exact h

theorem Goes.mapNext (h : Goes o) (f : State → State) : Goes (mapNext f o) := by
  obtain ⟨t, rfl⟩ := h
  exact .next (f t)

end goes

/-- Seven APM units are what BIT_END asks for (log 14), and every block has them (00_scope.md R7). -/
theorem execBitEnd_goes {s : State} (h : 7 ≤ s.apm.length) : Goes (execBitEnd s) := by
  obtain ⟨a0, a1, a2, a3, a4, a5, a6, others, hApm⟩ := exists_eq_seven_cons h
  unfold execBitEnd
  rw [hApm]
  exact .refuseOr (.next _)

/-- Every command but BIT_END goes on in every state: it is refused at one of its checks or completes. The cases are
grouped by the units the command looks up and the checks it makes of its operands (60_exceptions.md R121). -/
theorem exec_goes_of_ne_bitEnd {i : Instr} (hi : i ≠ .bitEnd) (s : State) : Goes (exec i s) := by
  cases i with
  | bitEnd => exact absurd rfl hi
  | nop | bitBegin | probRead | squash | rngNext => exact .next _
  | stretch | ilog | fsmNext | fsmCounts | fsmNextp => exact .refuseOr (.next _)
  | dbgRd cls unit mixu =>
    refine .refuseOr ?_
    split
    next => exact .next _
    next => exact .next _
  | mixUpdate | mixP | bhLookup | rcmSet | sscmSet =>
    simp only [exec, execMixUpdate, execMixP, execBhLookup, execRcmSet, execSscmSet]
    split
    next => exact .next _
    next => exact .next _
  | smP | apmP | bhRd | bhWr | cmSet =>
    simp only [exec, execSmP, execApmP, execBhRd, execBhWr, execCmSet]
    split
    next => exact .next _
    next => exact .refuseOr (.next _)
  | mixAdd | mixSet =>
    simp only [exec, execMixAdd, execMixSet]
    split
    next => exact .next _
    next => exact .refuseOr (.refuseOr (.next _))
  | cmMix | rcmMix =>
    simp only [exec, execCmMix, execRcmMix]
    split
    next => exact .next _
    next =>
      split
      next => exact .next _
      next => exact .refuseOr (.next _)
  | sscmMix =>
    simp only [exec, execSscmMix]
    split
    next => exact .next _
    next =>
      split
      next => exact .next _
      next => exact .refuseOr (.refuseOr (.next _))

theorem State.Inv.exec_goes {s : State} (h : s.Inv) (i : Instr) : Goes (exec i s) := by
  by_cases hi : i = .bitEnd
  · have hUnits : 7 ≤ s.apm.length := by simpa [State.geometry] using h.geometry.nApm.1
    rw [hi]
    exact execBitEnd_goes hUnits
  · exact exec_goes_of_ne_bitEnd hi s

theorem performCommand_goes {s : State} (h : ∀ i, Goes (exec i s)) : Goes (performCommand s) := by
  unfold performCommand
  split
  next i _ => exact (h i).mapNext _
  next => exact .next _

/-- Settles O17: a step performs a command, which goes on (`State.Inv.exec_goes`), or an access of the host. -/
theorem instanceNeverStops : Obligations.InstanceNeverStops := by
  intro s h
  refine ⟨?_, h.exec_goes⟩
  unfold step
  split_ifs
  · exact performCommand_goes h.exec_goes
  · exact .next _

/-! ### An error is the whole effect -/

/-- A command writes the error record only by being refused (60_exceptions.md R120). -/
theorem Effect.err_eq_or_refuse {s t : State} {i : Instr} (h : Effect s i t) :
    t.err = s.err ∨ ∃ code, t = s.refuse code := by
  cases h with
  | refuse i code => exact .inr ⟨code, rfl⟩
  | _ => left; simp

/-- A standing error record outlasts a refusal (60_exceptions.md R120). -/
theorem State.refuse_err_of_some {s : State} {r : ErrRecord} (h : s.err = some r) (code : ErrCode) :
    (s.refuse code).err = some r := by
  rw [State.refuse_eq, h]
  rfl

/-- Settles O20: a command leaves the record as it is or is refused (`Effect.err_eq_or_refuse`). -/
theorem errorIsTheWholeEffect : Obligations.ErrorIsTheWholeEffect := by
  intro i s t h
  rcases (exec_answers i s t h).err_eq_or_refuse with hSame | ⟨code, rfl⟩
  · exact ⟨fun r hr => hSame.trans hr, fun hNew => absurd hSame hNew⟩
  refine ⟨fun r hr => State.refuse_err_of_some hr code, fun hNew => ?_⟩
  cases hErr : s.err with
  | some r => exact absurd ((State.refuse_err_of_some hErr code).trans hErr.symm) hNew
  | none => exact ⟨by rw [State.refuse_eq], code, by rw [State.refuse_eq, hErr]; rfl⟩

/-! ### A refusal as the statements name it -/

section refusals

variable {s : State} {i : Instr} {u x r : BitVec 8} {m : Mixer}

theorem raises_of_refuse {code : ErrCode} (h : exec i s = .next (s.refuse code)) : Raises i s code :=
  h.trans (congrArg _ (s.raise_eq_errAfter code s.latch.word))

/-! ### Units that do not exist (60_exceptions.md R119, R121 item 3) -/

theorem raises_badUnit_sm (h : s.sm.length ≤ u.toNat) : Raises (.smP u) s .badUnit :=
  raises_of_refuse (by simp only [exec, execSmP, List.getElem?_eq_none h])

theorem raises_badUnit_apm (h : s.apm.length ≤ u.toNat) : Raises (.apmP u r) s .badUnit :=
  raises_of_refuse (by simp only [exec, execApmP, List.getElem?_eq_none h])

theorem raises_badUnit_mix (h : s.mix.length ≤ u.toNat) :
    Raises (.mixUpdate u) s .badUnit ∧ Raises (.mixAdd u) s .badUnit ∧ Raises (.mixSet u) s .badUnit ∧
    Raises (.mixP u) s .badUnit :=
  have hNone := List.getElem?_eq_none h
  ⟨raises_of_refuse (by simp only [exec, execMixUpdate, hNone]),
    raises_of_refuse (by simp only [exec, execMixAdd, hNone]),
    raises_of_refuse (by simp only [exec, execMixSet, hNone]),
    raises_of_refuse (by simp only [exec, execMixP, hNone])⟩

theorem raises_badUnit_bh (h : s.bh.length ≤ u.toNat) :
    Raises (.bhLookup u) s .badUnit ∧ Raises (.bhRd u) s .badUnit ∧ Raises (.bhWr u) s .badUnit :=
  have hNone := List.getElem?_eq_none h
  ⟨raises_of_refuse (by simp only [exec, execBhLookup, hNone]),
    raises_of_refuse (by simp only [exec, execBhRd, hNone]),
    raises_of_refuse (by simp only [exec, execBhWr, hNone])⟩

theorem raises_badUnit_cm (h : s.cm.length ≤ u.toNat) :
    Raises (.cmSet u) s .badUnit ∧ Raises (.cmMix u x) s .badUnit :=
  have hNone := List.getElem?_eq_none h
  ⟨raises_of_refuse (by simp only [exec, execCmSet, hNone]),
    raises_of_refuse (by simp only [exec, execCmMix, hNone])⟩

theorem raises_badUnit_rcm (h : s.rcm.length ≤ u.toNat) :
    Raises (.rcmSet u) s .badUnit ∧ Raises (.rcmMix u x) s .badUnit :=
  have hNone := List.getElem?_eq_none h
  ⟨raises_of_refuse (by simp only [exec, execRcmSet, hNone]),
    raises_of_refuse (by simp only [exec, execRcmMix, hNone])⟩

theorem raises_badUnit_sscm (h : s.sscm.length ≤ u.toNat) :
    Raises (.sscmSet u) s .badUnit ∧ Raises (.sscmMix u x r) s .badUnit :=
  have hNone := List.getElem?_eq_none h
  ⟨raises_of_refuse (by simp only [exec, execSscmSet, hNone]),
    raises_of_refuse (by simp only [exec, execSscmMix, hNone])⟩

/-! ### Mixers that do not exist: the unit is looked up first (60_exceptions.md R121 item 4) -/

theorem raises_badMixu_cmMix {w : ContextMap} (hw : s.cm[u.toNat]? = some w) (h : s.mix.length ≤ x.toNat) :
    Raises (.cmMix u x) s .badMixu :=
  raises_of_refuse (by simp only [exec, execCmMix, hw, List.getElem?_eq_none h])

theorem raises_badMixu_rcmMix {w : RunMap} (hw : s.rcm[u.toNat]? = some w) (h : s.mix.length ≤ x.toNat) :
    Raises (.rcmMix u x) s .badMixu :=
  raises_of_refuse (by simp only [exec, execRcmMix, hw, List.getElem?_eq_none h])

theorem raises_badMixu_sscmMix {w : Sscm} (hw : s.sscm[u.toNat]? = some w) (h : s.mix.length ≤ x.toNat) :
    Raises (.sscmMix u x r) s .badMixu :=
  raises_of_refuse (by simp only [exec, execSscmMix, hw, List.getElem?_eq_none h])

/-! ### Operands out of range, once the units exist (60_exceptions.md R121 item 5) -/

theorem raises_argRange_smP {w : StateMap} (hw : s.sm[u.toNat]? = some w) (h : 255 < s.op0) :
    Raises (.smP u) s .argRange := by
  refine raises_of_refuse ?_
  simp only [exec, execSmP, hw]
  exact if_pos h

theorem raises_argRange_apmP {w : Apm} (hw : s.apm[u.toNat]? = some w)
    (h : r.toNat = 0 ∨ 15 < r.toNat ∨ 4095 < s.op0 ∨ w.rows ≤ s.op1) : Raises (.apmP u r) s .argRange := by
  refine raises_of_refuse ?_
  simp only [exec, execApmP, hw]
  exact if_pos h

theorem raises_argRange_mixAdd (hm : s.mix[u.toNat]? = some m) (h : s.op0s < -32768 ∨ 32767 < s.op0s) :
    Raises (.mixAdd u) s .argRange := by
  refine raises_of_refuse ?_
  simp only [exec, execMixAdd, hm]
  exact if_pos h

theorem raises_argRange_bhRd {w : BhTable} (hw : s.bh[u.toNat]? = some w) (h : w.ns ≤ s.op0 ∨ w.b ≤ s.op1) :
    Raises (.bhRd u) s .argRange := by
  refine raises_of_refuse ?_
  simp only [exec, execBhRd, hw]
  exact if_pos h

theorem raises_argRange_bhWr {w : BhTable} (hw : s.bh[u.toNat]? = some w)
    (h : w.ns ≤ s.op0 ∨ s.op1 < 2 ∨ w.b ≤ s.op1 ∨ 255 < s.op2) : Raises (.bhWr u) s .argRange := by
  refine raises_of_refuse ?_
  simp only [exec, execBhWr, hw]
  exact if_pos h

theorem raises_argRange_sscmMix {w : Sscm} (hw : s.sscm[u.toNat]? = some w) (hm : s.mix[x.toNat]? = some m)
    (h : r.toNat < 2 ∨ 15 < r.toNat) : Raises (.sscmMix u x r) s .argRange := by
  refine raises_of_refuse ?_
  simp only [exec, execSscmMix, hw, hm]
  exact if_pos h

/-! ### Full units, after every other check (60_exceptions.md R121) -/

theorem raises_mixAddFull_mixAdd (hm : s.mix[u.toNat]? = some m) (hLow : -32768 ≤ s.op0s) (hHigh : s.op0s ≤ 32767)
    (hFull : m.own.cap ≤ m.own.nx) : Raises (.mixAdd u) s .mixAddFull := by
  refine raises_of_refuse ?_
  simp only [exec, execMixAdd, hm]
  rw [if_neg (by omega), if_pos hFull]

theorem raises_mixSetFull (hm : s.mix[u.toNat]? = some m) (hFull : m.own.s ≤ m.own.ncxt) :
    Raises (.mixSet u) s .mixSetFull := by
  refine raises_of_refuse ?_
  simp only [exec, execMixSet, hm]
  exact if_pos hFull

theorem raises_mixSetRange (hm : s.mix[u.toNat]? = some m) (hRoom : m.own.ncxt < m.own.s)
    (h : s.op1 = 0 ∨ s.op1 ≤ s.op0 ∨ m.own.m < m.own.base + s.op1) : Raises (.mixSet u) s .mixSetRange := by
  refine raises_of_refuse ?_
  simp only [exec, execMixSet, hm]
  rw [if_neg (Nat.not_le.2 hRoom), if_pos h]

theorem raises_cmSetFull {w : ContextMap} (hw : s.cm[u.toNat]? = some w) (hFull : w.ctxs.length ≤ w.cn) :
    Raises (.cmSet u) s .cmSetFull := by
  refine raises_of_refuse ?_
  simp only [exec, execCmSet, hw]
  exact if_pos hFull

/-- CM_MIX is refused before its first input when there is no room for all of them (45_contextmap.md R109). -/
theorem raises_mixAddFull_cmMix {w : ContextMap} (hw : s.cm[u.toNat]? = some w) (hm : s.mix[x.toNat]? = some m)
    (hFull : m.own.cap < m.own.nx + 6 * w.ctxs.length) : Raises (.cmMix u x) s .mixAddFull := by
  refine raises_of_refuse ?_
  simp only [exec, execCmMix, hw, hm]
  exact if_pos hFull

theorem raises_mixAddFull_rcmMix {w : RunMap} (hw : s.rcm[u.toNat]? = some w) (hm : s.mix[x.toNat]? = some m)
    (hFull : m.own.cap ≤ m.own.nx) : Raises (.rcmMix u x) s .mixAddFull := by
  refine raises_of_refuse ?_
  simp only [exec, execRcmMix, hw, hm]
  exact if_pos hFull

theorem raises_mixAddFull_sscmMix {w : Sscm} (hw : s.sscm[u.toNat]? = some w) (hm : s.mix[x.toNat]? = some m)
    (hLow : 2 ≤ r.toNat) (hHigh : r.toNat ≤ 15) (hFull : m.own.cap ≤ m.own.nx) :
    Raises (.sscmMix u x r) s .mixAddFull := by
  refine raises_of_refuse ?_
  simp only [exec, execSscmMix, hw, hm]
  rw [if_neg (by omega), if_pos hFull]

end refusals

/-- Settles O56: the unit is looked up first, then the mixer. -/
theorem missingUnitsAreRefused : Obligations.MissingUnitsAreRefused := fun _ _ _ _ =>
  ⟨raises_badUnit_sm, raises_badUnit_apm, raises_badUnit_mix, raises_badUnit_bh, raises_badUnit_cm,
    raises_badUnit_rcm, raises_badUnit_sscm, fun hMix =>
      ⟨fun h => raises_badMixu_cmMix (List.getElem?_eq_getElem h) hMix,
        fun h => raises_badMixu_rcmMix (List.getElem?_eq_getElem h) hMix,
        fun h => raises_badMixu_sscmMix (List.getElem?_eq_getElem h) hMix⟩⟩

/-- Settles O57: the first check that follows the lookups fails; six commands look nothing up. -/
theorem operandsOutOfRangeAreRefused : Obligations.OperandsOutOfRangeAreRefused := fun _ _ _ _ =>
  ⟨fun h => ⟨raises_of_refuse (if_pos h), raises_of_refuse (if_pos h)⟩,
    fun h => raises_of_refuse (if_pos h),
    fun h => ⟨raises_of_refuse (if_pos h), fun _ => ⟨raises_of_refuse (if_pos h), raises_of_refuse (if_pos h)⟩⟩,
    fun hUnit => raises_argRange_smP (List.getElem?_eq_getElem hUnit),
    fun _ => raises_argRange_apmP,
    fun hUnit => raises_argRange_mixAdd (List.getElem?_eq_getElem hUnit),
    fun _ hw => ⟨raises_argRange_bhRd hw, raises_argRange_bhWr hw⟩,
    fun hUnit hMix => raises_argRange_sscmMix (List.getElem?_eq_getElem hUnit) (List.getElem?_eq_getElem hMix)⟩

/-- Settles O58: the units exist, the operands are in range, and the last check fails. -/
theorem capacityErrorsAreRefused : Obligations.CapacityErrorsAreRefused := by
  refine fun s u x r => ⟨fun m hm => ⟨raises_mixAddFull_mixAdd hm, raises_mixSetFull hm, fun hRoom h => ?_⟩,
    fun _ => raises_cmSetFull, fun m hm => ⟨fun _ hw => raises_mixAddFull_cmMix hw hm,
      fun hUnit => raises_mixAddFull_rcmMix (List.getElem?_eq_getElem hUnit) hm,
      fun hUnit => raises_mixAddFull_sscmMix (List.getElem?_eq_getElem hUnit) hm⟩⟩
  exact raises_mixSetRange hm hRoom (h.imp_left (congrArg BitVec.toNat))

end Sys2Proof.Machine
end

section
/-! PROOF. Reset, idling and BUSY (70_reset_and_hazards.md R134 to R138): a constructed block has every reset value of
R135, a block with nothing to do waits, and a command in progress is neither overtaken nor replaced. -/

namespace Sys2Proof.Machine

/-! ### The reset value of each unit (70_reset_and_hazards.md R135) -/

/-- The initial probability of a StateMap entry fits in 16 bits: the quotient is below 1 (42_statemap_apm.md R80). -/
theorem initialProbability_lt (a0 a1 : Nat) : 65536 * (a1 + 1) / (a0 + a1 + 2) < 65536 := by
  rw [Nat.div_lt_iff_lt_mul (by omega)]
  omega

theorem StateMap.fresh_atReset (c : Config) : StateMap.fresh.AtReset c :=
  ⟨rfl, fun _ _ => Nat.mod_eq_of_lt (initialProbability_lt _ _)⟩

/-- Sixteen times a probability fits in 16 bits (42_statemap_apm.md R83). -/
theorem apmInit_toNat (c : Config) (r : Nat) {j : Nat} (hj : j < 33) :
    (apmInit c (33 * r + j)).toNat = (squash c (((j : Int) - 16) * 128)).toNat * 16 := by
  have hColumn : (((33 * r + j) % 33 : Nat) : Int) * 128 - 2048 = ((j : Int) - 16) * 128 := by omega
  have hProb := (squash c (((j : Int) - 16) * 128)).isLt
  rw [apmInit, hColumn, BitVec.toNat_ofNat]
  omega

theorem Apm.fresh_atReset (c : Config) (rows : Nat) : (Apm.fresh rows).AtReset c :=
  ⟨rfl, fun r _ _ hj => apmInit_toNat c r hj⟩

theorem Stage.fresh_atReset (n m s : Nat) (w0 : BitVec 16) : (Stage.fresh n m s w0).AtReset w0.toInt :=
  ⟨fun _ _ => rfl, fun _ _ _ _ => rfl, rfl, rfl, rfl, rfl, rfl⟩

/-- The child of a Mixer unit starts with weights 0x7FFF (10_state.md R31). -/
theorem Mixer.fresh_child_atReset {x : MixerGeometry} {u : Stage} (h : (Mixer.fresh x).child = some u) :
    u.AtReset 32767 := by
  obtain ⟨-, rfl⟩ : 1 < x.s ∧ Stage.fresh x.s 1 1 0x7FFF = u := by simpa [Mixer.fresh] using h
  exact Stage.fresh_atReset ..

/-- A constructed block has the reset value in every piece of state (70_reset_and_hazards.md R134, R135). -/
theorem State.fresh_atReset (c : Config) (geo : Geometry) : (State.fresh c geo).AtReset where
  registers := ⟨rfl, rfl, rfl, rfl, rfl, rfl⟩
  status := ⟨rfl, rfl⟩
  constants := ⟨BitVec.eq_of_toNat_eq (State.statusWord_toNat _), rfl, rfl, rfl⟩
  g := ⟨rfl, rfl, rfl, rfl, rfl, rfl⟩
  buf _ := rfl
  rng := ⟨rfl, rfl⟩
  sm u hu := by rw [List.eq_of_mem_replicate hu]; exact StateMap.fresh_atReset c
  apm := List.forall_mem_map.2 fun rows _ => Apm.fresh_atReset c rows
  mix := List.forall_mem_map.2 fun x _ => ⟨Stage.fresh_atReset x.n x.m x.s x.w0, fun _ => Mixer.fresh_child_atReset⟩
  bh := List.forall_mem_map.2 fun _ _ _ => rfl
  cm := List.forall_mem_map.2 fun x _ => ⟨rfl, fun _ => rfl, fun k hk => by
    rw [List.eq_of_mem_replicate hk]
    exact ⟨rfl, rfl, rfl, rfl, StateMap.fresh_atReset c⟩⟩
  rcm := List.forall_mem_map.2 fun _ _ => ⟨rfl, fun _ => rfl⟩
  sscm := List.forall_mem_map.2 fun _ _ => ⟨rfl, rfl, fun _ => rfl⟩

/-- A soft reset constructs the block anew; what the host does next and has read is no state of the block (log 18). -/
theorem State.softReset_atReset (s : State) : s.softReset.AtReset :=
  { State.fresh_atReset s.cfg s.geometry with }

/-- Settles O13: power-on and a soft reset both construct the block (`State.fresh_atReset`). -/
theorem resetGivesEveryResetValue : Obligations.ResetGivesEveryResetValue := by
  refine ⟨State.fresh_atReset chosenConfig chosenGeometry, fun s v rest hReset h => ?_⟩
  have hStep : step s = .next (State.softReset { s with host := rest }) :=
    (step_write (off := 0x20) (by decide) rfl h).trans (congrArg _ (State.writeCtrl_reset _ hReset))
  have hSame := step_staysInInstance s _ hStep
  exact ⟨_, hStep, State.softReset_atReset _, hSame.cfg, hSame.geometry⟩

/-! ### A command in progress, and none -/

/-- Settles O5: the step performs the command in progress (`step_eq_performCommand`), whose word is `i`. -/
theorem stepRunsTheDecodedCommand : Obligations.StepRunsTheDecodedCommand := by
  intro s i h hDecode
  rw [step_eq_performCommand h, performCommand, hDecode]
  rfl

/-- While BUSY is 1 a word is stored and refused with E_BUSY (70_reset_and_hazards.md R138). -/
theorem State.writeCmd_busy {s : State} (v : Word) (h : s.busy = true) :
    s.writeCmd v = { s with cmd := v, err := s.errAfter .busy v } := by
  rw [State.writeCmd, if_pos h, State.raise_eq_errAfter]

/-- Settles O7: the step is an accepted write at offset 0 (`step_write`), which finds the block busy. -/
theorem cmdWriteWhileBusyIsRefused : Obligations.CmdWriteWhileBusyIsRefused := by
  intro s v rest hBusy h
  rw [step_write (off := 0) (by decide) rfl h]
  exact congrArg _ (State.writeCmd_busy (s := { s with host := rest }) v hBusy)

/-- Settles O14: the step is the host's, and the host has no access to make. -/
theorem idleBlockWaits : Obligations.IdleBlockWaits := by
  intro s hIdle hHost
  simp [step, State.hostStep, hIdle, hHost]

end Sys2Proof.Machine
end
